-- ==== Sys2Proof/Word.lean ====
section
/-! DEFINITION. The word types of the panel streamer: bytes, 16-bit coordinates and colours, 32-bit registers (00_scope.md R7). -/

namespace Sys2Proof

/-- One byte on the bus, in the framebuffer or in host memory. -/
abbrev Byte := BitVec 8

/-- A 16-bit quantity: a coordinate field, a window bound or an RGB565 colour (R57, R64, R65). -/
abbrev Half := BitVec 16

/-- A 32-bit register or host-memory address (R14, R39). -/
abbrev Word := BitVec 32

end Sys2Proof
end

