-- ==== Sys2Proof/Syntax.lean ====
section
/-! DEFINITION. The instruction set: one constructor per row of spec/opcode_table.json, the ten host operations
(30_encoding.md R56, R57) and the eighteen panel commands (R63, R65, R66, R68). -/

namespace Sys2Proof

/-- A panel command as it is sent: the command byte and the payload that follows it as data (R63, R68). An entry of
`INIT_TABLE` is one of these (41_panel_protocol.md R101). -/
structure WireCmd where
  op : Byte
  payload : List Byte
  deriving DecidableEq, Repr, Inhabited

/-- The instructions. The operands of a host operation are the fields R57 gives it, in the order of R60. The operand of
a panel command is its payload: two window bounds for COLUMN_ADDR and PAGE_ADDR (R65), none for SLEEP_OUT, DISPLAY_ON
and WRITE_RAM (R81, R84, R87), the bytes of its `INIT_TABLE` entry for the others (R68, R80 to R97). -/
inductive Instr where
  | xferBytes (addr len : Word)
  | sendCmd (byte : Byte)
  | sendData (byte : Byte)
  | init
  | fillAll (color : Half)
  | fillRegion (x1 y1 x2 y2 color : Half)
  | blit (x y iw ih : Half) (src : Word)
  | sendRegion (x1 y1 x2 y2 : Half)
  | sendAll
  | drawText (xc y : Half) (str : Word) (n : Half) (sp : Byte) (norm : Bool) (color : Half)
  | nop (payload : List Byte)
  | sleepOut
  | displayInversionOff (payload : List Byte)
  | setGamma (payload : List Byte)
  | displayOn
  | columnAddr (start stop : Half)
  | pageAddr (start stop : Half)
  | writeRam
  | memoryAccessControl (payload : List Byte)
  | pixelFormat (payload : List Byte)
  | frameRateControl (payload : List Byte)
  | displayFunctionControl (payload : List Byte)
  | power1 (payload : List Byte)
  | power2 (payload : List Byte)
  | vcom1 (payload : List Byte)
  | vcom2 (payload : List Byte)
  | positiveGammaCorrection (payload : List Byte)
  | negativeGammaCorrection (payload : List Byte)
  deriving DecidableEq, Repr

end Sys2Proof
end

