-- ==== Sys2Proof/WellFormed.lean ====
section
/-! DEFINITION. Which instructions the encoding admits. A host operation's fields are checked when it runs, with a status
code (60_exceptions.md R143), so every one is well formed; a panel command has a payload of at most one transaction
(30_encoding.md R68) and window bounds in order (R65). -/

namespace Sys2Proof

/-- `ceiling` is the bus transaction ceiling `MAX_XFER` (R5): the longest payload one data transaction carries (R68). -/
def Instr.wellFormed (ceiling : Nat) : Instr → Bool
  | .xferBytes _ _ => true
  | .sendCmd _ => true
  | .sendData _ => true
  | .init => true
  | .fillAll _ => true
  | .fillRegion _ _ _ _ _ => true
  | .blit _ _ _ _ _ => true
  | .sendRegion _ _ _ _ => true
  | .sendAll => true
  | .drawText _ _ _ _ _ _ _ => true
  | .nop p => decide (p.length ≤ ceiling)
  | .sleepOut => true
  | .displayInversionOff p => decide (p.length ≤ ceiling)
  | .setGamma p => decide (p.length ≤ ceiling)
  | .displayOn => true
  | .columnAddr s e => decide (s.toNat ≤ e.toNat)
  | .pageAddr s e => decide (s.toNat ≤ e.toNat)
  | .writeRam => true
  | .memoryAccessControl p => decide (p.length ≤ ceiling)
  | .pixelFormat p => decide (p.length ≤ ceiling)
  | .frameRateControl p => decide (p.length ≤ ceiling)
  | .displayFunctionControl p => decide (p.length ≤ ceiling)
  | .power1 p => decide (p.length ≤ ceiling)
  | .power2 p => decide (p.length ≤ ceiling)
  | .vcom1 p => decide (p.length ≤ ceiling)
  | .vcom2 p => decide (p.length ≤ ceiling)
  | .positiveGammaCorrection p => decide (p.length ≤ ceiling)
  | .negativeGammaCorrection p => decide (p.length ≤ ceiling)

end Sys2Proof
end

