-- ==== Sys2Proof/Decode.lean ====
section
/-! DEFINITION. The two encodings of 30_encoding.md: the host command (R55 to R59) and the panel command on the wire
(R63, R65, R66, R68), the decoder of each, total and rejecting by name, and after them the encoder and the assembler's
argument words (R57, R58, R61). -/

namespace Sys2Proof

/-- `hi8(v) = v[15:8]` (00_scope.md R7). -/
def hi8 (v : Half) : Byte := v.extractLsb' 8 8

/-- `lo8(v) = v[7:0]` (R7). -/
def lo8 (v : Half) : Byte := v.extractLsb' 0 8

/-- `{hi, lo}`: the 16-bit value whose bytes are `hi` (more significant) and `lo` (R7). -/
def joinHalf (hi lo : Byte) : Half := hi ++ lo

/-- `w[15:0]`, the field R57 gives `x1`, `x2`, `x`, `iw`, `xc`, `n` and `color`. -/
def loHalf (w : Word) : Half := w.extractLsb' 0 16

/-- `w[31:16]`, the field R57 gives `y1`, `y2`, `y`, `ih`. -/
def hiHalf (w : Word) : Half := w.extractLsb' 16 16

/-- The packed coordinate word `{y, x}` of R58. -/
def packYX (y x : Half) : Word := y ++ x

/-- Why a word is no instruction. -/
inductive DecodeError where
  /-- A `GO` opcode outside R56 (R59). -/
  | reservedOpcode (opc : Byte)
  /-- A command byte outside the eighteen of R66 (R67). -/
  | unknownPanelByte (op : Byte)
  /-- A payload of a length that command does not take (R65, R81, R84, R87). -/
  | payloadLength (op : Byte) (n : Nat)
  deriving DecidableEq, Repr

/-- The words of one instruction in either format (30_encoding.md, first paragraph). -/
inductive Encoded where
  /-- A `GO` word and the eight argument registers it is started with (R55). -/
  | hostCmd (go : Word) (args : Vector Word 8)
  /-- A command byte and its payload on the wire (R63). -/
  | panelCmd (cmd : WireCmd)
  deriving DecidableEq, Repr

/-- The host operation that opcode `opc` starts on the argument words `a` (R56, R57, R58). Argument bits outside the
named fields are ignored (R57). -/
def decodeHost (opc : Byte) (a : Vector Word 8) : Except DecodeError Instr :=
  if opc = 0x01#8 then .ok (.xferBytes a[0] a[1])
  else if opc = 0x02#8 then .ok (.sendCmd (a[0].extractLsb' 0 8))
  else if opc = 0x03#8 then .ok (.sendData (a[0].extractLsb' 0 8))
  else if opc = 0x04#8 then .ok .init
  else if opc = 0x10#8 then .ok (.fillAll (loHalf a[0]))
  else if opc = 0x11#8 then
    .ok (.fillRegion (loHalf a[0]) (hiHalf a[0]) (loHalf a[1]) (hiHalf a[1]) (loHalf a[2]))
  else if opc = 0x12#8 then
    .ok (.blit (loHalf a[0]) (hiHalf a[0]) (loHalf a[1]) (hiHalf a[1]) a[2])
  else if opc = 0x20#8 then .ok (.sendRegion (loHalf a[0]) (hiHalf a[0]) (loHalf a[1]) (hiHalf a[1]))
  else if opc = 0x21#8 then .ok .sendAll
  else if opc = 0x30#8 then
    .ok (.drawText (loHalf a[0]) (hiHalf a[0]) a[1] (loHalf a[2]) (a[2].extractLsb' 16 8)
      (a[2].getLsbD 24) (loHalf a[3]))
  else .error (.reservedOpcode opc)

/-- The window bounds a four-byte payload carries, high byte first (R65). R65 gives the payload for `s <= e` only; that four
bytes with `s > e` decode too is the model's choice (DESIGN CHOICE, log 17). -/
def decodeBounds (make : Half → Half → Instr) (op : Byte) : List Byte → Except DecodeError Instr
  | [p0, p1, p2, p3] => .ok (make (joinHalf p0 p1) (joinHalf p2 p3))
  | p => .error (.payloadLength op p.length)

/-- A command that takes no payload of its own (R81, R84, R87). -/
def decodeBare (i : Instr) (op : Byte) : List Byte → Except DecodeError Instr
  | [] => .ok i
  | p => .error (.payloadLength op p.length)

/-- The panel command of a command byte and its payload (R66). -/
def decodePanel (c : WireCmd) : Except DecodeError Instr :=
  if c.op = 0x00#8 then .ok (.nop c.payload)
  else if c.op = 0x11#8 then decodeBare .sleepOut c.op c.payload
  else if c.op = 0x20#8 then .ok (.displayInversionOff c.payload)
  else if c.op = 0x26#8 then .ok (.setGamma c.payload)
  else if c.op = 0x29#8 then decodeBare .displayOn c.op c.payload
  else if c.op = 0x2A#8 then decodeBounds .columnAddr c.op c.payload
  else if c.op = 0x2B#8 then decodeBounds .pageAddr c.op c.payload
  else if c.op = 0x2C#8 then decodeBare .writeRam c.op c.payload
  else if c.op = 0x36#8 then .ok (.memoryAccessControl c.payload)
  else if c.op = 0x3A#8 then .ok (.pixelFormat c.payload)
  else if c.op = 0xB1#8 then .ok (.frameRateControl c.payload)
  else if c.op = 0xB6#8 then .ok (.displayFunctionControl c.payload)
  else if c.op = 0xC0#8 then .ok (.power1 c.payload)
  else if c.op = 0xC1#8 then .ok (.power2 c.payload)
  else if c.op = 0xC5#8 then .ok (.vcom1 c.payload)
  else if c.op = 0xC7#8 then .ok (.vcom2 c.payload)
  else if c.op = 0xE0#8 then .ok (.positiveGammaCorrection c.payload)
  else if c.op = 0xE1#8 then .ok (.negativeGammaCorrection c.payload)
  else .error (.unknownPanelByte c.op)

/-- The decoder of both formats. `GO[31:8]` is ignored (R55). -/
def decode : Encoded → Except DecodeError Instr
  | .hostCmd go args => decodeHost (go.extractLsb' 0 8) args
  | .panelCmd c => decodePanel c

/-- The payload of a COLUMN_ADDR or PAGE_ADDR command, `[hi8(s), lo8(s), hi8(e), lo8(e)]` (R65). -/
def boundBytes (start stop : Half) : List Byte := [hi8 start, lo8 start, hi8 stop, lo8 stop]

/-- The opcode or command byte of an instruction (R56, R66). -/
def opcodeOf : Instr → Byte
  | .xferBytes _ _ => 0x01#8
  | .sendCmd _ => 0x02#8
  | .sendData _ => 0x03#8
  | .init => 0x04#8
  | .fillAll _ => 0x10#8
  | .fillRegion _ _ _ _ _ => 0x11#8
  | .blit _ _ _ _ _ => 0x12#8
  | .sendRegion _ _ _ _ => 0x20#8
  | .sendAll => 0x21#8
  | .drawText _ _ _ _ _ _ _ => 0x30#8
  | .nop _ => 0x00#8
  | .sleepOut => 0x11#8
  | .displayInversionOff _ => 0x20#8
  | .setGamma _ => 0x26#8
  | .displayOn => 0x29#8
  | .columnAddr _ _ => 0x2A#8
  | .pageAddr _ _ => 0x2B#8
  | .writeRam => 0x2C#8
  | .memoryAccessControl _ => 0x36#8
  | .pixelFormat _ => 0x3A#8
  | .frameRateControl _ => 0xB1#8
  | .displayFunctionControl _ => 0xB6#8
  | .power1 _ => 0xC0#8
  | .power2 _ => 0xC1#8
  | .vcom1 _ => 0xC5#8
  | .vcom2 _ => 0xC7#8
  | .positiveGammaCorrection _ => 0xE0#8
  | .negativeGammaCorrection _ => 0xE1#8

/-- The argument words of an operation, `ARG[0]` first, each holding its fields packed as R58 says (R57, R61); a panel
command has none. -/
def argWords : Instr → List Word
  | .xferBytes addr len => [addr, len]
  | .sendCmd b => [b.setWidth 32]
  | .sendData b => [b.setWidth 32]
  | .fillAll color => [color.setWidth 32]
  | .fillRegion x1 y1 x2 y2 color => [packYX y1 x1, packYX y2 x2, color.setWidth 32]
  | .blit x y iw ih src => [packYX y x, packYX ih iw, src]
  | .sendRegion x1 y1 x2 y2 => [packYX y1 x1, packYX y2 x2]
  | .drawText xc y str n sp norm color =>
    [packYX y xc, str, (0#7 ++ BitVec.ofBool norm ++ sp ++ n : BitVec 32), color.setWidth 32]
  | .init | .sendAll | .nop _ | .sleepOut | .displayInversionOff _ | .setGamma _ | .displayOn
  | .columnAddr _ _ | .pageAddr _ _ | .writeRam | .memoryAccessControl _ | .pixelFormat _
  | .frameRateControl _ | .displayFunctionControl _ | .power1 _ | .power2 _ | .vcom1 _ | .vcom2 _
  | .positiveGammaCorrection _ | .negativeGammaCorrection _ => []

/-- The eight argument registers that hold the words `ws` from `ARG[0]` up and zero in the others. -/
def argVector (ws : List Word) : Vector Word 8 := Vector.ofFn fun n => ws.getD n.val 0#32

/-- The payload of a panel command; a host operation has none. -/
def payloadOf : Instr → List Byte
  | .nop p => p
  | .displayInversionOff p => p
  | .setGamma p => p
  | .columnAddr s e => boundBytes s e
  | .pageAddr s e => boundBytes s e
  | .memoryAccessControl p => p
  | .pixelFormat p => p
  | .frameRateControl p => p
  | .displayFunctionControl p => p
  | .power1 p => p
  | .power2 p => p
  | .vcom1 p => p
  | .vcom2 p => p
  | .positiveGammaCorrection p => p
  | .negativeGammaCorrection p => p
  | .sleepOut | .displayOn | .writeRam
  | .xferBytes _ _ | .sendCmd _ | .sendData _ | .init | .fillAll _ | .fillRegion _ _ _ _ _
  | .blit _ _ _ _ _ | .sendRegion _ _ _ _ | .sendAll | .drawText _ _ _ _ _ _ _ => []

/-- Is the instruction a host operation (format `host_cmd`), not a panel command? -/
def isHostOp : Instr → Bool
  | .xferBytes _ _ | .sendCmd _ | .sendData _ | .init | .fillAll _ | .fillRegion _ _ _ _ _
  | .blit _ _ _ _ _ | .sendRegion _ _ _ _ | .sendAll | .drawText _ _ _ _ _ _ _ => true
  | .nop _ | .sleepOut | .displayInversionOff _ | .setGamma _ | .displayOn
  | .columnAddr _ _ | .pageAddr _ _ | .writeRam | .memoryAccessControl _ | .pixelFormat _
  | .frameRateControl _ | .displayFunctionControl _ | .power1 _ | .power2 _ | .vcom1 _ | .vcom2 _
  | .positiveGammaCorrection _ | .negativeGammaCorrection _ => false

/-- The encoder: the words of an instruction in its own format, unused bits zero. -/
def encode (i : Instr) : Encoded :=
  if isHostOp i then .hostCmd ((opcodeOf i).setWidth 32) (argVector (argWords i))
  else .panelCmd ⟨opcodeOf i, payloadOf i⟩

/-- The argument registers in an instruction numbered as the opcode table numbers it: `GO` is the first word, so
`ARG[n]` is bits `32*(n+1)` to `32*(n+1)+31`. -/
def tableArgs (w : Nat) : Vector Word 8 := Vector.ofFn fun n => BitVec.ofNat 32 (w >>> (32 * (n.val + 1)))

/-- The panel command in the same numbering: the command byte is the first byte, the payload bytes count on from it.
A window command takes four payload bytes, SLEEP_OUT, DISPLAY_ON and WRITE_RAM none, the others as many whole bytes as
`nbits` gives beyond the first. -/
def tableCmd (nbits w : Nat) : WireCmd :=
  let op := BitVec.ofNat 8 w
  let n := if op = 0x2A#8 ∨ op = 0x2B#8 then 4
    else if op = 0x11#8 ∨ op = 0x29#8 ∨ op = 0x2C#8 then 0 else nbits / 8 - 1
  ⟨op, (List.range n).map fun k => BitVec.ofNat 8 (w >>> (8 * (k + 1)))⟩

/-- The instruction read from bits numbered as the opcode table numbers them. The table lists two formats whose first
bytes overlap in `0x11` and `0x20`; the host command is read first and a reserved opcode is read as a panel command
(DESIGN CHOICE, log 1). -/
def decodeTableWord (nbits w : Nat) : Option Instr :=
  match decode (.hostCmd (BitVec.ofNat 32 w) (tableArgs w)) with
  | .ok i => some i
  | .error _ =>
    match decode (.panelCmd (tableCmd nbits w)) with
    | .ok i => some i
    | .error _ => none

end Sys2Proof
end

