-- ==== Sys2Proof/Config.lean ====
section
/-! DEFINITION. What an implementation fixes: the source's constants, the parameters of 00_scope.md R5 as one structure,
the reference parameters of R5 and 95_test_vectors.md, and the free values (the spec's draws), which have no body. -/

namespace Sys2Proof

namespace Config

/-- `W`, framebuffer width in pixels (R5). -/
abbrev W : Nat := 240
/-- `H`, framebuffer height in pixels (R5). -/
abbrev H : Nat := 320
/-- `BPP`, bits per pixel (R5). -/
abbrev BPP : Nat := 16
/-- `NPIX = W*H` (R5). -/
abbrev NPIX : Nat := 76800
/-- `FB_BYTES = W*H*2` (R5). -/
abbrev FB_BYTES : Nat := 153600
/-- `QDEPTH`, the bus queue depth; no rule depends on it (R25, R177). -/
abbrev QDEPTH : Nat := 7
/-- Host memory holds the addresses below `2^AW`, `AW = 32` (R5, R39). -/
abbrev HMEM_SIZE : Nat := 4294967296
/-- `DARK_REF` (R130). -/
def DARK_REF : Half := 0x0000#16
/-- `LIGHT_REF = WHITE` (R130). -/
def LIGHT_REF : Half := 0xFFFF#16
/-- Colour constants of R12. -/
def BLACK : Half := 0x0000#16
def WHITE : Half := 0xFFFF#16
def RED : Half := 0xF800#16
def GREEN : Half := 0x07E0#16
def BLUE : Half := 0x001F#16

end Config

/-- The metrics of one character: its code, `XPOS` and `WID` (45_glyph_rasterizer.md R126). -/
structure Glyph where
  code : Byte
  xpos : Nat
  wid : Nat
  deriving DecidableEq, Repr, Inhabited

/-- The font asset (R126): `BITMAP` (with `FONT.BYTES` its length), `BW`, `FH`, `BASE`, the metrics of each code of
`DOMAIN`, and `DIGIT_W`. -/
structure Font where
  bitmap : List Byte
  bw : Nat
  fh : Nat
  base : Nat
  glyphs : List Glyph
  digitW : Nat
  deriving DecidableEq, Repr, Inhabited

/-- The parameters the model takes (R5). They are constant: no step changes them. -/
structure Params where
  /-- `MAX_XFER` -/
  maxXfer : Nat
  /-- `SCRATCH_CAP` -/
  scratchCap : Nat
  /-- `ALLOC_DRAW` -/
  allocDraw : Bool
  /-- `X_OFF` -/
  xOff : Nat
  /-- `Y_OFF` -/
  yOff : Nat
  /-- `PANEL_ID`; no rule reads it (R5, R26) -/
  panelId : Nat
  /-- `INIT_TABLE` (R101) -/
  initTable : List WireCmd
  /-- the 0x3A payloads that select 16-bit RGB565 and the 0x36 payloads that select the orientation of R88 (R101 d): the
  byte values are not in the source (91_not_in_source.md N21, N31), so they are parameters (log 10) -/
  rgb565 : List (List Byte)
  orientation : List (List Byte)
  /-- `T_RST_LOW`, `T_RST_SETTLE`, `T_SLPOUT` in milliseconds, lower bounds (R156) -/
  tRstLow : Nat
  tRstSettle : Nat
  tSlpout : Nat
  /-- `MAX_CHARS` -/
  maxChars : Nat
  /-- `FONT` -/
  font : Font
  deriving DecidableEq, Repr, Inhabited

/-- What the bus answers to one transaction (40_transport.md R72): OK, or FAIL after the panel received the first
`delivered` bytes (60_exceptions.md R164). -/
inductive BusAnswer where
  | ok
  | fail (delivered : Nat)
  deriving DecidableEq, Repr, Inhabited

/-- Where a reset cuts a running operation (70_reset_and_hazards.md R166): after `events` of its events, with `bytes` bytes
of the transaction then in flight delivered. -/
structure Cut where
  events : Nat
  bytes : Nat
  deriving DecidableEq, Repr, Inhabited

/-- The agent that moves next while an operation runs (R6). -/
inductive Agent where
  | host
  | sequencer
  deriving DecidableEq, Repr, Inhabited

namespace Config

/-- Test font TF of 95_test_vectors.md section 2.8. -/
def fontTF : Font where
  bitmap := [255, 128, 0, 255, 0, 64, 0, 0, 0, 255, 128, 255, 255, 255, 0, 0]
  bw := 8
  fh := 2
  base := 0
  glyphs := [⟨65, 0, 3⟩, ⟨49, 3, 1⟩, ⟨50, 4, 2⟩]
  digitW := 3

/-- The reference parameters: R5's reference values; for `INIT_TABLE` and `FONT`, which have none, the table of vector
V-IN1 and the test font of 95_test_vectors.md; 0 for `PANEL_ID` and `T_RST_LOW`; no payload of R101 (d) (DESIGN CHOICE,
log 4, log 10). -/
def reference : Params where
  maxXfer := 4096
  scratchCap := 153600
  allocDraw := false
  xOff := 0
  yOff := 0
  panelId := 0
  initTable := []
  rgb565 := []
  orientation := []
  tRstLow := 0
  tRstSettle := 10
  tSlpout := 120
  maxChars := 32
  font := fontTF

/-- Free value: the framebuffer byte at an address after a reset (R34, R168); the first argument numbers the reset. -/
opaque fbDraw : Nat → Nat → Byte

/-- Free value: a scratch byte nothing has written in the running operation (R28). -/
opaque scrDraw : Nat → Nat → Byte

/-- Free value: a host-memory byte the model does not hold (R39); the first argument numbers the operation. -/
opaque hostDraw : Nat → Nat → Byte

/-- Free value: the bus's answer to a transaction (R72). -/
opaque busDraw : Nat → BusAnswer

/-- Free value: `LoadOK` (R140). -/
opaque loadDraw : Nat → Bool

/-- Free value: `AllocFails`, with `ALLOC_DRAW` only (R114). -/
opaque allocDraw : Nat → Bool

/-- Free value: which agent moves while an operation runs (R6, R19). -/
opaque turnDraw : Nat → Agent

/-- Free value: where a reset cuts the operation it abandons (R166, U36). -/
opaque cutDraw : Nat → Cut

/-- Free value: what a read returns whose value the spec leaves unspecified (R31, R166). -/
opaque readDraw : Nat → Word

/-- Free values: the panel observer's words where they are unknown or unspecified (R162, R163, R168). -/
opaque panelHalf : Nat → Nat → Half
opaque panelCur : Nat → Option Byte
opaque panelParams : Nat → List Byte
opaque panelHeld : Nat → Option Byte
opaque panelCursor : Nat → Half × Half
opaque gramDraw : Nat → Nat → Half

end Config

end Sys2Proof
end

