-- ==== Sys2Proof/Machine/State.lean ====
section
/-! DEFINITION. The state of the machine as plain data (10_state.md R13, 60_exceptions.md R162), the reasons a step can
stop, and the state right after reset (R34). -/

namespace Sys2Proof.Machine

/-- Sparse data by key: pairs with strictly rising keys (`Memory.wf`). An unlisted key has not been written. -/
abbrev Memory (β : Type) := List (Nat × β)

/-- A memory of bytes: a list of `Host.Cell`. -/
abbrev Mem := Memory (BitVec 8)

/-- The named waits of R156. -/
inductive WaitName where
  | rstLow
  | rstSettle
  | slpout
  deriving DecidableEq, Repr

/-- The events of `TRACE` (R29): `Txn(dc, L, r)` with `ok` for `r = OK`, `Line(RST, v)`, `Wait(name, t)`. -/
inductive Event where
  | txn (dc : Bool) (bytes : List Byte) (ok : Bool)
  | rstLine (v : Bool)
  | wait (name : WaitName) (t : Nat)
  deriving DecidableEq, Repr

/-- An entry of the character array `CI` (R30, 45_glyph_rasterizer.md R134). -/
structure CharInfo where
  code : Byte
  xpos : Nat
  w : Nat
  xoff : Nat
  adv : Nat
  deriving DecidableEq, Repr

/-- The reference observer of the panel (R162). `epoch` is the model's own: it names the free values that unlisted
`GRAM` cells read as (log 14, log 15). -/
structure Panel where
  sc : Half
  ec : Half
  sp : Half
  ep : Half
  cur : Option Byte
  params : List Byte
  cx : Nat
  cy : Nat
  held : Option Byte
  gram : Memory Half
  epoch : Nat
  deriving DecidableEq, Repr

/-- The draws (R9 "draw"): for each kind a tape of the values to come, next first, and the number of free values already
taken. A draw from an empty tape is a free value of Config (log 5). -/
structure Draws where
  bus : List BusAnswer
  loads : List Bool
  allocs : List Bool
  turns : List Agent
  cuts : List Cut
  words : List Word
  count : Nat
  deriving DecidableEq, Repr

/-- What the host and the platform do, one line each (30_encoding.md R60, 70_reset_and_hazards.md R166): a write or a
read of `width` bytes at `BLOCK_BASE + offset`, a `POLL` line, a change of one byte of host memory, and the two edges of
the block's reset input. -/
inductive HostOp where
  | write (offset width : Nat) (value : Word)
  | read (offset width : Nat)
  | poll
  | store (addr : Word) (value : Byte)
  | assertReset
  | releaseReset
  deriving DecidableEq, Repr

/-- The machine. The first group is the block's state of R13 with the trace, then the panel observer (R162) and the
reset input (R166), then the model's own fields. -/
structure State where
  /-- `ARG[0..7]` (R14) -/
  args : Vector Word 8
  /-- `BUSY` (R20) -/
  busy : Bool
  /-- `CUR_OP` (R20) -/
  curOp : Byte
  /-- `INIT_DONE` (R21) -/
  initDone : Bool
  /-- `FONT_READY` (R22) -/
  fontReady : Bool
  /-- `CODE` (R23) -/
  code : Byte
  /-- `SUB` (R23) -/
  sub : Byte
  /-- `LAST_OPC` (R23) -/
  lastOpc : Byte
  /-- `ERR_INFO` (R17) -/
  errInfo : Word
  /-- `DC`, 1 = data (R24) -/
  dc : Bool
  /-- `CS`, 1 = deasserted (R24) -/
  cs : Bool
  /-- `RST`, 1 = released (R24) -/
  rst : Bool
  /-- `INFLIGHT` (R25) -/
  inflight : Nat
  /-- `FBB` (R27) -/
  fbb : Mem
  /-- `SCR` (R28) -/
  scr : Mem
  /-- `SCR_HELD` (R28) -/
  scrHeld : Bool
  /-- `CI` (R30) -/
  ci : List CharInfo
  /-- `TRACE` (R29) -/
  trace : List Event
  /-- the panel observer (R162) -/
  panel : Panel
  /-- the block's reset input, true while asserted (R166) -/
  resetIn : Bool
  /-- the parameters of R5, constant (the model's own field, log 4) -/
  cfg : Params
  /-- the panel commands the running INIT has still to send (the model's own field, log 17) -/
  pending : List WireCmd
  /-- the draws (the model's own field, log 5) -/
  draws : Draws
  /-- the number of block resets so far (the model's own field, log 6) -/
  era : Nat
  /-- the number of operations started so far (the model's own field, log 9) -/
  ops : Nat
  /-- the host's accesses still to come, oldest first (the model's own field, log 2) -/
  host : List HostOp
  /-- the values the host's reads returned, oldest first (the model's own field) -/
  reads : List Word
  /-- the host-memory bytes the host has placed (the model's own field, log 9) -/
  hmem : Mem
  /-- which argument words the host has written since reset (R161; the model's own field, log 32) -/
  argsWritten : Vector Bool 8
  /-- an operation has been started and the status of its end not been read (R151, R161; the model's own field, log 32) -/
  statusUnread : Bool
  /-- the host's last line started an operation (R160; the model's own field, log 33) -/
  awaiting : Bool
  deriving DecidableEq, Repr

/-- Why the machine stops with a fault. -/
inductive Fault where
  /-- Raised by a host access (Machine/HostBus.lean) to an offset outside the block's register space, hole and window,
  which the spec's map does not hold (R47). Safe: the run stops. -/
  | outsideBlock (offset : Nat)
  deriving DecidableEq, Repr

/-- Why a step has no meaning. Each is a case the spec tells a model to refuse; each is safe: a refused run proves nothing. -/
inductive Refusal where
  /-- An arm of exec without a meaning; no arm of this model is one. Safe. -/
  | notModelled (mnemonic : String)
  /-- Raised by a register access (Machine/HostBus.lean) of a width or alignment outside the contract (R18, R44), and by a read of
  the hole or the window in a width no rule gives a value for (R31, R47; log 21). Safe. -/
  | accessForm (offset width : Nat)
  /-- Raised by XFER_BYTES, BLIT and DRAW_TEXT for a host-memory range that passes `2^32` (R39, U11). Safe. -/
  | hostRange (addr n : Nat)
  /-- Raised by a host store to a byte the running operation names (R175, U10). Safe. -/
  | hostMemoryChanged (addr : Nat)
  /-- Raised by a host write of `GO` on an idle block when the status of the last operation has not been read (R151, R161,
  R174). Safe. -/
  | statusUnread
  /-- Raised by a host write of `GO` on an idle block when an argument word that the operation reads has not been written
  since reset (R161). Safe. -/
  | argumentUnwritten (opcode : Byte)
  /-- Raised by DRAW_TEXT when the loaded font is not well formed (R126, U12). Safe. -/
  | fontIllFormed
  /-- Raised by INIT for a table that breaks R101 and whose INIT no rule or vector gives (U13; log 10). Safe. -/
  | initTableIllFormed
  /-- Raised by SEND_REGION and SEND_ALL when `MAX_XFER < 3` (R117, U14). Safe. -/
  | ceilingTooSmall
  /-- Raised by SEND_REGION and SEND_ALL when an offset parameter breaks the constraint of R70. Safe. -/
  | offsetTooLarge
  /-- Raised by the step when a pending entry is no panel command of R66; no reachable state holds one. Safe. -/
  | pendingUndecodable (cmd : WireCmd)
  deriving DecidableEq, Repr

/-- The observer in an unknown state: every register and every `GRAM` cell a free value named by `epoch` (R162, R168). -/
def Panel.unknown (epoch : Nat) : Panel where
  sc := Config.panelHalf epoch 0
  ec := Config.panelHalf epoch 1
  sp := Config.panelHalf epoch 2
  ep := Config.panelHalf epoch 3
  cur := Config.panelCur epoch
  params := Config.panelParams epoch
  cx := (Config.panelCursor epoch).1.toNat
  cy := (Config.panelCursor epoch).2.toNat
  held := Config.panelHeld epoch
  gram := []
  epoch := epoch

/-- No answer is fixed in advance: every draw is a free value. -/
def Draws.free : Draws where
  bus := []
  loads := []
  allocs := []
  turns := []
  cuts := []
  words := []
  count := 0

/-- The machine right after reset (R34); the model's own fields as log 4, log 31, log 32 and log 33 say. -/
def State.reset : State where
  args := Vector.replicate 8 0#32
  busy := false
  curOp := 0#8
  initDone := false
  fontReady := false
  code := 0#8
  sub := 0#8
  lastOpc := 0#8
  errInfo := 0#32
  dc := true
  cs := true
  rst := true
  inflight := 0
  fbb := []
  scr := []
  scrHeld := false
  ci := []
  trace := []
  panel := Panel.unknown 0
  resetIn := false
  cfg := Config.reference
  pending := []
  draws := Draws.free
  era := 0
  ops := 0
  host := []
  reads := []
  hmem := []
  argsWritten := Vector.replicate 8 false
  statusUnread := false
  awaiting := false

end Sys2Proof.Machine
end

