-- ==== Sys2Proof/Machine/Memory.lean ====
section
/-! DEFINITION. Sparse memories in canonical form, and the one lookup, one update and one run read that every memory of
the machine goes through: framebuffer, scratch, host memory and the observer's `GRAM`. -/

namespace Sys2Proof.Machine

/-- The canonical form: keys strictly rise. An unlisted key reads as "not written" (`none`), which is no value a write
stores, so no entry can equal it (log 6). -/
def Memory.wf {β : Type} : Memory β → Bool
  | [] => true
  | [_] => true
  | c :: d :: m => decide (c.1 < d.1) && Memory.wf (d :: m)

/-- The value written at key `a`, `none` where nothing was written. Keys rise, so the search stops at the first key not
below `a`. -/
def Memory.get? {β : Type} : Memory β → Nat → Option β
  | [], _ => none
  | (x, b) :: m, a => if x < a then Memory.get? m a else if x = a then some b else none

/-- Puts `b` at key `a`, then continues with `k` on the entries above `a`. -/
def Memory.put {β : Type} (a : Nat) (b : β) (k : Memory β → Memory β) : Memory β → Memory β
  | [] => (a, b) :: k []
  | (x, c) :: m =>
    if x < a then (x, c) :: Memory.put a b k m
    else if x = a then (a, b) :: k m
    else (a, b) :: k ((x, c) :: m)

/-- Writes every cell of `new` (keys rising) over `old`, in one pass. -/
def Memory.overlay {β : Type} : Memory β → Memory β → Memory β
  | [], old => old
  | c :: new, old => Memory.put c.1 c.2 (Memory.overlay new) old

/-- Writes one cell. -/
def Memory.set {β : Type} (m : Memory β) (a : Nat) (b : β) : Memory β := Memory.overlay [(a, b)] m

/-- The entries with keys of at least `a`. -/
def Memory.above {β : Type} (m : Memory β) (a : Nat) : Memory β := m.dropWhile fun c => decide (c.1 < a)

/-- The `n` values at `a, a+1, ..., a+n-1` in one pass, an unwritten key reading as `free` gives it. -/
def Memory.run {β : Type} (free : Nat → β) : Nat → Nat → Memory β → List β
  | 0, _, _ => []
  | n + 1, a, m =>
    match Memory.above m a with
    | [] => free a :: Memory.run free n (a + 1) []
    | (x, b) :: rest =>
      if x = a then b :: Memory.run free n (a + 1) rest
      else free a :: Memory.run free n (a + 1) ((x, b) :: rest)

/-- The cells that put the list `L` at `a, a+1, ...`. -/
def cellsFrom {β : Type} (a : Nat) : List β → Memory β
  | [] => []
  | b :: L => (a, b) :: cellsFrom (a + 1) L

end Sys2Proof.Machine
end

