-- ==== Sys2Proof/Machine/Observer.lean ====
section
/-! DEFINITION. The panel's reference observer (60_exceptions.md R162 to R164, general knowledge in the spec's own
marking): what a command byte and a run of data bytes do to it. -/

namespace Sys2Proof.Machine

/-- The `GRAM` key of a column and a page; columns are below `2^16`, so rising keys are row-major order. -/
def gramKey (col page : Nat) : Nat := page * 65536 + col

/-- `GRAM[col][page]` (R162); a cell no pixel was written to holds a free value. -/
def Panel.pixel (p : Panel) (col page : Nat) : Half :=
  (Memory.get? p.gram (gramKey col page)).getD (Config.gramDraw p.epoch (gramKey col page))

/-- A command byte (R163): `CUR` changes, the parameter buffer empties, a pending high byte is dropped, and WRITE_RAM
puts the cursor at the window's start. -/
def Panel.command (p : Panel) (b : Byte) : Panel :=
  let q := { p with cur := some b, params := [], held := none }
  if b = 0x2C#8 then { q with cx := p.sc.toNat, cy := p.sp.toNat } else q

/-- The buffer after a parameter byte, and the two bounds once it is the fourth (R163). -/
def boundsOf (params : List Byte) : Option (Half × Half) :=
  match params with
  | [p0, p1, p2, p3] => some (joinHalf p0 p1, joinHalf p2 p3)
  | _ => none

/-- A parameter byte of COLUMN_ADDR (R163). -/
def Panel.columnByte (p : Panel) (d : Byte) : Panel :=
  let q := { p with params := p.params ++ [d] }
  match boundsOf q.params with
  | some b => { q with sc := b.1, ec := b.2 }
  | none => q

/-- A parameter byte of PAGE_ADDR (R163). -/
def Panel.pageByte (p : Panel) (d : Byte) : Panel :=
  let q := { p with params := p.params ++ [d] }
  match boundsOf q.params with
  | some b => { q with sp := b.1, ep := b.2 }
  | none => q

/-- Where a run of pixel bytes leaves the RAM write: the pixels it stored, the cursor, the pending high byte, and
whether a byte came after the last page of the window. -/
structure PixelRun where
  writes : Memory Half
  cx : Nat
  cy : Nat
  held : Option Byte
  past : Bool
  deriving DecidableEq, Repr

/-- The cursor after one pixel (R163): the next column, or the first column of the next page after `EC`. -/
def cursorNext (sc ec cx cy : Nat) : Nat × Nat := if cx + 1 > ec then (sc, cy + 1) else (cx + 1, cy)

/-- A run of data bytes after WRITE_RAM (R163): the first byte of a pair is held, the second stores the pixel
`{held, d}` at the cursor, which then moves on. A byte that comes when `cy > EP` ends the run: its effect is
unspecified (U22). -/
def pixelRun (sc ec ep : Nat) : List Byte → Nat → Nat → Option Byte → PixelRun
  | [], cx, cy, held => ⟨[], cx, cy, held, false⟩
  | d :: L, cx, cy, held =>
    if cy > ep then ⟨[], cx, cy, held, true⟩
    else match held with
      | none => pixelRun sc ec ep L cx cy (some d)
      | some h =>
        let r := pixelRun sc ec ep L (cursorNext sc ec cx cy).1 (cursorNext sc ec cx cy).2 none
        { r with writes := (gramKey cx cy, joinHalf h d) :: r.writes }

/-- A run of pixel bytes. Where it passes the window's end the whole observer is unspecified: every register and cell
becomes a free value (log 14). -/
def Panel.pixels (p : Panel) (L : List Byte) : Panel :=
  let r := pixelRun p.sc.toNat p.ec.toNat p.ep.toNat L p.cx p.cy p.held
  if r.past then Panel.unknown (p.epoch + 1)
  else { p with cx := r.cx, cy := r.cy, held := r.held, gram := Memory.overlay r.writes p.gram }

/-- A run of data bytes (R163), read by the current command; the payload of another command changes nothing. -/
def Panel.data (p : Panel) (L : List Byte) : Panel :=
  if p.cur = some 0x2A#8 then L.foldl Panel.columnByte p
  else if p.cur = some 0x2B#8 then L.foldl Panel.pageByte p
  else if p.cur = some 0x2C#8 then p.pixels L
  else p

/-- The bytes of one transaction reach the panel with the data/command line at `dc` (R69, R163). -/
def Panel.receive (p : Panel) (dc : Bool) (L : List Byte) : Panel :=
  if dc then p.data L else L.foldl Panel.command p

/-- What a transaction of `L` delivers: all of it when OK, the first bytes the answer names when FAIL (R163, R164). -/
def delivered (a : BusAnswer) (L : List Byte) : List Byte :=
  match a with
  | .ok => L
  | .fail n => L.take n

end Sys2Proof.Machine
end

