-- ==== Sys2Proof/Machine/Flags.lean ====
section
/-! DEFINITION. The status codes of 60_exceptions.md R143 and the `STATUS` word of 10_state.md R16. -/

namespace Sys2Proof.Machine

/-- An error value `Err(code, sub, info)` (00_scope.md R9). -/
structure Err where
  code : Byte
  sub : Byte
  info : Word
  deriving DecidableEq, Repr

/-- `CODE` values (R143). -/
abbrev CODE_OK : Byte := 0#8
abbrev CODE_PROTOCOL : Byte := 1#8
abbrev CODE_BOUNDS : Byte := 2#8
abbrev CODE_RESOURCE : Byte := 3#8
/-- Reserved; no operation raises it (R145). -/
abbrev CODE_BINDING : Byte := 4#8
abbrev CODE_FONT : Byte := 5#8
abbrev CODE_ILLEGAL_OP : Byte := 6#8

/-- The errors of R143, each with its subcause. -/
def errZeroLength : Err := ⟨CODE_PROTOCOL, 1#8, 0#32⟩
def errBusFail : Err := ⟨CODE_PROTOCOL, 2#8, 0#32⟩
def errOversize : Err := ⟨CODE_PROTOCOL, 3#8, 0#32⟩
def errInverted : Err := ⟨CODE_BOUNDS, 1#8, 0#32⟩
def errOutOfBounds : Err := ⟨CODE_BOUNDS, 2#8, 0#32⟩
def errEmpty : Err := ⟨CODE_BOUNDS, 3#8, 0#32⟩
def errTextCapacity : Err := ⟨CODE_BOUNDS, 4#8, 0#32⟩
def errUnknownChar : Err := ⟨CODE_BOUNDS, 5#8, 0#32⟩
/-- `ERR_INFO` is the requested scratch size (R17, R114). -/
def errResource (size : Nat) : Err := ⟨CODE_RESOURCE, 0#8, BitVec.ofNat 32 size⟩
def errFont : Err := ⟨CODE_FONT, 0#8, 0#32⟩
def errIllegalOp : Err := ⟨CODE_ILLEGAL_OP, 0#8, 0#32⟩

/-- The pairs of `CODE` and `SUB` that R143 lists. -/
def statusPairs : List (Byte × Byte) :=
  [(0#8, 0#8), (1#8, 1#8), (1#8, 2#8), (1#8, 3#8), (2#8, 1#8), (2#8, 2#8), (2#8, 3#8), (2#8, 4#8),
   (2#8, 5#8), (3#8, 0#8), (5#8, 0#8), (6#8, 0#8)]

/-- The `STATUS` word (R16): LAST_OPC 31:24, SUB 23:16, CODE 15:8, reserved 7:6 zero, CS 5, RST 4, DC 3, FONT_READY 2,
INIT_DONE 1, BUSY 0. -/
def statusWord (s : State) : Word :=
  (s.lastOpc ++ s.sub ++ s.code ++ 0#2 ++ BitVec.ofBool s.cs ++ BitVec.ofBool s.rst ++ BitVec.ofBool s.dc
    ++ BitVec.ofBool s.fontReady ++ BitVec.ofBool s.initDone ++ BitVec.ofBool s.busy : BitVec 32)

end Sys2Proof.Machine
end

