-- ==== Sys2Proof/Machine/Operands.lean ====
section
/-! DEFINITION. Everything the operations read and compute their operands with: the byte-order converter and pixel layout
(20_memory.md R38 to R42), rectangles (42_framebuffer.md R103, R104), chunk plans (43_region_transmission.md R116, R117),
the font asset, the combiner and the text layout (45_glyph_rasterizer.md R126 to R136), and host-memory reads (R39). -/

namespace Sys2Proof.Machine

/-- `ceil_div(a, b) = (a + b - 1) // b` (00_scope.md R8). -/
def ceilDiv (a b : Nat) : Nat := (a + b - 1) / b

/-! ## Colours and pixels -/

/-- `Conv(c) = {c[7:0], c[15:8]}` (R41). -/
def conv (c : Half) : Half := joinHalf (lo8 c) (hi8 c)

/-- Framebuffer byte `a`: the last byte written there, or its reset draw (R27, R168). -/
def fbByte (s : State) (a : Nat) : Byte := (Memory.get? s.fbb a).getD (Config.fbDraw s.era a)

/-- `LoadPixel(i) = {FBB[2i], FBB[2i+1]}` (R40). -/
def loadPixel (s : State) (i : Nat) : Half := joinHalf (fbByte s (2 * i)) (fbByte s (2 * i + 1))

/-- `FB16[i] = {FBB[2i+1], FBB[2i]}`, the pixel seen as a native little-endian word (R40). -/
def nativePixel (s : State) (i : Nat) : Half := joinHalf (fbByte s (2 * i + 1)) (fbByte s (2 * i))

/-- The bytes `FBB[a .. a+n)`. -/
def fbRun (s : State) (a n : Nat) : List Byte := Memory.run (Config.fbDraw s.era) n a s.fbb

/-- Scratch byte `a`; one the running operation has not written is a free value (R28). -/
def scrByte (s : State) (a : Nat) : Byte := (Memory.get? s.scr a).getD (Config.scrDraw s.ops a)

/-- The bytes `SCR[a .. a+n)`. -/
def scrRun (s : State) (a n : Nat) : List Byte := Memory.run (Config.scrDraw s.ops) n a s.scr

/-- The two framebuffer cells `StorePixel(i, c)` writes: `FBB[2i] <- hi8(c)`, `FBB[2i+1] <- lo8(c)` (R40). -/
def pixelCells (px : Nat × Half) : Mem := [(2 * px.1, hi8 px.2), (2 * px.1 + 1, lo8 px.2)]

/-- The cells of a list of pixels. -/
def pixelsCells (ps : List (Nat × Half)) : Mem := ps.flatMap pixelCells

/-- The serial bits of a byte list, each byte most significant bit first (R43). -/
def wireBits (L : List Byte) : List Bool := L.flatMap fun b => (List.range 8).map fun k => b.getMsbD k

/-! ## Host memory -/

/-- The host byte at `a`: what the host has placed there, or a free value of this operation (R39). -/
def hostByte (s : State) (a : Nat) : Byte := (Memory.get? s.hmem a).getD (Config.hostDraw s.ops a)

/-- `MemRead(addr, n)` (R39). -/
def memRead (s : State) (addr n : Nat) : List Byte := Memory.run (Config.hostDraw s.ops) n addr s.hmem

/-- Does `addr .. addr+n-1` stay inside host memory (R39)? -/
def hostRangeOk (addr n : Nat) : Bool := decide (addr + n ≤ Config.HMEM_SIZE)

/-- Consecutive byte pairs as native little-endian 16-bit values: `MemRead16` at each even distance (R39). -/
def pairsLE : List Byte → List Half
  | b0 :: b1 :: L => joinHalf b1 b0 :: pairsLE L
  | _ => []

/-! ## Rectangles -/

/-- `CheckRect` (R103): INVERTED is reported before OUT_OF_BOUNDS. -/
def checkRect (x1 y1 x2 y2 : Nat) : Option Err :=
  if x1 > x2 ∨ y1 > y2 then some errInverted
  else if x2 > Config.W ∨ y2 > Config.H then some errOutOfBounds
  else none

/-- `Pix(x1, y1, x2, y2)` in row-major order (R104). -/
def pix (x1 y1 x2 y2 : Nat) : List Nat :=
  (List.range' y1 (y2 - y1)).flatMap fun y => (List.range' x1 (x2 - x1)).map fun x => y * Config.W + x

/-- Is the rectangle the full frame (R112)? -/
def isFullFrame (x1 y1 x2 y2 : Nat) : Bool :=
  decide (x1 = 0) && decide (y1 = 0) && decide (x2 = Config.W) && decide (y2 = Config.H)

/-- `Packed(x1, y1, x2, y2)` (R113), read row by row. -/
def packed (s : State) (x1 y1 x2 y2 : Nat) : List Byte :=
  (List.range' y1 (y2 - y1)).flatMap fun y => fbRun s (2 * (y * Config.W + x1)) (2 * (x2 - x1))

/-! ## Chunk plans: start and length in bytes of each chunk -/

/-- `N_FULL` for a ceiling: the least `n >= 1` dividing `NPIX` with `2*NPIX/n <= MAX_XFER` (R116). -/
def nFull (maxXfer : Nat) : Nat :=
  ((List.range' 1 Config.NPIX).find? fun n =>
    decide (Config.NPIX % n = 0) && decide (2 * Config.NPIX / n ≤ maxXfer)).getD 1

/-- The full-frame plan: `N_FULL` chunks of `CF = FB_BYTES / N_FULL` bytes (R116). -/
def fullPlan (maxXfer : Nat) : List (Nat × Nat) :=
  let cf := Config.FB_BYTES / nFull maxXfer
  (List.range (nFull maxXfer)).map fun k => (k * cf, cf)

/-- `PMAX = (MAX_XFER - 1) // 2` (R117). -/
def pMax (maxXfer : Nat) : Nat := (maxXfer - 1) / 2

/-- The sub-region plan for `P` pixels: chunk `k` is bytes `2*k*PMAX` to `2*min((k+1)*PMAX, P)` (R117). -/
def subPlan (maxXfer p : Nat) : List (Nat × Nat) :=
  (List.range (ceilDiv p (pMax maxXfer))).map fun k =>
    (2 * k * pMax maxXfer, 2 * min ((k + 1) * pMax maxXfer) p - 2 * k * pMax maxXfer)

/-! ## The font asset -/

/-- The metrics of a code, `none` outside `DOMAIN` (R126). -/
def glyphOf (f : Font) (c : Byte) : Option Glyph := f.glyphs.find? fun g => g.code == c

/-- Is the code a digit, 48 to 57 (R134)? -/
def isDigit (c : Byte) : Bool := decide (48 ≤ c.toNat) && decide (c.toNat ≤ 57)

/-- Well-formedness of the font (R126). -/
def fontWf (f : Font) : Bool :=
  decide (f.base + f.fh * f.bw ≤ f.bitmap.length)
    && f.glyphs.all fun g =>
      decide (g.xpos + g.wid ≤ f.bw) && (!isDigit g.code || decide (g.wid ≤ f.digitW))

/-- `FontShade` for the glyph whose first column is `xpos` (R127). -/
def fontShade (f : Font) (xpos gx gy : Nat) : Byte := f.bitmap.getD (f.base + gy * f.bw + xpos + gx) 0#8

/-! ## The combiner -/

/-- `Rch`, `Gch`, `Bch` (R129, R64). -/
def rch (c : Half) : Nat := (c.extractLsb' 11 5).toNat
def gch (c : Half) : Nat := (c.extractLsb' 5 6).toNat
def bch (c : Half) : Nat := (c.extractLsb' 0 5).toNat

/-- `Pack565(r, g, b) = r*2048 + g*32 + b` (R129). -/
def pack565 (r g b : Nat) : Half := BitVec.ofNat 16 (r * 2048 + g * 32 + b)

/-- `Scale(ch, k) = (ch * k) // 255` (R131). -/
def scale (ch k : Nat) : Nat := ch * k / 255

/-- The three channels of `base` scaled by `k` (R132). -/
def scaleColor (base : Half) (k : Nat) : Half :=
  pack565 (scale (rch base) k) (scale (gch base) k) (scale (bch base) k)

/-- `Combine(s, tc)`, `none` for KEEP (R132). -/
def combine (shade : Byte) (tc : Half) : Option Half :=
  if shade = 0#8 then none
  else if shade = 255#8 then some tc
  else if tc = Config.DARK_REF then some (scaleColor Config.LIGHT_REF (255 - shade.toNat))
  else some (scaleColor tc shade.toNat)

/-! ## Text layout -/

/-- The character info of a code with metrics (R134). -/
def charInfoOf (f : Font) (norm : Bool) (g : Glyph) : CharInfo :=
  if norm && isDigit g.code then
    { code := g.code, xpos := g.xpos, w := g.wid, xoff := ceilDiv (f.digitW - g.wid) 2, adv := f.digitW }
  else { code := g.code, xpos := g.xpos, w := g.wid, xoff := 0, adv := g.wid }

/-- `CI` of a string, `none` when a code is outside `DOMAIN` (R134, R138). -/
def charInfos (f : Font) (norm : Bool) : List Byte → Option (List CharInfo)
  | [] => some []
  | c :: cs =>
    match glyphOf f c, charInfos f norm cs with
    | some g, some ci => some (charInfoOf f norm g :: ci)
    | _, _ => none

/-- `TW = Σ adv_j + sp * (n - 1)` (R135). -/
def textWidth (ci : List CharInfo) (sp : Nat) : Nat := (ci.map CharInfo.adv).sum + sp * (ci.length - 1)

/-- `X0 = xc - TW // 2`, a signed integer (R135). -/
def textStart (xc tw : Nat) : Int := (xc : Int) - ((tw / 2 : Nat) : Int)

/-- Is the text box inside the framebuffer (R136)? -/
def textBoxOk (x0 : Int) (tw y fh : Nat) : Bool :=
  decide (0 ≤ x0) && decide (x0 + (tw : Int) ≤ (Config.W : Int)) && decide (y + fh ≤ Config.H)

/-- The pixels one glyph paints with its column 0 at `gx0` and its top row at `y`: those whose combined colour is not
KEEP (R133, R139). -/
def glyphPixels (f : Font) (color : Half) (y gx0 : Nat) (c : CharInfo) : List (Nat × Half) :=
  (List.range f.fh).flatMap fun gy =>
    (List.range c.w).filterMap fun gx =>
      (combine (fontShade f c.xpos gx gy) color).map fun p => ((y + gy) * Config.W + (gx0 + gx), p)

end Sys2Proof.Machine
end

