-- ==== Sys2Proof/Machine/Ops.lean ====
section
/-! DEFINITION. The shared operations: draws, the trace, lines and waits, the bus transaction and the transport
procedures (40_transport.md R72, R76, R77), the window pair and chunk sending (41_panel_protocol.md R99,
43_region_transmission.md R118), pixel stores, the scratch, and how an operation starts and ends (10_state.md R20,
60_exceptions.md R150). There is no exception entry: an error is an operation end (R149 to R151). -/

namespace Sys2Proof.Machine

/-! ## Draws (log 5): the tape's next entry, or a free value once the tape is empty -/

def drawBus (d : Draws) : BusAnswer × Draws :=
  match d.bus with
  | a :: rest => (a, { d with bus := rest })
  | [] => (Config.busDraw d.count, { d with count := d.count + 1 })

def drawLoad (d : Draws) : Bool × Draws :=
  match d.loads with
  | a :: rest => (a, { d with loads := rest })
  | [] => (Config.loadDraw d.count, { d with count := d.count + 1 })

def drawAlloc (d : Draws) : Bool × Draws :=
  match d.allocs with
  | a :: rest => (a, { d with allocs := rest })
  | [] => (Config.allocDraw d.count, { d with count := d.count + 1 })

def drawTurn (d : Draws) : Agent × Draws :=
  match d.turns with
  | a :: rest => (a, { d with turns := rest })
  | [] => (Config.turnDraw d.count, { d with count := d.count + 1 })

def drawCut (d : Draws) : Cut × Draws :=
  match d.cuts with
  | a :: rest => (a, { d with cuts := rest })
  | [] => (Config.cutDraw d.count, { d with count := d.count + 1 })

def drawWord (d : Draws) : Word × Draws :=
  match d.words with
  | a :: rest => (a, { d with words := rest })
  | [] => (Config.readDraw d.count, { d with count := d.count + 1 })

/-! ## Procedures: an error value or OK (`none`), and the state after (R149) -/

/-- What a procedure returns. -/
abbrev Ran := Option Err × State

/-- Continue with `k` after OK; an error is passed on at once (R149, R79). -/
def Ran.andThen (r : Ran) (k : State → Ran) : Ran :=
  match r with
  | (none, s) => k s
  | (some e, s) => (some e, s)

/-! ## Trace, lines and waits -/

/-- Appends an event to `TRACE` (R29). -/
def State.log (s : State) (e : Event) : State := { s with trace := s.trace ++ [e] }

/-- `SetLine(DC, v)`: no event (R24). -/
def State.setDc (s : State) (v : Bool) : State := { s with dc := v }

/-- `SetLine(RST, v)`: a change appends `Line(RST, v)` (R24; log 20). -/
def State.setRst (s : State) (v : Bool) : State :=
  if s.rst = v then s else ({ s with rst := v }).log (.rstLine v)

/-- `Wait(name, t)`: at least `t` passes, then the event is appended (R156). -/
def State.waitFor (s : State) (name : WaitName) (t : Nat) : State := s.log (.wait name t)

/-! ## The bus -/

/-- Did the transaction succeed? -/
def answerOk : BusAnswer → Bool
  | .ok => true
  | .fail _ => false

/-- `BusTxn(dc, L)` (R72): chip-select and INFLIGHT for its duration, the bus's answer, the event; the panel observer
receives what the answer says was delivered (R163, R164). -/
def busTxn (dc : Bool) (L : List Byte) (s : State) : BusAnswer × State :=
  let opened : State := { s with cs := false, inflight := 1 }
  let a := drawBus opened.draws
  let sent : State := { opened with draws := a.2, panel := opened.panel.receive dc (delivered a.1 L) }
  let closed : State := { sent with cs := true, inflight := 0 }
  (a.1, closed.log (.txn dc L (answerOk a.1)))

/-- The error value of a transaction's answer: BUS_FAIL on FAIL (R73, R76, R99). -/
def busResult (r : BusAnswer × State) : Ran := (if answerOk r.1 then none else some errBusFail, r.2)

/-- `TxData(L)` (R76). -/
def txData (L : List Byte) (s : State) : Ran :=
  if L.length = 0 then (some errZeroLength, s)
  else if L.length > s.cfg.maxXfer then (some errOversize, s)
  else busResult (busTxn true L (s.setDc true))

/-- `TxCmd(b)` (R77): `DC` is back at 1 whatever the answer. -/
def txCmd (b : Byte) (s : State) : BusAnswer × State :=
  let r := busTxn false [b] (s.setDc false)
  (r.1, r.2.setDc true)

/-- A panel command: the command transaction, then its payload as one data transaction when there is one (R63, R68). -/
def sendCommand (op : Byte) (payload : List Byte) (s : State) : Ran :=
  (busResult (txCmd op s)).andThen fun s1 =>
    if payload.length > 0 then txData payload s1 else (none, s1)

/-- A panel command as INIT sends it: after SLEEP_OUT comes the sleep-out wait (R81, R102). -/
def emitCommand (c : WireCmd) (s : State) : Ran :=
  (sendCommand c.op c.payload s).andThen fun s1 =>
    (none, if c.op = 0x11#8 then s1.waitFor .slpout s1.cfg.tSlpout else s1)

/-- What the running INIT has still to send (log 17). -/
def State.setPending (s : State) (cs : List WireCmd) : State := { s with pending := cs }

/-- Sends the commands of a list in order, stopping at the first failure; `pending` is what is left (R101, R102). -/
def emitAll : List WireCmd → State → Ran
  | [], s => (none, s)
  | c :: rest, s => (emitCommand c (s.setPending rest)).andThen (emitAll rest)

/-- A COLUMN_ADDR or PAGE_ADDR command with its two bounds (R85, R86). -/
def sendBounds (op : Byte) (start stop : Half) (s : State) : Ran := sendCommand op (boundBytes start stop) s

/-- `WindowPair(x1, y1, x2, y2)` with the bounds of R98 (R99). -/
def windowPair (x1 y1 x2 y2 : Nat) (s : State) : Ran :=
  (sendBounds 0x2A#8 (BitVec.ofNat 16 (x1 + s.cfg.xOff)) (BitVec.ofNat 16 (x2 - 1 + s.cfg.xOff)) s).andThen fun s1 =>
  (sendBounds 0x2B#8 (BitVec.ofNat 16 (y1 + s1.cfg.yOff)) (BitVec.ofNat 16 (y2 - 1 + s1.cfg.yOff)) s1).andThen fun s2 =>
  sendCommand 0x2C#8 [] s2

/-- `SendChunks(src, plan)` (R118): `src` reads a slice, start and length, of the memory the plan is about. -/
def sendChunks (src : State → Nat → Nat → List Byte) : List (Nat × Nat) → State → Ran
  | [], s => (none, s)
  | c :: plan, s => (txData (src s c.1 c.2) s).andThen (sendChunks src plan)

/-! ## Memories -/

/-- `StorePixel` for each pixel of a list whose indexes rise (R40). -/
def State.storePixels (s : State) (ps : List (Nat × Half)) : State :=
  { s with fbb := Memory.overlay (pixelsCells ps) s.fbb }

/-- `AcquireScratch(S)` (R114). -/
def acquireScratch (size : Nat) (s : State) : Ran :=
  if size > s.cfg.scratchCap then (some (errResource size), s)
  else if s.cfg.allocDraw then
    let a := drawAlloc s.draws
    if a.1 then (some (errResource size), { s with draws := a.2 })
    else (none, { s with draws := a.2, scrHeld := true })
  else (none, { s with scrHeld := true })

/-- `SCR[0 .. len(L)) <- L` (R115). -/
def State.fillScratch (s : State) (L : List Byte) : State :=
  { s with scr := Memory.overlay (cellsFrom 0 L) s.scr }

/-! ## How an operation starts and ends -/

/-- A `GO` write of `v` with `BUSY = 0` (R15, R20). INIT's first effect, `INIT_DONE <- 0`, is visible in `STATUS` while it
runs (R21, R171, V-IN5), so it is made here. -/
def State.startOp (s : State) (v : Word) : State :=
  { s with
    busy := true, curOp := v.extractLsb' 0 8, lastOpc := v.extractLsb' 0 8,
    code := 0#8, sub := 0#8, errInfo := 0#32, ops := s.ops + 1,
    initDone := s.initDone && decide (v.extractLsb' 0 8 ≠ 0x04#8),
    statusUnread := true, awaiting := true }

/-- The end of an operation with a status (R150): the scratch is released, and what the block holds during an operation
only (scratch contents, `CI`, the commands still to send) is unspecified again (R28, R30; log 7, log 8). -/
def State.endOp (s : State) (code sub : Byte) (info : Word) : State :=
  { s with
    code := code, sub := sub, errInfo := info,
    scrHeld := false, scr := [], ci := [], pending := [], busy := false }

/-- `finish OK` (R150). -/
def State.finishOk (s : State) : State := s.endOp CODE_OK 0#8 0#32

/-- `raise Err(code, sub, info)` (R150). -/
def State.raiseErr (s : State) (e : Err) : State := s.endOp e.code e.sub e.info

/-- The end of an operation whose last procedure returned `r` (R149, R150). -/
def endWith (r : Ran) : State :=
  match r with
  | (none, s) => s.finishOk
  | (some e, s) => s.raiseErr e

/-- The operation of a reserved opcode (R59): it ends at once with ILLEGAL_OP. -/
def illegalOp (s : State) : State := s.raiseErr errIllegalOp

/-- The end of an INIT that failed (R102, R150): whatever the panel received, its state is unknown until a later INIT (R170,
U23; log 15). -/
def State.failInit (s : State) (e : Err) : State :=
  ({ s with panel := Panel.unknown (s.panel.epoch + 1) } : State).raiseErr e

/-- A panel command inside a running INIT: on OK the INIT goes on, an error ends it (R102, R149; log 17). -/
def goOn (r : Ran) : State :=
  match r with
  | (none, s) => s
  | (some e, s) => s.failInit e

/-- The end of INIT's own run (R102): `INIT_DONE <- 1` and `finish OK`, or the error that ended it. -/
def endInit (r : Ran) : State :=
  match r with
  | (none, s) => ({ s with initDone := true } : State).finishOk
  | (some e, s) => s.failInit e

/-- When the last pending command of an INIT has been sent: `INIT_DONE <- 1` and `finish OK` (R102; log 17). -/
def settle (s : State) : State :=
  if s.busy ∧ s.pending = [] then
    (if s.curOp = 0x04#8 then { s with initDone := true } else s).finishOk
  else s

/-- The block's reset released (R166): every piece of the block's state takes its value of R34 in one step. The panel is
unknown until INIT has run (R168, U23); the parameters and the host are not the block's. -/
def State.blockReset (s : State) : State :=
  { State.reset with
    panel := Panel.unknown (s.panel.epoch + 1), cfg := s.cfg, draws := s.draws, era := s.era + 1, ops := s.ops,
    host := s.host, reads := s.reads, hmem := s.hmem, awaiting := s.awaiting }

end Sys2Proof.Machine
end

