-- ==== Sys2Proof/Machine/Blit.lean ====
section
/-! DEFINITION. The image blit (44_blit.md R123, R124). -/

namespace Sys2Proof.Machine

/-- The pixels BLIT stores: the destination pixels row by row, each with the image pixel of the same place (R123, R124). -/
def blitPixels (s : State) (x y iw ih src : Nat) : List (Nat × Half) :=
  (pix x y (x + iw) (y + ih)).zip (pairsLE (memRead s src (2 * iw * ih)))

/-- BLIT (R123): the box check before any write, then one store per image pixel. -/
def execBlit (x y iw ih : Half) (src : Word) (s : State) : Host.Outcome State Fault Refusal :=
  if x.toNat + iw.toNat > Config.W ∨ y.toNat + ih.toNat > Config.H then .next (s.raiseErr errOutOfBounds)
  else if hostRangeOk src.toNat (2 * iw.toNat * ih.toNat) then
    .next (s.storePixels (blitPixels s x.toNat y.toNat iw.toNat ih.toNat src.toNat)).finishOk
  else .refused (.hostRange src.toNat (2 * iw.toNat * ih.toNat))

end Sys2Proof.Machine
end

