-- ==== Sys2Proof/Machine/Fill.lean ====
section
/-! DEFINITION. The fill operations (42_framebuffer.md R105, R106). -/

namespace Sys2Proof.Machine

/-- FILL_ALL (R105). -/
def execFillAll (color : Half) (s : State) : Host.Outcome State Fault Refusal :=
  .next (s.storePixels ((List.range Config.NPIX).map fun i => (i, color))).finishOk

/-- FILL_REGION (R106): the check before any write, then every pixel of the rectangle. -/
def execFillRegion (x1 y1 x2 y2 color : Half) (s : State) : Host.Outcome State Fault Refusal :=
  .next (match checkRect x1.toNat y1.toNat x2.toNat y2.toNat with
    | some e => s.raiseErr e
    | none => (s.storePixels ((pix x1.toNat y1.toNat x2.toNat y2.toNat).map fun i => (i, color))).finishOk)

end Sys2Proof.Machine
end

