-- ==== Sys2Proof/Machine/PanelProtocol.lean ====
section
/-! DEFINITION. INIT (41_panel_protocol.md R102) and the eighteen panel commands (R80 to R97), each as the running operation
sends it: the command transaction, its payload as one data transaction, and for SLEEP_OUT the wait after it. What the
panel does with the bytes is the observer's part (60_exceptions.md R163). A failed transaction ends the operation (log 17). -/

namespace Sys2Proof.Machine

/-- May R101 (a) hold this byte in `INIT_TABLE`: a byte of R66 other than SLEEP_OUT, DISPLAY_ON, COLUMN_ADDR, PAGE_ADDR
and WRITE_RAM? -/
def tableByteOk (b : Byte) : Bool :=
  [0x00#8, 0x20#8, 0x26#8, 0x36#8, 0x3A#8, 0xB1#8, 0xB6#8, 0xC0#8, 0xC1#8, 0xC5#8, 0xC7#8, 0xE0#8, 0xE1#8].contains b

/-- R101 (d): does a pixel-format entry select 16-bit RGB565 and an orientation entry the orientation of R88? Entries of
other commands pass. -/
def selectionOk (p : Params) (c : WireCmd) : Bool :=
  if c.op = 0x3A#8 then p.rgb565.contains c.payload
  else if c.op = 0x36#8 then p.orientation.contains c.payload
  else true

/-- R101 (a), (b) and (d): may the table hold this entry? -/
def entryOk (p : Params) (c : WireCmd) : Bool :=
  tableByteOk c.op && decide (c.payload.length ≤ p.maxXfer) && selectionOk p c

/-- The command bytes of the groups that R101 (c) names: power, VCOM, orientation, pixel format, gamma, frame rate. -/
def groupBytes : List Byte := [0xC0#8, 0xC1#8, 0xC5#8, 0xC7#8, 0x36#8, 0x3A#8, 0x26#8, 0xE0#8, 0xE1#8, 0xB1#8]

/-- R101 (c): does the table contain every group? -/
def groupsOk (table : List WireCmd) : Bool :=
  groupBytes.all fun b => table.any fun c => decide (c.op = b)

/-- The tables that lack groups of R101 (c) and whose INIT the spec gives all the same: the empty one (R102 'Corner cases',
V-IN1), one 0x3A entry of one byte (R102 'Example', V-IN2) and one bare 0x20 entry (V-IN3). -/
def statedTable : List WireCmd → Bool
  | [] => true
  | [c] => decide (c.op = 0x3A#8 ∧ c.payload.length = 1) || decide (c = ⟨0x20#8, []⟩)
  | _ => false

/-- R101: every entry as (a), (b) and (d) ask, and the groups of (c). A table that breaks it is refused (U13). That the
tables of `statedTable` run all the same, where U13 asks for a refusal and R102 gives the effect, is the model's choice
(DESIGN CHOICE, log 10). -/
def initTableOk (p : Params) : Bool :=
  p.initTable.all (entryOk p) && (groupsOk p.initTable || statedTable p.initTable)

/-- The commands of an INIT after the reset pulse: the table, SLEEP_OUT, DISPLAY_ON (R102). -/
def initCommands (p : Params) : List WireCmd := p.initTable ++ [⟨0x11#8, []⟩, ⟨0x29#8, []⟩]

/-- The reset pulse of INIT and the settle wait (R102). -/
def resetPulse (s : State) : State :=
  let low := ({ s with initDone := false }).setRst false
  let released := (low.waitFor .rstLow low.cfg.tRstLow).setRst true
  released.waitFor .rstSettle released.cfg.tRstSettle

/-- INIT (R102). -/
def execInit (s : State) : Host.Outcome State Fault Refusal :=
  if initTableOk s.cfg then
    .next (endInit (emitAll (initCommands s.cfg) (resetPulse s)))
  else .refused .initTableIllFormed

/-- SLEEP_OUT, byte 0x11, no payload, then the sleep-out wait (R81). -/
def execSleepOut (s : State) : Host.Outcome State Fault Refusal := .next (goOn (emitCommand ⟨0x11#8, []⟩ s))

/-- DISPLAY_ON, byte 0x29, no payload (R84). -/
def execDisplayOn (s : State) : Host.Outcome State Fault Refusal := .next (goOn (emitCommand ⟨0x29#8, []⟩ s))

/-- COLUMN_ADDR, byte 0x2A, then the column range (R85). A range with `start > stop`, for which R65 gives no payload, is sent as
given (DESIGN CHOICE, log 17). -/
def execColumnAddr (start stop : Half) (s : State) : Host.Outcome State Fault Refusal :=
  .next (goOn (sendBounds 0x2A#8 start stop s))

/-- PAGE_ADDR, byte 0x2B, then the row range (R86). A range with `start > stop`, for which R65 gives no payload, is sent as given
(DESIGN CHOICE, log 17). -/
def execPageAddr (start stop : Half) (s : State) : Host.Outcome State Fault Refusal :=
  .next (goOn (sendBounds 0x2B#8 start stop s))

/-- WRITE_RAM, byte 0x2C, no payload of its own (R87). -/
def execWriteRam (s : State) : Host.Outcome State Fault Refusal := .next (goOn (sendCommand 0x2C#8 [] s))

/-- NOP, byte 0x00, with its payload (R80). -/
def execNop (payload : List Byte) (s : State) : Host.Outcome State Fault Refusal :=
  .next (goOn (emitCommand ⟨0x00#8, payload⟩ s))

/-- DISPLAY_INVERSION_OFF, byte 0x20, with its payload (R82). -/
def execDisplayInversionOff (payload : List Byte) (s : State) : Host.Outcome State Fault Refusal :=
  .next (goOn (emitCommand ⟨0x20#8, payload⟩ s))

/-- SET_GAMMA, byte 0x26, with its payload (R83). -/
def execSetGamma (payload : List Byte) (s : State) : Host.Outcome State Fault Refusal :=
  .next (goOn (emitCommand ⟨0x26#8, payload⟩ s))

/-- MEMORY_ACCESS_CONTROL, byte 0x36, with its payload (R88). -/
def execMemoryAccessControl (payload : List Byte) (s : State) : Host.Outcome State Fault Refusal :=
  .next (goOn (emitCommand ⟨0x36#8, payload⟩ s))

/-- PIXEL_FORMAT, byte 0x3A, with its payload (R89). -/
def execPixelFormat (payload : List Byte) (s : State) : Host.Outcome State Fault Refusal :=
  .next (goOn (emitCommand ⟨0x3A#8, payload⟩ s))

/-- FRAME_RATE_CONTROL, byte 0xB1, with its payload (R90). -/
def execFrameRateControl (payload : List Byte) (s : State) : Host.Outcome State Fault Refusal :=
  .next (goOn (emitCommand ⟨0xB1#8, payload⟩ s))

/-- DISPLAY_FUNCTION_CONTROL, byte 0xB6, with its payload (R91). -/
def execDisplayFunctionControl (payload : List Byte) (s : State) : Host.Outcome State Fault Refusal :=
  .next (goOn (emitCommand ⟨0xB6#8, payload⟩ s))

/-- POWER1, byte 0xC0, with its payload (R92). -/
def execPower1 (payload : List Byte) (s : State) : Host.Outcome State Fault Refusal :=
  .next (goOn (emitCommand ⟨0xC0#8, payload⟩ s))

/-- POWER2, byte 0xC1, with its payload (R93). -/
def execPower2 (payload : List Byte) (s : State) : Host.Outcome State Fault Refusal :=
  .next (goOn (emitCommand ⟨0xC1#8, payload⟩ s))

/-- VCOM1, byte 0xC5, with its payload (R94). -/
def execVcom1 (payload : List Byte) (s : State) : Host.Outcome State Fault Refusal :=
  .next (goOn (emitCommand ⟨0xC5#8, payload⟩ s))

/-- VCOM2, byte 0xC7, with its payload (R95). -/
def execVcom2 (payload : List Byte) (s : State) : Host.Outcome State Fault Refusal :=
  .next (goOn (emitCommand ⟨0xC7#8, payload⟩ s))

/-- POSITIVE_GAMMA_CORRECTION, byte 0xE0, with its payload (R96). -/
def execPositiveGammaCorrection (payload : List Byte) (s : State) : Host.Outcome State Fault Refusal :=
  .next (goOn (emitCommand ⟨0xE0#8, payload⟩ s))

/-- NEGATIVE_GAMMA_CORRECTION, byte 0xE1, with its payload (R97). -/
def execNegativeGammaCorrection (payload : List Byte) (s : State) : Host.Outcome State Fault Refusal :=
  .next (goOn (emitCommand ⟨0xE1#8, payload⟩ s))

end Sys2Proof.Machine
end

