-- ==== Sys2Proof/Machine/Region.lean ====
section
/-! DEFINITION. Region transmission (43_region_transmission.md R110 to R120). -/

namespace Sys2Proof.Machine

/-- The checks of a send rectangle: INVERTED, OUT_OF_BOUNDS, EMPTY (R110). -/
def checkSendRect (x1 y1 x2 y2 : Nat) : Option Err :=
  match checkRect x1 y1 x2 y2 with
  | some e => some e
  | none => if x1 = x2 ∨ y1 = y2 then some errEmpty else none

/-- The constraint of R70 on the offset parameters. -/
def offsetsOk (p : Params) : Bool :=
  decide (p.xOff + Config.W ≤ 65536) && decide (p.yOff + Config.H ≤ 65536)

/-- The full-frame send: window pair, then the framebuffer in equal chunks (R116, R119, R120). -/
def sendFull (s : State) : Ran :=
  (windowPair 0 0 Config.W Config.H s).andThen fun t => sendChunks fbRun (fullPlan t.cfg.maxXfer) t

/-- The sub-region send: scratch, packing, window pair, then the scratch in chunks (R114, R115, R117, R119). -/
def sendSub (x1 y1 x2 y2 : Nat) (s : State) : Ran :=
  let p := (x2 - x1) * (y2 - y1)
  (acquireScratch (2 * p) s).andThen fun t =>
  (windowPair x1 y1 x2 y2 (t.fillScratch (packed t x1 y1 x2 y2))).andThen fun u =>
  sendChunks scrRun (subPlan u.cfg.maxXfer p) u

/-- SEND_REGION (R119). -/
def execSendRegion (x1 y1 x2 y2 : Half) (s : State) : Host.Outcome State Fault Refusal :=
  match checkSendRect x1.toNat y1.toNat x2.toNat y2.toNat with
  | some e => .next (s.raiseErr e)
  | none =>
    if s.cfg.maxXfer < 3 then .refused .ceilingTooSmall
    else if offsetsOk s.cfg then
      .next (endWith (if isFullFrame x1.toNat y1.toNat x2.toNat y2.toNat then sendFull s
        else sendSub x1.toNat y1.toNat x2.toNat y2.toNat s))
    else .refused .offsetTooLarge

/-- SEND_ALL (R120): the full-frame branch of SEND_REGION. -/
def execSendAll (s : State) : Host.Outcome State Fault Refusal :=
  if s.cfg.maxXfer < 3 then .refused .ceilingTooSmall
  else if offsetsOk s.cfg then .next (endWith (sendFull s))
  else .refused .offsetTooLarge

end Sys2Proof.Machine
end

