-- ==== Sys2Proof/Machine/Text.lean ====
section
/-! DEFINITION. DRAW_TEXT (45_glyph_rasterizer.md R139 to R141). -/

namespace Sys2Proof.Machine

/-- The load step (R140): `LoadOK`, and the state after, with `FONT_READY` set on a load that succeeded. With
`FONT_READY = 1` nothing is drawn. -/
def loadFont (s : State) : Bool × State :=
  if s.fontReady then (true, s)
  else
    let a := drawLoad s.draws
    (a.1, { s with draws := a.2, fontReady := a.1 })

/-- The paint loop (R139) from cell position `x` on: each glyph at its cell's position plus `xoff`, the next cell
`adv + sp` further (R135). -/
def paintChars (color : Half) (y sp : Nat) : List CharInfo → Nat → State → State
  | [], _, s => s
  | c :: ci, x, s =>
    paintChars color y sp ci (x + c.adv + sp) (s.storePixels (glyphPixels s.cfg.font color y (x + c.xoff) c))

/-- DRAW_TEXT from a formed `CI` on: the text box check, then the paint loop (R136, R139, R141). -/
def drawChars (xc y sp : Nat) (color : Half) (s : State) : State :=
  let tw := textWidth s.ci sp
  let x0 := textStart xc tw
  if textBoxOk x0 tw y s.cfg.font.fh then (paintChars color y sp s.ci x0.toNat s).finishOk
  else s.raiseErr errOutOfBounds

/-- DRAW_TEXT (R141). -/
def execDrawText (xc y : Half) (str : Word) (n : Half) (sp : Byte) (norm : Bool) (color : Half) (s : State) :
    Host.Outcome State Fault Refusal :=
  if n.toNat > s.cfg.maxChars then .next (s.raiseErr errTextCapacity)
  else if n.toNat = 0 then .next s.finishOk
  else
    let l := loadFont s
    if l.1 = false then .next (l.2.raiseErr errFont)
    else if fontWf s.cfg.font = false then .refused .fontIllFormed
    else if hostRangeOk str.toNat n.toNat then
      .next (match charInfos s.cfg.font norm (memRead s str.toNat n.toNat) with
        | none => l.2.raiseErr errUnknownChar
        | some ci => drawChars xc.toNat y.toNat sp.toNat color { l.2 with ci := ci })
    else .refused (.hostRange str.toNat n.toNat)

end Sys2Proof.Machine
end

