-- ==== Sys2Proof/Machine/Transport.lean ====
section
/-! DEFINITION. The host transport operations (40_transport.md R73 to R75). -/

namespace Sys2Proof.Machine

/-- XFER_BYTES (R73): the checks in order, then the bytes as one data transaction. -/
def execXferBytes (addr len : Word) (s : State) : Host.Outcome State Fault Refusal :=
  if len.toNat = 0 then .next (s.raiseErr errZeroLength)
  else if len.toNat > s.cfg.maxXfer then .next (s.raiseErr errOversize)
  else if hostRangeOk addr.toNat len.toNat then
    .next (endWith (busResult (busTxn true (memRead s addr.toNat len.toNat) s)))
  else .refused (.hostRange addr.toNat len.toNat)

/-- SEND_CMD (R74): any byte value is sent as a command. -/
def execSendCmd (byte : Byte) (s : State) : Host.Outcome State Fault Refusal :=
  .next (endWith (busResult (txCmd byte s)))

/-- SEND_DATA (R75): one data byte. -/
def execSendData (byte : Byte) (s : State) : Host.Outcome State Fault Refusal :=
  .next (endWith (txData [byte] s))

end Sys2Proof.Machine
end

