-- ==== Sys2Proof/Machine/Dispatch.lean ====
section
/-! DEFINITION. One arm per instruction of spec/opcode_table.json: a direct call of its meaning. -/

namespace Sys2Proof.Machine

def exec (i : Instr) (s : State) : Host.Outcome State Fault Refusal :=
  match i with
  | .xferBytes addr len => Sys2Proof.Machine.execXferBytes addr len s
  | .sendCmd byte => Sys2Proof.Machine.execSendCmd byte s
  | .sendData byte => Sys2Proof.Machine.execSendData byte s
  | .init => Sys2Proof.Machine.execInit s
  | .fillAll color => Sys2Proof.Machine.execFillAll color s
  | .fillRegion x1 y1 x2 y2 color => Sys2Proof.Machine.execFillRegion x1 y1 x2 y2 color s
  | .blit x y iw ih src => Sys2Proof.Machine.execBlit x y iw ih src s
  | .sendRegion x1 y1 x2 y2 => Sys2Proof.Machine.execSendRegion x1 y1 x2 y2 s
  | .sendAll => Sys2Proof.Machine.execSendAll s
  | .drawText xc y str n sp norm color => Sys2Proof.Machine.execDrawText xc y str n sp norm color s
  | .nop p => Sys2Proof.Machine.execNop p s
  | .sleepOut => Sys2Proof.Machine.execSleepOut s
  | .displayInversionOff p => Sys2Proof.Machine.execDisplayInversionOff p s
  | .setGamma p => Sys2Proof.Machine.execSetGamma p s
  | .displayOn => Sys2Proof.Machine.execDisplayOn s
  | .columnAddr start stop => Sys2Proof.Machine.execColumnAddr start stop s
  | .pageAddr start stop => Sys2Proof.Machine.execPageAddr start stop s
  | .writeRam => Sys2Proof.Machine.execWriteRam s
  | .memoryAccessControl p => Sys2Proof.Machine.execMemoryAccessControl p s
  | .pixelFormat p => Sys2Proof.Machine.execPixelFormat p s
  | .frameRateControl p => Sys2Proof.Machine.execFrameRateControl p s
  | .displayFunctionControl p => Sys2Proof.Machine.execDisplayFunctionControl p s
  | .power1 p => Sys2Proof.Machine.execPower1 p s
  | .power2 p => Sys2Proof.Machine.execPower2 p s
  | .vcom1 p => Sys2Proof.Machine.execVcom1 p s
  | .vcom2 p => Sys2Proof.Machine.execVcom2 p s
  | .positiveGammaCorrection p => Sys2Proof.Machine.execPositiveGammaCorrection p s
  | .negativeGammaCorrection p => Sys2Proof.Machine.execNegativeGammaCorrection p s

end Sys2Proof.Machine
end

