-- ==== Sys2Proof/Machine/HostBus.lean ====
section
/-! DEFINITION. The host's side (10_state.md R14 to R19, R31, 20_memory.md R47, 30_encoding.md R60 to R62,
60_exceptions.md R151, R161, 70_reset_and_hazards.md R175): register and window accesses, POLL, host memory, whose turn it
is while an operation runs, what the sequencer runs, and the assembler's expansions. -/

namespace Sys2Proof.Machine

/-- First offset of the framebuffer window, `FBWIN_BASE` (R31). -/
abbrev FBWIN_BASE : Nat := 0x40000
/-- First offset above the window (R31, R47). -/
abbrev BLOCK_END : Nat := 0x80000

/-- Is a register access one the contract allows, an aligned 32-bit word (R18, R44)? -/
def wordOk (offset width : Nat) : Bool := decide (width = 4) && decide (offset % 4 = 0)

/-- Has a read of this width a meaning: an aligned word in register space (R18, R44), 1, 2 or 4 bytes at any address in the
window (R31)? That other window widths are refused, and that the hole, for which R47 states no width, is read in the
window's widths only, is the model's choice (DESIGN CHOICE, log 21). -/
def accessOk (offset width : Nat) : Bool :=
  if offset < 0x100 then wordOk offset width
  else decide (width = 1) || decide (width = 2) || decide (width = 4)

/-! ## Writes -/

/-- Has the host written every argument word that the operation of `GO` word `v` reads (R161)? A reserved opcode reads
none (R59). -/
def argumentsWritten (s : State) (v : Word) : Bool :=
  match decode (.hostCmd v s.args) with
  | .ok i => (s.argsWritten.toList.take (argWords i).length).all id
  | .error _ => true

/-- A write of `GO` on an idle block (R15, R20). A host that has not read the last operation's status, or not written an
argument word, breaks a duty of R161, and the run has no meaning (log 32). That the `GO` after program P4's line `W GO, 0x00`
is refused when no STATUS read stands between, although 95_test_vectors.md gives that program a result, is the model's choice
(DESIGN CHOICE, log 32). -/
def goWrite (s : State) (v : Word) : Host.Outcome State Fault Refusal :=
  if s.statusUnread then .refused .statusUnread
  else if argumentsWritten s v = false then .refused (.argumentUnwritten (v.extractLsb' 0 8))
  else .next (s.startOp v)

/-- A register write that the contract allows (R14, R15, R16, R17, R18, R19): `ARG[n]` and `GO` while idle, every other
write without effect. -/
def regWrite (s : State) (offset : Nat) (v : Word) : Host.Outcome State Fault Refusal :=
  if s.resetIn ∨ s.busy then .next s
  else if h : offset < 0x20 then .next { s with
    args := s.args.set (offset / 4) v (by omega), argsWritten := s.argsWritten.set (offset / 4) true (by omega) }
  else if offset = 0x20 then goWrite s v
  else .next s

/-- A host write: a register word (R18), or ignored in the hole and the window, whatever its width (R31, R47). -/
def hostWrite (s : State) (offset width : Nat) (v : Word) : Host.Outcome State Fault Refusal :=
  if offset < 0x100 then
    if wordOk offset width then regWrite s offset v else .refused (.accessForm offset width)
  else if offset + width > BLOCK_END then .fault (.outsideBlock offset)
  else .next s

/-! ## Reads -/

/-- The value of a register (R14 to R19). -/
def regRead (s : State) (offset : Nat) : Word :=
  if h : offset < 0x20 then s.args[offset / 4]'(by omega)
  else if offset = 0x24 then statusWord s
  else if offset = 0x28 then s.errInfo
  else 0#32

/-- Window byte `a` (R31): a framebuffer byte, 0 past the framebuffer; while an operation runs a framebuffer byte is
unspecified and `free` gives it. That a byte past the framebuffer reads 0 then too, where R31's sentence on reads while
`BUSY = 1` and U4 allow any value, is the model's choice (DESIGN CHOICE, log 21). -/
def windowByte (s : State) (free : Byte) (a : Nat) : Byte :=
  if a < Config.FB_BYTES then (if s.busy then free else fbByte s a) else 0#8

/-- The byte at an offset in the hole (R47) or the window (R31). -/
def mapByte (s : State) (free : Byte) (offset : Nat) : Byte :=
  if offset < FBWIN_BASE then 0#8 else windowByte s free (offset - FBWIN_BASE)

/-- `width` bytes from `offset` up assembled little-endian (R31, R38), with the bytes of `free` where unspecified. -/
def windowRead (s : State) (free : Word) (offset width : Nat) : Word :=
  let byte := fun k => if k < width then mapByte s (free.extractLsb' (8 * k) 8) (offset + k) else 0#8
  (byte 3 ++ byte 2 ++ byte 1 ++ byte 0 : BitVec 32)

/-- Does an access touch a framebuffer byte of the window (R31)? -/
def touchesFrame (offset width : Nat) : Bool :=
  decide (FBWIN_BASE < offset + width) && decide (offset < FBWIN_BASE + Config.FB_BYTES)

/-- The value a host read returns and the draws after it. STATUS is unspecified while reset is asserted (R166, U5),
framebuffer bytes of the window while an operation runs (R31, U4); the other reads draw nothing. -/
def readValue (s : State) (offset width : Nat) : Word × Draws :=
  if offset < 0x100 then
    if s.resetIn ∧ offset = 0x24 then drawWord s.draws else (regRead s offset, s.draws)
  else if s.busy ∧ touchesFrame offset width then
    ((windowRead s (drawWord s.draws).1 offset width), (drawWord s.draws).2)
  else (windowRead s 0#32 offset width, s.draws)

/-- Does a read of this offset show the host the status of the last operation (R151)? A read of STATUS on an idle block that
is not in reset. That a read of ERR_INFO, which R151 and R174 name too, is not part of the duty is the model's choice (DESIGN
CHOICE, log 32). -/
def showsStatus (s : State) (offset : Nat) : Bool := decide (offset = 0x24) && !s.busy && !s.resetIn

/-- A host read (R18, R31, R47); the value returned joins `reads`. A read has no other effect on the block (R46); that the
last operation's status has been read is noted (R151, R161; log 32). -/
def hostRead (s : State) (offset width : Nat) : Host.Outcome State Fault Refusal :=
  if accessOk offset width = false then .refused (.accessForm offset width)
  else if offset + width > BLOCK_END then .fault (.outsideBlock offset)
  else
    let v := readValue s offset width
    .next { s with
      draws := v.2, reads := s.reads ++ [v.1], statusUnread := s.statusUnread && !showsStatus s offset }

/-! ## POLL and host memory -/

/-- One reading of a `POLL` line (R60): it reads STATUS and is done when BUSY reads 0; otherwise it stays. A POLL done has
read the last operation's status (R151; log 32) and started none (R160). -/
def hostPoll (s : State) (rest : List HostOp) : State :=
  let v := readValue s 0x24 4
  let t := { s with draws := v.2 }
  if v.1.getLsbD 0 then t
  else { t with host := rest, statusUnread := s.statusUnread && !showsStatus s 0x24, awaiting := false }

/-- The host bytes a running operation names, as start and count (R175). -/
def namedRange (s : State) : Nat × Nat :=
  match decodeHost s.curOp s.args with
  | .ok (.xferBytes addr len) => (addr.toNat, len.toNat)
  | .ok (.blit _ _ iw ih src) => (src.toNat, 2 * iw.toNat * ih.toNat)
  | .ok (.drawText _ _ str n _ _ _) => (str.toNat, n.toNat)
  | _ => (0, 0)

/-- Does the running operation name host byte `a`? One that a reset has abandoned no longer runs (R166). -/
def namesByte (s : State) (a : Nat) : Bool :=
  s.busy && !s.resetIn && decide ((namedRange s).1 ≤ a) && decide (a < (namedRange s).1 + (namedRange s).2)

/-- The host changes a byte of its memory (R39, R53); a byte the running operation names must not change (R161, R175). -/
def hostStore (s : State) (addr : Word) (b : Byte) : Host.Outcome State Fault Refusal :=
  if namesByte s addr.toNat then .refused (.hostMemoryChanged addr.toNat)
  else .next { s with hmem := Memory.set s.hmem addr.toNat b }

/-- Has the host something to do besides waiting for `BUSY = 0`? -/
def hostReady (s : State) : Bool :=
  match s.host with
  | [] => false
  | .poll :: _ => false
  | .write _ _ _ :: _ | .read _ _ :: _ | .store _ _ :: _ | .assertReset :: _ | .releaseReset :: _ => true

/-- Who moves (R6): the host while the block is idle or in reset; while an operation runs a draw decides between the host's
next access and the operation (R19; log 18), and the operation runs when the host only waits. -/
def nextTurn (s : State) : Agent × State :=
  if s.resetIn ∨ s.busy = false then (.host, s)
  else if hostReady s then ((drawTurn s.draws).1, { s with draws := (drawTurn s.draws).2 })
  else (.sequencer, s)

/-! ## What the sequencer runs -/

/-- What a running operation does next. -/
inductive Fetched where
  /-- a host operation (R56) -/
  | op (i : Instr)
  /-- a reserved opcode (R59) -/
  | reserved
  /-- the next panel command of an INIT under way -/
  | panel (i : Instr)
  /-- a pending entry that is no panel command -/
  | undecodable (c : WireCmd)
  deriving DecidableEq, Repr

/-- The next instruction of the sequencer: the first pending panel command of an INIT under way, else the operation
`CUR_OP` names on the argument registers (R55, R56; log 17). -/
def fetch (s : State) : Fetched :=
  match s.pending with
  | c :: _ =>
    match decode (.panelCmd c) with
    | .ok i => .panel i
    | .error _ => .undecodable c
  | [] =>
    match decode (.hostCmd (s.curOp.setWidth 32) s.args) with
    | .ok i => .op i
    | .error _ => .reserved

/-! ## The assembler (R60 to R62) -/

/-- `W ARG<n>, v` and `W GO, opc` as register writes (R60). -/
def writeArg (n : Nat) (v : Word) : HostOp := .write (4 * n) 4 v
def writeGo (opc : Byte) : HostOp := .write 0x20 4 (opc.setWidth 32)

/-- The argument writes of R61 in increasing `n`. -/
def argLines : Nat → List Word → List HostOp
  | _, [] => []
  | n, w :: ws => writeArg n w :: argLines (n + 1) ws

/-- The expansion of an operation mnemonic into primitive lines (R61); a panel command is no line of a host program. -/
def assemble (i : Instr) : List HostOp :=
  if isHostOp i then argLines 0 (argWords i) ++ [writeGo (opcodeOf i), .poll] else []

/-- The pseudo-operations of R62. -/
inductive Pseudo where
  | clear
  | fillScreen (c : Half)
  | sendFull
  | sendCmdPayload (op : Byte) (addr n : Word)
  deriving DecidableEq, Repr

/-- Their expansions (R62); SEND_CMD_PAYLOAD has one for `n ≥ 1` only. -/
def expandPseudo : Pseudo → Option (List Instr)
  | .clear => some [.fillAll 0x0000#16]
  | .fillScreen c => some [.fillRegion 0#16 0#16 240#16 320#16 c]
  | .sendFull => some [.sendRegion 0#16 0#16 240#16 320#16]
  | .sendCmdPayload op addr n => if 1 ≤ n.toNat then some [.sendCmd op, .xferBytes addr n] else none

end Sys2Proof.Machine
end

