-- ==== Sys2Proof/Machine/Sequencer.lean ====
section
/-! DEFINITION. The sequencer's turn: the fetched instruction (10_state.md R20, 30_encoding.md R59), and how the pipeline's
host places one instruction to be run next. -/

namespace Sys2Proof.Machine

/-- After a panel command of an INIT under way: INIT ends with its last command (R102). -/
def afterPanel (o : Host.Outcome State Fault Refusal) : Host.Outcome State Fault Refusal :=
  match o with
  | .next t => .next (settle t)
  | .fault f => .fault f
  | .refused r => .refused r

/-- The sequencer's turn: the fetched instruction runs whole (R20, R45); a reserved opcode ends with ILLEGAL_OP (R59). -/
def runSequencer (s : State) : Host.Outcome State Fault Refusal :=
  match fetch s with
  | .op i => exec i s
  | .reserved => .next (illegalOp s)
  | .panel i => afterPanel (exec i { s with pending := s.pending.tail })
  | .undecodable c => .refused (.pendingUndecodable c)

/-- `s` with the instruction of opcode-table bits `w` where the sequencer fetches next (log 2). A host command is placed
as its `GO` write leaves the block (R20), on argument registers holding the words of `w`; a panel command as the only
pending command of an INIT under way. The sequencer has the next turn. -/
def placeTableWord (s : State) (nbits w : Nat) : State :=
  let t := { s with resetIn := false, draws := { s.draws with turns := .sequencer :: s.draws.turns } }
  match decode (.hostCmd (BitVec.ofNat 32 w) (tableArgs w)) with
  | .ok _ => { t.startOp (BitVec.ofNat 32 w) with args := tableArgs w, pending := [] }
  | .error _ => { t.startOp 0x04#32 with pending := [tableCmd nbits w] }

end Sys2Proof.Machine
end

