-- ==== Sys2Proof/Machine/HostTurn.lean ====
section
/-! DEFINITION. The host's turn (30_encoding.md R60, 70_reset_and_hazards.md R166, R167): its next line, and the reset input,
whose assertion abandons a running operation. -/

namespace Sys2Proof.Machine

/-- What the panel receives of an event when `n` bytes of a transaction got through; other events carry no byte. -/
def Panel.takeEvent (p : Panel) (e : Event) (n : Nat) : Panel :=
  match e with
  | .txn dc L _ => p.receive dc (L.take n)
  | .rstLine _ => p
  | .wait _ _ => p

/-- What the panel receives of events that ended OK: every byte (R163). -/
def Panel.takeEvents (p : Panel) : List Event → Panel
  | [] => p
  | .txn dc L _ :: es => (p.receive dc L).takeEvents es
  | .rstLine _ :: es => p.takeEvents es
  | .wait _ _ :: es => p.takeEvents es

/-- The operation that would have taken `s` to `t` is abandoned at `cut` (R166): the events before the cut are in `TRACE` and
reached the panel, the transaction then in flight delivers a prefix of its bytes, and no later one is issued. A cut past the
last event comes after the operation's bus activity (log 19). -/
def State.abandon (s t : State) (cut : Cut) : State :=
  let new := t.trace.drop s.trace.length
  match new.drop cut.events with
  | [] => { s with draws := t.draws, trace := t.trace, panel := t.panel }
  | e :: _ =>
    { s with
      draws := t.draws, trace := s.trace ++ new.take cut.events,
      panel := (s.panel.takeEvents (new.take cut.events)).takeEvent e cut.bytes }

/-- The reset input is asserted (R166); an operation that runs is abandoned where a draw says. An operation without a meaning
has none when it is abandoned either. -/
def assertReset (s : State) : Host.Outcome State Fault Refusal :=
  if s.busy ∧ s.resetIn = false then
    match runSequencer { s with draws := (drawCut s.draws).2 } with
    | .next t => .next { s.abandon t (drawCut s.draws).1 with resetIn := true }
    | .fault f => .fault f
    | .refused r => .refused r
  else .next { s with resetIn := true }

/-- The reset input is released (R166); releasing one that is not asserted changes nothing. -/
def releaseReset (s : State) : State := if s.resetIn then s.blockReset else s

/-- One line of the host's queue. A line taken started no operation unless it is a `GO` write that the block takes (R160;
log 33). -/
def hostAct (op : HostOp) (rest : List HostOp) (s : State) : Host.Outcome State Fault Refusal :=
  match op with
  | .write offset width v => hostWrite { s with host := rest, awaiting := false } offset width v
  | .read offset width => hostRead { s with host := rest, awaiting := false } offset width
  | .poll => .next (hostPoll s rest)
  | .store addr b => hostStore { s with host := rest, awaiting := false } addr b
  | .assertReset => assertReset { s with host := rest, awaiting := false }
  | .releaseReset => .next (releaseReset { s with host := rest, awaiting := false })

/-- The host's turn: its next line, or nothing when it has none (R167: the block does nothing on its own). -/
def hostTurn (s : State) : Host.Outcome State Fault Refusal :=
  match s.host with
  | [] => .next s
  | op :: rest => hostAct op rest s

end Sys2Proof.Machine
end

