-- ==== Sys2Proof/Machine/Step.lean ====
section
/-! DEFINITION. One step of the machine: the host's next access, or the running operation (10_state.md R20), and the
placing of an instruction to be fetched next. -/

namespace Sys2Proof.Machine

/-- One step. -/
def step (s : State) : Host.Outcome State Fault Refusal :=
  match (nextTurn s).1 with
  | .host => hostTurn (nextTurn s).2
  | .sequencer => runSequencer (nextTurn s).2

/-- `s` with the instruction of opcode-table bits `w` where `step` fetches next (log 2). -/
def State.withFetchWord (s : State) (nbits w : Nat) : State := placeTableWord s nbits w

end Sys2Proof.Machine
end

