-- ==== Sys2Proof/Safety.lean ====
section
/-! DEFINITION. The terms claims are stated in: the bus activity of an operation as a list of acts (30_encoding.md R63,
40_transport.md R72, R79), rectangles, bytes and text cells as the rules write them, resting lines and the invariant of the
machine, and the parameter constraints of 41_panel_protocol.md R101. -/

namespace Sys2Proof.Machine

/-! ## Bus activity -/

/-- One act of a running operation that the outside sees: a bus transaction, or an event without one (R29). -/
inductive Act where
  | txn (dc : Bool) (bytes : List Byte)
  | mark (e : Event)
  deriving DecidableEq, Repr

/-- Is the bus's answer to the next transaction OK? -/
def State.nextOk (s : State) : Bool := answerOk (drawBus s.draws).1

/-- The machine after one bus transaction (R72), whatever the bus answers: the event with the answer's result joins the
trace, the panel receives what was delivered, the lines are at rest again. -/
def State.afterTxn (s : State) (dc : Bool) (L : List Byte) : State :=
  { s with
    dc := true, cs := true, inflight := 0,
    trace := s.trace ++ [.txn dc L s.nextOk],
    panel := s.panel.receive dc (delivered (drawBus s.draws).1 L),
    draws := (drawBus s.draws).2 }

/-- The acts in order; the first transaction that fails ends them with PROTOCOL/BUS_FAIL and no later one is issued
(R79). -/
def runActs : List Act → State → Ran
  | [], s => (none, s)
  | .mark e :: acts, s => runActs acts { s with trace := s.trace ++ [e] }
  | .txn dc L :: acts, s =>
    if s.nextOk then runActs acts (s.afterTxn dc L) else (some errBusFail, s.afterTxn dc L)

/-- A panel command: one command transaction, and its payload as one data transaction when it has one (R63, R68). -/
def commandActs (op : Byte) (payload : List Byte) : List Act :=
  .txn false [op] :: if payload = [] then [] else [.txn true payload]

/-- A panel command as INIT sends it: after SLEEP_OUT comes the sleep-out wait (R81, R102). -/
def initCommandActs (p : Params) (c : WireCmd) : List Act :=
  commandActs c.op c.payload ++ if c.op = 0x11#8 then [.mark (.wait .slpout p.tSlpout)] else []

/-- The window pair and the RAM-write command for the rectangle `(x1, y1, x2, y2)` (R98, R99). -/
def windowActs (p : Params) (x1 y1 x2 y2 : Nat) : List Act :=
  commandActs 0x2A#8 (boundBytes (BitVec.ofNat 16 (x1 + p.xOff)) (BitVec.ofNat 16 (x2 - 1 + p.xOff)))
    ++ commandActs 0x2B#8 (boundBytes (BitVec.ofNat 16 (y1 + p.yOff)) (BitVec.ofNat 16 (y2 - 1 + p.yOff)))
    ++ commandActs 0x2C#8 []

/-- The bus activity of INIT on parameters `p` (R102): the reset pulse with its two waits, each table entry, SLEEP_OUT and
its wait, DISPLAY_ON. -/
def initActs (p : Params) : List Act :=
  [.mark (.rstLine false), .mark (.wait .rstLow p.tRstLow), .mark (.rstLine true), .mark (.wait .rstSettle p.tRstSettle)]
    ++ p.initTable.flatMap (fun c => commandActs c.op c.payload)
    ++ commandActs 0x11#8 [] ++ [.mark (.wait .slpout p.tSlpout)] ++ commandActs 0x29#8 []

/-- `Packed(x1, y1, x2, y2)` as R113 writes it. -/
def packedBytes (s : State) (x1 y1 x2 y2 : Nat) : List Byte :=
  (pix x1 y1 x2 y2).flatMap fun i => [fbByte s (2 * i), fbByte s (2 * i + 1)]

/-- The chunks of a full-frame send: chunk `k` is `FBB[k*CF .. (k+1)*CF)` (R116). -/
def fullChunks (s : State) (n : Nat) : List (List Byte) :=
  (List.range n).map fun k =>
    (List.range' (k * (Config.FB_BYTES / n)) (Config.FB_BYTES / n)).map (fbByte s)

/-- A list cut greedily into chunks of `size`: chunk `k` is its slice from `k*size` on (R117). -/
def greedyChunks (L : List Byte) (size : Nat) : List (List Byte) :=
  (List.range (ceilDiv L.length size)).map fun k => (L.drop (k * size)).take size

/-- One data transaction per chunk, with nothing between them (R118). -/
def chunkActs (chunks : List (List Byte)) : List Act := chunks.map (.txn true)

/-- The first `n` answers of the bus are OK. -/
def State.allOk (s : State) (n : Nat) : Prop := s.draws.bus.take n = List.replicate n .ok

/-- Is the event a transaction that failed? -/
def eventFailed : Event → Bool
  | .txn _ _ ok => !ok
  | .rstLine _ => false
  | .wait _ _ => false

/-- The two kinds of transaction the block issues (R63): a command transaction of one byte, a data transaction of 1 to
`ceiling` bytes. Other events are no transaction. -/
def eventFormOk (ceiling : Nat) : Event → Bool
  | .txn false L _ => decide (L.length = 1)
  | .txn true L _ => decide (1 ≤ L.length) && decide (L.length ≤ ceiling)
  | .rstLine _ => true
  | .wait _ _ => true

/-- How a send ends when the ceiling is 3 bytes: after the window's first command, with OVERSIZE for the payload that does not
fit, or with BUS_FAIL when the command itself failed (R76, R99; log 11). -/
def windowCut (s : State) : State := (s.afterTxn false [0x2A#8]).endOp 1#8 (if s.nextOk then 3#8 else 2#8) 0#32

/-- A host store goes through: the byte at `addr` becomes `b` and every other host byte stays (R39, R53). -/
def StoresOneByte (s : State) (addr : Word) (b : Byte) : Prop :=
  ∃ m, hostStore s addr b = .next { s with hmem := m } ∧ hostByte { s with hmem := m } addr.toNat = b ∧
    ∀ a, a ≠ addr.toNat → hostByte { s with hmem := m } a = hostByte s a

/-- The state in which the running operation moves, if the turn is the sequencer's: the host only waits, or has an access to
make and the draw gives the turn to the sequencer (R6; log 18). -/
def sequencerTurn (s : State) : Option State :=
  if hostReady s = false then some s
  else
    match (drawTurn s.draws).1 with
    | .sequencer => some { s with draws := (drawTurn s.draws).2 }
    | .host => none

/-! ## Runs -/

/-- `n` steps, stopping at the first fault or refusal. -/
def stepsFrom : Nat → State → Host.Outcome State Fault Refusal
  | 0, s => .next s
  | n + 1, s =>
    match step s with
    | .next t => stepsFrom n t
    | .fault f => .fault f
    | .refused r => .refused r

/-! ## Text cells (R134, R135) -/

/-- `X_j`, from the draw start on: the cells before `j` and the spacing after each. -/
def cellStart (ci : List CharInfo) (sp x0 j : Nat) : Nat :=
  x0 + ((ci.take j).map fun c => c.adv + sp).sum

/-- Pixel index of glyph column `gx`, row `gy` of character `j` (R139). -/
def textIndex (ci : List CharInfo) (sp x0 y j gx gy : Nat) : Nat :=
  (y + gy) * Config.W + (cellStart ci sp x0 j + (ci[j]?.map CharInfo.xoff).getD 0 + gx)

/-! ## The state between steps -/

/-- The lines at their resting levels and no transaction in flight (R24, R25, R78). -/
abbrev State.resting (s : State) : Prop := s.dc = true ∧ s.cs = true ∧ s.rst = true ∧ s.inflight = 0

/-- Every field that only a bus transaction changes (R72) aside, the two states agree. -/
def BusOnly (s t : State) : Prop :=
  t = { s with dc := t.dc, cs := t.cs, inflight := t.inflight, trace := t.trace, panel := t.panel, draws := t.draws }

/-- What the block holds during an operation only is released or empty (R28, R30, R150). -/
abbrev State.released (s : State) : Prop := s.scrHeld = false ∧ s.scr = [] ∧ s.ci = []

/-- The status registers hold a pair R143 lists, and `ERR_INFO` is 0 but for RESOURCE (R17). -/
abbrev State.statusOk (s : State) : Prop :=
  (s.code, s.sub) ∈ statusPairs ∧ (s.code ≠ CODE_RESOURCE → s.errInfo = 0#32)

/-- Every memory in canonical form, with keys inside its space (R27, R39, R162). -/
abbrev State.memoriesOk (s : State) : Prop :=
  Memory.wf s.fbb = true ∧ (∀ c ∈ s.fbb, c.1 < Config.FB_BYTES) ∧
  Memory.wf s.hmem = true ∧ (∀ c ∈ s.hmem, c.1 < Config.HMEM_SIZE) ∧
  Memory.wf s.panel.gram = true ∧ s.panel.cx < 65536

/-- The invariant of the machine between steps. -/
abbrev State.Inv (s : State) : Prop := s.memoriesOk ∧ s.resting ∧ s.released ∧ s.statusOk

/-- A host program has ended: no line is left, and if the last one started an operation a POLL has seen `BUSY = 0` (R160;
log 33). -/
abbrev State.hostDone (s : State) : Prop := s.host = [] ∧ s.awaiting = false

/-! ## Parameters -/

/-- R101 in full: every entry as (a), (b) and (d) ask, and every group of (c). -/
abbrev meetsR101 (p : Params) : Prop := p.initTable.all (entryOk p) = true ∧ groupsOk p.initTable = true

end Sys2Proof.Machine
end

