-- ==== Sys2Proof/Certificates/Slice0/Obligations.lean ====
section
/-! DEFINITION. The statements for the provers, one definition each, in the order of the spec's files. Where a statement
gives the state after an operation as `State.endOp`, the status, the release of the scratch and `BUSY` are R150's; that the
scratch's contents, `CI` and the pending commands are emptied is the model's choice (log 7, log 8, log 17). Where one gives it
as `goOn`, `endInit` or `State.failInit`, an INIT that fails also leaves the panel unknown (R170, U23; log 15). -/

open Sys2Proof Sys2Proof.Machine

/-! ## Encoding (30_encoding.md) -/

/-- R57, R58, R65, R66, R68: decoding the encoding of an instruction gives the instruction back, every operand at every
value. -/
def Obligations.DecodeOfEncodeIsTheInstruction : Prop :=
  ∀ i : Instr, decode (encode i) = .ok i

/-- R63, R65, R66, R68: on the wire each command and payload has one meaning: what decodes encodes back to itself. -/
def Obligations.PanelWireFormIsUnique : Prop :=
  ∀ (c : WireCmd) (i : Instr), decode (.panelCmd c) = .ok i → encode i = .panelCmd c

/-- R55: the operation is told from `GO[7:0]` alone. -/
def Obligations.OpcodeAloneSelectsTheOperation : Prop :=
  ∀ (go go' : Word) (a a' : Vector Word 8), go.extractLsb' 0 8 = go'.extractLsb' 0 8 →
    decode (.hostCmd go a) = decode (.hostCmd go' a) ∧
    ∀ i, decode (.hostCmd go a) = .ok i →
      ∃ j, decode (.hostCmd go' a') = .ok j ∧ opcodeOf j = opcodeOf i ∧ isHostOp j = true

/-- R56: the ten opcodes, the argument words each reads and no other, and every other value reserved. -/
def Obligations.OpcodeTableOfHostOperations : Prop :=
  (∀ (go : Word) (a : Vector Word 8),
    (∃ i, decode (.hostCmd go a) = .ok i) ↔
      go.extractLsb' 0 8 ∈ [0x01#8, 0x02#8, 0x03#8, 0x04#8, 0x10#8, 0x11#8, 0x12#8, 0x20#8, 0x21#8, 0x30#8]) ∧
  ∀ (go : Word) (a : Vector Word 8) (i : Instr), decode (.hostCmd go a) = .ok i →
    opcodeOf i = go.extractLsb' 0 8 ∧
    (opcodeOf i, (argWords i).length) ∈
      [(0x01#8, 2), (0x02#8, 1), (0x03#8, 1), (0x04#8, 0), (0x10#8, 1), (0x11#8, 3), (0x12#8, 3), (0x20#8, 2),
       (0x21#8, 0), (0x30#8, 4)] ∧
    ∀ a' : Vector Word 8, (∀ n : Fin 8, n.val < (argWords i).length → a'[n] = a[n]) →
      decode (.hostCmd go a') = .ok i

/-- R56, R57, R65, R66: words written out from the spec's encodings. -/
def Obligations.SampleWordsDecode : Prop :=
  decode (.hostCmd 0x00000011#32 #v[0x0014000A#32, 0x0028001E#32, 0x0000F800#32, 0, 0, 0, 0, 0])
    = .ok (.fillRegion 10#16 20#16 30#16 40#16 0xF800#16) ∧
  decode (.hostCmd 0x00000001#32 #v[0x00001000#32, 0x00000002#32, 0, 0, 0, 0, 0, 0])
    = .ok (.xferBytes 0x1000#32 2#32) ∧
  decode (.hostCmd 0xABCDEF30#32 #v[0x0005000A#32, 0x00003000#32, 0xFF010002#32, 0x1234F800#32, 0, 0, 0, 0])
    = .ok (.drawText 10#16 5#16 0x3000#32 2#16 1#8 true 0xF800#16) ∧
  decode (.panelCmd ⟨0x2A#8, [0x00#8, 0x0A#8, 0x00#8, 0x1D#8]⟩) = .ok (.columnAddr 10#16 29#16) ∧
  decode (.panelCmd ⟨0x2B#8, [0x01#8, 0x3F#8, 0x01#8, 0x40#8]⟩) = .ok (.pageAddr 319#16 320#16) ∧
  decode (.panelCmd ⟨0x3A#8, [0x55#8]⟩) = .ok (.pixelFormat [0x55#8])

/-- R61: on an idle block the expansion of an operation, line by line, starts exactly that operation: after the argument
writes and the `GO` write it runs as the next step, while the host polls (that the next step is the operation's is the
model's choice, log 3 and log 18). The status of the operation before must have been read (R151, R161; log 32). -/
def Obligations.AssembledLinesRunTheirOperation : Prop :=
  ∀ (i : Instr) (s : State), isHostOp i = true → s.busy = false → s.resetIn = false → s.pending = [] →
    s.statusUnread = false →
    ∃ t, stepsFrom ((argWords i).length + 1) { s with host := assemble i } = .next t ∧
      t.busy = true ∧ t.host = [.poll] ∧ t.fbb = s.fbb ∧ t.hmem = s.hmem ∧ t.trace = s.trace ∧
      step t = exec i t

/-! ## Registers, status, reset (10_state.md, 70_reset_and_hazards.md) -/

/-- R34: every value the table gives. The bytes R34 leaves unspecified are free values: that a framebuffer byte nothing has
written reads as the draw `fbDraw 0 a` is the model's choice log 6, that a scratch byte does as `scrDraw 0 a` is log 7, and
that both counts are 0 at reset is log 31. -/
def Obligations.ResetLeavesTheTableValues : Prop :=
  (∀ n : Fin 8, State.reset.args[n] = 0#32) ∧ State.reset.busy = false ∧ State.reset.curOp = 0#8 ∧
  State.reset.initDone = false ∧ State.reset.fontReady = false ∧ State.reset.code = 0#8 ∧
  State.reset.sub = 0#8 ∧ State.reset.lastOpc = 0#8 ∧ State.reset.errInfo = 0#32 ∧
  State.reset.dc = true ∧ State.reset.cs = true ∧ State.reset.rst = true ∧ State.reset.inflight = 0 ∧
  (∀ a, fbByte State.reset a = Config.fbDraw 0 a) ∧ (∀ a, scrByte State.reset a = Config.scrDraw 0 a) ∧
  State.reset.scrHeld = false ∧ State.reset.trace = []

/-- R16: the fields of `STATUS`, the word at reset, and that a write to it is ignored. -/
def Obligations.StatusWordLayout : Prop :=
  (∀ s : State,
    (statusWord s).getLsbD 0 = s.busy ∧ (statusWord s).getLsbD 1 = s.initDone ∧
    (statusWord s).getLsbD 2 = s.fontReady ∧ (statusWord s).getLsbD 3 = s.dc ∧
    (statusWord s).getLsbD 4 = s.rst ∧ (statusWord s).getLsbD 5 = s.cs ∧
    (statusWord s).extractLsb' 6 2 = 0#2 ∧ (statusWord s).extractLsb' 8 8 = s.code ∧
    (statusWord s).extractLsb' 16 8 = s.sub ∧ (statusWord s).extractLsb' 24 8 = s.lastOpc) ∧
  statusWord State.reset = 0x00000038#32 ∧
  ∀ (s : State) (v : Word), hostWrite s 0x24 4 v = .next s

/-- R14, R15, R16, R17, R18, R46: a read of a register returns its value, joins the values read and changes nothing else of
the block, whether an operation runs or not, and in reset too but for STATUS (whose reading there is R166's); that a STATUS read on an idle block has shown the last operation's status is noted in the model's own field
(R151, R161; log 32). -/
def Obligations.RegisterReads : Prop :=
  ∀ s : State,
    (∀ n : Fin 8, hostRead s (4 * n.val) 4 = .next { s with reads := s.reads ++ [s.args[n]] }) ∧
    hostRead s 0x20 4 = .next { s with reads := s.reads ++ [0#32] } ∧
    (s.resetIn = false → hostRead s 0x24 4 =
      .next { s with reads := s.reads ++ [statusWord s], statusUnread := s.statusUnread && s.busy }) ∧
    hostRead s 0x28 4 = .next { s with reads := s.reads ++ [s.errInfo] } ∧
    ∀ k, 11 ≤ k → k < 64 → hostRead s (4 * k) 4 = .next { s with reads := s.reads ++ [0#32] }

/-- R14, R15, R16, R17, R18, R20, R171: what a register write does while the block is idle (a write to `STATUS` and
`ERR_INFO` is ignored, R16, R17). A `GO` write whose host has not read the last status or not written an argument word of
its operation is refused (R161; log 32). The counter `ops` is the model's own (log 9, log 31), and so are `argsWritten`,
`statusUnread` (log 32) and `awaiting` (log 33). That the `GO` write itself clears INIT_DONE when it starts INIT, which R20's
list does not name, is the model's deduction from R21, R171 and V-IN5 (log 3). -/
def Obligations.IdleRegisterWrites : Prop :=
  ∀ (s : State) (v : Word), s.resetIn = false → s.busy = false →
    (∀ n : Fin 8, hostWrite s (4 * n.val) 4 v = .next { s with
      args := s.args.set n.val v n.isLt, argsWritten := s.argsWritten.set n.val true n.isLt }) ∧
    (s.statusUnread = false →
      (∀ i, decode (.hostCmd v s.args) = .ok i → ∀ n : Fin 8, n.val < (argWords i).length → s.argsWritten[n] = true) →
      hostWrite s 0x20 4 v = .next { s with
        busy := true, curOp := v.extractLsb' 0 8, lastOpc := v.extractLsb' 0 8,
        code := 0#8, sub := 0#8, errInfo := 0#32, ops := s.ops + 1,
        initDone := if v.extractLsb' 0 8 = 0x04#8 then false else s.initDone,
        statusUnread := true, awaiting := true }) ∧
    (s.statusUnread = true → hostWrite s 0x20 4 v = .refused .statusUnread) ∧
    (s.statusUnread = false →
      (∃ i, decode (.hostCmd v s.args) = .ok i ∧
        ∃ n : Fin 8, n.val < (argWords i).length ∧ s.argsWritten[n] = false) →
      hostWrite s 0x20 4 v = .refused (.argumentUnwritten (v.extractLsb' 0 8))) ∧
    ∀ k, 9 ≤ k → k < 64 → hostWrite s (4 * k) 4 v = .next s

/-- R19: while an operation runs, writes to the argument registers and to `GO` change nothing, and reads of `STATUS` and
`ERR_INFO` return the current values. -/
def Obligations.BusyWritesAreIgnored : Prop :=
  ∀ (s : State) (v : Word), s.busy = true →
    (∀ n : Fin 8, hostWrite s (4 * n.val) 4 v = .next s) ∧ hostWrite s 0x20 4 v = .next s ∧
    (s.resetIn = false →
      hostRead s 0x24 4 = .next { s with reads := s.reads ++ [statusWord s] } ∧
      hostRead s 0x28 4 = .next { s with reads := s.reads ++ [s.errInfo] })

/-- R31: the framebuffer window, byte by byte, and its writes. A framebuffer byte read while an operation runs is a byte
of a free word (log 5). That a byte past the framebuffer reads 0 while an operation runs too, and draws nothing, is the
model's choice (log 21). Reset changes nothing here: R166 and U5 leave STATUS alone unspecified (log 19). That an access which straddles the framebuffer's end is read byte by byte, each byte by its own rule,
is the model's deduction (log 21). -/
def Obligations.FramebufferWindow : Prop :=
  ∀ (s : State) (a width : Nat) (v : Word), (width = 1 ∨ width = 2 ∨ width = 4) → a + width ≤ 0x40000 →
    hostWrite s (0x40000 + a) width v = .next s ∧
    ∃ w d, hostRead s (0x40000 + a) width = .next { s with reads := s.reads ++ [w], draws := d } ∧
      (s.busy = false → d = s.draws ∧
        ∀ k, k < width → w.extractLsb' (8 * k) 8 = if a + k < 153600 then fbByte s (a + k) else 0#8) ∧
      (s.busy = true → d = (if a < 153600 then (drawWord s.draws).2 else s.draws) ∧
        ∀ k, k < width → w.extractLsb' (8 * k) 8 =
          if a + k < 153600 then (drawWord s.draws).1.extractLsb' (8 * k) 8 else 0#8) ∧
      ∀ k, width ≤ k → k < 4 → w.extractLsb' (8 * k) 8 = 0#8

/-- R18, R31, R44, R47: register accesses of a width or alignment outside the contract are refused; the hole reads 0 and
ignores writes, whether an operation runs or not; a write above register space is ignored in every width. The model's own
(log 21): that the hole is read in widths 1, 2 and 4 at any alignment, R47 stating none, and that a read of another width is
refused (DESIGN CHOICE); that a read across the hole's end is byte by byte, each byte by its own rule (DEDUCED); that an
access past the block's last address is a fault (DESIGN CHOICE). -/
def Obligations.AccessesOutsideTheContract : Prop :=
  ∀ (s : State) (off width : Nat) (v : Word),
    (off < 0x100 → (width ≠ 4 ∨ off % 4 ≠ 0) →
      hostWrite s off width v = .refused (.accessForm off width) ∧
      hostRead s off width = .refused (.accessForm off width)) ∧
    (0x100 ≤ off → off + width ≤ 0x80000 → hostWrite s off width v = .next s) ∧
    (0x100 ≤ off → 0x80000 < off + width → hostWrite s off width v = .fault (.outsideBlock off)) ∧
    (0x100 ≤ off → (width = 1 ∨ width = 2 ∨ width = 4) → off + width ≤ 0x40000 →
      hostRead s off width = .next { s with reads := s.reads ++ [0#32] }) ∧
    (0x100 ≤ off → (width = 1 ∨ width = 2 ∨ width = 4) → off < 0x40000 → 0x40000 < off + width →
      ∃ w, hostRead s off width = .next { s with
          reads := s.reads ++ [w], draws := if s.busy then (drawWord s.draws).2 else s.draws } ∧
        (∀ k, k < width → w.extractLsb' (8 * k) 8 =
          if off + k < 0x40000 then 0#8
          else if s.busy then (drawWord s.draws).1.extractLsb' (8 * k) 8 else fbByte s (off + k - 0x40000)) ∧
        ∀ k, width ≤ k → k < 4 → w.extractLsb' (8 * k) 8 = 0#8) ∧
    (0x100 ≤ off → (width = 1 ∨ width = 2 ∨ width = 4) → 0x80000 < off + width →
      hostRead s off width = .fault (.outsideBlock off)) ∧
    (0x100 ≤ off → width ≠ 1 → width ≠ 2 → width ≠ 4 → hostRead s off width = .refused (.accessForm off width))

/-- R39, R53, R175: a host store changes the one byte it names and nothing else, on an idle block, in reset, and while an
operation runs that does not name the byte; a byte the running operation names may not change, and the model refuses the
store (log 28). -/
def Obligations.HostStoreChangesOneByte : Prop :=
  ∀ (s : State) (addr : Word) (b : Byte),
    ((s.busy = false ∨ s.resetIn = true) → StoresOneByte s addr b) ∧
    ((∀ src len, decode (.hostCmd (s.curOp.setWidth 32) s.args) = .ok (.xferBytes src len) →
        addr.toNat < src.toNat ∨ src.toNat + len.toNat ≤ addr.toNat) →
      (∀ x y iw ih src, decode (.hostCmd (s.curOp.setWidth 32) s.args) = .ok (.blit x y iw ih src) →
        addr.toNat < src.toNat ∨ src.toNat + 2 * iw.toNat * ih.toNat ≤ addr.toNat) →
      (∀ xc y str n sp norm color,
        decode (.hostCmd (s.curOp.setWidth 32) s.args) = .ok (.drawText xc y str n sp norm color) →
        addr.toNat < str.toNat ∨ str.toNat + n.toNat ≤ addr.toNat) →
      StoresOneByte s addr b) ∧
    (s.busy = true → s.resetIn = false →
      (∀ src len, decode (.hostCmd (s.curOp.setWidth 32) s.args) = .ok (.xferBytes src len) →
        src.toNat ≤ addr.toNat → addr.toNat < src.toNat + len.toNat →
        hostStore s addr b = .refused (.hostMemoryChanged addr.toNat)) ∧
      (∀ x y iw ih src, decode (.hostCmd (s.curOp.setWidth 32) s.args) = .ok (.blit x y iw ih src) →
        src.toNat ≤ addr.toNat → addr.toNat < src.toNat + 2 * iw.toNat * ih.toNat →
        hostStore s addr b = .refused (.hostMemoryChanged addr.toNat)) ∧
      ∀ xc y str n sp norm color,
        decode (.hostCmd (s.curOp.setWidth 32) s.args) = .ok (.drawText xc y str n sp norm color) →
        str.toNat ≤ addr.toNat → addr.toNat < str.toNat + n.toNat →
        hostStore s addr b = .refused (.hostMemoryChanged addr.toNat))

/-- R60: a POLL line reads STATUS and goes on when BUSY reads 0; while an operation runs it stays. That the operation has the
next turn while the host polls is the model's choice log 18, and that a POLL adds nothing to the values read is log 22; a
POLL done has shown the last operation's status (log 32) and started no operation (log 33), in the model's own fields. -/
def Obligations.PollWaitsForIdle : Prop :=
  ∀ (s : State) (rest : List HostOp), s.host = .poll :: rest → s.resetIn = false →
    (s.busy = false → step s = .next { s with host := rest, statusUnread := false, awaiting := false }) ∧
    (s.busy = true → step s = runSequencer s ∧ ∀ t, hostTurn s = .next t → t = s)

/-- R166, R34, R168: releasing an asserted reset gives the block its reset values in one step, makes the panel unknown, and
leaves the parameters and the host as they are (that the unknown panel is a fresh epoch's free values is log 15; the model's
own fields are log 19's, log 31's, log 32's and log 33's); while it is asserted register writes have no effect, and a read of
STATUS returns a free value (U5; log 5) and does not count as reading a status (log 32). -/
def Obligations.PlatformReset : Prop :=
  ∀ (s : State) (rest : List HostOp), s.resetIn = true →
    (∀ (n : Fin 8) (v : Word), hostWrite s (4 * n.val) 4 v = .next s) ∧
    (∀ v : Word, hostWrite s 0x20 4 v = .next s) ∧
    hostRead s 0x24 4 =
      .next { s with reads := s.reads ++ [(drawWord s.draws).1], draws := (drawWord s.draws).2 } ∧
    ∃ t, step { s with host := .releaseReset :: rest } = .next t ∧
      t = { State.reset with
        panel := Panel.unknown (s.panel.epoch + 1), cfg := s.cfg, draws := s.draws, era := s.era + 1, ops := s.ops,
        host := rest, reads := s.reads, hmem := s.hmem }

/-- R166, R164: a reset asserted while an operation runs abandons it at a drawn cut: the events before the cut are in the
trace and reached the panel, the transaction in flight delivered a prefix of its bytes (a cut at a line change or a wait
delivers none), and no later one is issued while the reset lasts: from every state in reset every step but the one that takes
the release leaves the trace, the panel and the reset as they are. That the transaction in flight adds no event, that a cut
may come after the last event, and that the other fields keep their values until the release is log 19; the observer is the
spec's general knowledge (log 13). -/
def Obligations.ResetAbandonsTheOperation : Prop :=
  (∀ (i : Instr) (s t : State) (rest : List HostOp),
    s.busy = true → s.resetIn = false → s.pending = [] → s.host = .assertReset :: rest →
    decode (.hostCmd (s.curOp.setWidth 32) s.args) = .ok i →
    exec i { s with host := rest, awaiting := false, draws := (drawCut s.draws).2 } = .next t →
    ∃ (new : List Event) (u : State), t.trace = s.trace ++ new ∧ hostTurn s = .next u ∧
      u = { s with
        host := rest, awaiting := false, resetIn := true, draws := t.draws,
        trace := s.trace ++ new.take (drawCut s.draws).1.events, panel := u.panel } ∧
      (new.length ≤ (drawCut s.draws).1.events → u.panel = t.panel) ∧
      (∀ dc L ok, new[(drawCut s.draws).1.events]? = some (.txn dc L ok) →
        u.panel = (s.panel.takeEvents (new.take (drawCut s.draws).1.events)).receive dc
          (L.take (drawCut s.draws).1.bytes)) ∧
      (∀ level, new[(drawCut s.draws).1.events]? = some (.rstLine level) →
        u.panel = s.panel.takeEvents (new.take (drawCut s.draws).1.events)) ∧
      ∀ name time, new[(drawCut s.draws).1.events]? = some (.wait name time) →
        u.panel = s.panel.takeEvents (new.take (drawCut s.draws).1.events)) ∧
  ∀ u v : State, u.resetIn = true → u.host.head? ≠ some .releaseReset → step u = .next v →
    v.trace = u.trace ∧ v.panel = u.panel ∧ v.resetIn = true

/-- R20, R55, R59: on the sequencer's turn the step is the decoded instruction's meaning; a reserved opcode ends the operation
with ILLEGAL_OP; a pending panel command of an INIT under way runs as its decoding says, INIT ends with its last one, and a
pending entry that is no panel command is refused (log 17). That one step is the whole operation is the model's deduction
(log 3); that the sequencer has the turn while the host only waits, and when a draw says so while the host has an access to
make, and that the host has it otherwise, is the model's choice (log 18). -/
def Obligations.StepRunsTheDecodedInstruction : Prop :=
  ∀ s : State, s.busy = true → s.resetIn = false →
    (∀ u, sequencerTurn s = some u →
      (s.pending = [] →
        (∀ i, decode (.hostCmd (s.curOp.setWidth 32) s.args) = .ok i → step s = exec i u) ∧
        ∀ e, decode (.hostCmd (s.curOp.setWidth 32) s.args) = .error e → step s = .next (illegalOp u)) ∧
      ∀ c rest, s.pending = c :: rest →
        (∀ i, decode (.panelCmd c) = .ok i → step s = afterPanel (exec i { u with pending := rest })) ∧
        ∀ e, decode (.panelCmd c) = .error e → step s = .refused (.pendingUndecodable c)) ∧
    (hostReady s = false → sequencerTurn s = some s) ∧
    (hostReady s = true → (drawTurn s.draws).1 = .sequencer →
      sequencerTurn s = some { s with draws := (drawTurn s.draws).2 }) ∧
    (hostReady s = true → (drawTurn s.draws).1 = .host →
      sequencerTurn s = none ∧ step s = hostTurn { s with draws := (drawTurn s.draws).2 })

/-- R59: a reserved opcode reads no argument, touches no framebuffer byte, issues no bus event and ends at once with
ILLEGAL_OP, whether the host only waits or has an access to make and the draw gives the sequencer the turn (log 18), which
takes that draw and changes nothing else. That CUR_OP keeps its value is the model's deduction (log 29). -/
def Obligations.ReservedOpcodeEndsWithIllegalOp : Prop :=
  ∀ s u : State, s.busy = true → s.resetIn = false → s.pending = [] → sequencerTurn s = some u →
    s.curOp ∉ [0x01#8, 0x02#8, 0x03#8, 0x04#8, 0x10#8, 0x11#8, 0x12#8, 0x20#8, 0x21#8, 0x30#8] →
    ∃ t : State, (∀ a : Vector Word 8, step { s with args := a } = .next { t with args := a }) ∧
      t.code = 6#8 ∧ t.sub = 0#8 ∧ t.errInfo = 0#32 ∧ t.busy = false ∧ t.scrHeld = false ∧
      t.fbb = s.fbb ∧ t.trace = s.trace ∧ t.panel = s.panel ∧
      t.draws = (if hostReady s then (drawTurn s.draws).2 else s.draws) ∧ t.curOp = s.curOp ∧
      t.lastOpc = s.lastOpc ∧ t.initDone = s.initDone ∧ t.fontReady = s.fontReady ∧ t.dc = s.dc ∧ t.cs = s.cs ∧
      t.rst = s.rst ∧ t.inflight = s.inflight ∧ t.hmem = s.hmem ∧ t.host = s.host

/-- R167: an idle block without a host access to serve does nothing (log 2). -/
def Obligations.IdleBlockDoesNothing : Prop :=
  ∀ s : State, s.busy = false → s.resetIn = false → s.host = [] → step s = .next s

/-- R62, R108, R119, R120: the pseudo-operations' expansions, SEND_CMD_PAYLOAD's for `n ≥ 1` only; FILL_SCREEN runs as FILL_ALL
and SEND_FULL as SEND_ALL, with the same framebuffer, trace and everything else. -/
def Obligations.PseudoOperationsExpand : Prop :=
  expandPseudo .clear = some [.fillAll 0x0000#16] ∧
  (∀ (c : Half) (s : State), ∃ i, expandPseudo (.fillScreen c) = some [i] ∧
    i = .fillRegion 0#16 0#16 240#16 320#16 c ∧ exec i s = exec (.fillAll c) s) ∧
  (∀ s : State, ∃ i, expandPseudo .sendFull = some [i] ∧
    i = .sendRegion 0#16 0#16 240#16 320#16 ∧ exec i s = exec .sendAll s) ∧
  ∀ (op : Byte) (addr n : Word),
    (1 ≤ n.toNat → expandPseudo (.sendCmdPayload op addr n) = some [.sendCmd op, .xferBytes addr n]) ∧
    (n.toNat = 0 → expandPseudo (.sendCmdPayload op addr n) = none)

/-! ## Transport (40_transport.md) -/

/-- R73, R39: XFER_BYTES sends the named host bytes, lowest address first, as one data transaction, and ends as the bus
answers. -/
def Obligations.XferBytesSendsTheRun : Prop :=
  ∀ (addr len : Word) (s : State), s.dc = true → 1 ≤ len.toNat → len.toNat ≤ s.cfg.maxXfer →
    addr.toNat + len.toNat ≤ 4294967296 →
    exec (.xferBytes addr len) s = .next (endWith (runActs
      [.txn true ((List.range' addr.toNat len.toNat).map (hostByte s))] s))

/-- R73, R148: an empty run is ZERO_LENGTH and one over the ceiling OVERSIZE, with no bus event and nothing else changed;
a run that passes the end of host memory is refused (R39), after those checks (log 27). -/
def Obligations.XferBytesErrors : Prop :=
  ∀ (addr len : Word) (s : State),
    (len.toNat = 0 → exec (.xferBytes addr len) s = .next (s.endOp 1#8 1#8 0#32)) ∧
    (len.toNat ≠ 0 → s.cfg.maxXfer < len.toNat → exec (.xferBytes addr len) s = .next (s.endOp 1#8 3#8 0#32)) ∧
    (1 ≤ len.toNat → len.toNat ≤ s.cfg.maxXfer → 4294967296 < addr.toNat + len.toNat →
      exec (.xferBytes addr len) s = .refused (.hostRange addr.toNat len.toNat))

/-- R74, R77: SEND_CMD sends any byte as one command transaction; `DC` is 1 afterwards whatever the bus answers. -/
def Obligations.SendCmdSendsOneCommandByte : Prop :=
  ∀ (b : Byte) (s : State),
    exec (.sendCmd b) s = .next (endWith (runActs [.txn false [b]] s)) ∧
    ∀ t, exec (.sendCmd b) s = .next t → t.dc = true ∧ t.busy = false

/-- R75, R76: SEND_DATA sends the byte as one data transaction. A ceiling of 0 bytes, which R117 excludes, would make it
OVERSIZE (log 11). -/
def Obligations.SendDataSendsOneDataByte : Prop :=
  ∀ (b : Byte) (s : State),
    (1 ≤ s.cfg.maxXfer → exec (.sendData b) s = .next (endWith (runActs [.txn true [b]] s))) ∧
    (s.cfg.maxXfer = 0 → exec (.sendData b) s = .next (s.endOp 1#8 3#8 0#32))

/-- R72, R79: acts with every transaction answered OK are all issued, in order, with their bytes in the trace, and the
machine changes only as transactions change it. -/
def Obligations.AnsweredActsAreAllIssued : Prop :=
  ∀ (L : List (Bool × List Byte)) (s : State), s.allOk L.length →
    (runActs (L.map fun x => .txn x.1 x.2) s).1 = none ∧
    (runActs (L.map fun x => .txn x.1 x.2) s).2.trace = s.trace ++ L.map (fun x => .txn x.1 x.2 true) ∧
    BusOnly s (runActs (L.map fun x => .txn x.1 x.2) s).2

/-- R63: every transaction an instruction issues is a command transaction of one byte or a data transaction of 1 to
`MAX_XFER` bytes; events are only added to the trace, at its end (R29, R49). -/
def Obligations.EveryTransactionHasWireForm : Prop :=
  ∀ (i : Instr) (s t : State), exec i s = .next t →
    ∃ new, t.trace = s.trace ++ new ∧ ∀ e ∈ new, eventFormOk s.cfg.maxXfer e = true

/-- R79: the first failed transaction is the last event of its operation, which then reports PROTOCOL/BUS_FAIL; without a
failed transaction no operation reports BUS_FAIL. -/
def Obligations.NoTransactionAfterAFailedOne : Prop :=
  ∀ (i : Instr) (s t : State), exec i s = .next t →
    ∃ new, t.trace = s.trace ++ new ∧ (∀ e ∈ new.dropLast, eventFailed e = false) ∧
      ((∃ e ∈ new, eventFailed e = true) → t.code = 1#8 ∧ t.sub = 2#8 ∧ t.busy = false) ∧
      (isHostOp i = true → (∀ e ∈ new, eventFailed e = false) → ¬ (t.code = 1#8 ∧ t.sub = 2#8))

/-- R78, R24, R25: every operation starts and ends with `DC = 1`, the lines at rest and nothing in flight. -/
def Obligations.LinesRestAfterEveryOperation : Prop :=
  ∀ (i : Instr) (s t : State), s.resting → exec i s = .next t → t.resting

/-! ## Panel protocol (41_panel_protocol.md) -/

/-- R68, R80, R82, R83, R88 to R97: each command that carries its entry's payload is sent as the command transaction and,
when the payload is not empty, one data transaction with it; the running operation goes on after OK and ends with BUS_FAIL
after a failure (that they run as commands of an INIT under way is the model's choice, log 17, and that the observer is
unknown after its failure is R170's and U23's, log 15). -/
def Obligations.PayloadCommandsSendCommandThenPayload : Prop :=
  ∀ (P : List Byte) (s : State), P.length ≤ s.cfg.maxXfer →
    exec (.nop P) s = .next (goOn (runActs (commandActs 0x00#8 P) s)) ∧
    exec (.displayInversionOff P) s = .next (goOn (runActs (commandActs 0x20#8 P) s)) ∧
    exec (.setGamma P) s = .next (goOn (runActs (commandActs 0x26#8 P) s)) ∧
    exec (.memoryAccessControl P) s = .next (goOn (runActs (commandActs 0x36#8 P) s)) ∧
    exec (.pixelFormat P) s = .next (goOn (runActs (commandActs 0x3A#8 P) s)) ∧
    exec (.frameRateControl P) s = .next (goOn (runActs (commandActs 0xB1#8 P) s)) ∧
    exec (.displayFunctionControl P) s = .next (goOn (runActs (commandActs 0xB6#8 P) s)) ∧
    exec (.power1 P) s = .next (goOn (runActs (commandActs 0xC0#8 P) s)) ∧
    exec (.power2 P) s = .next (goOn (runActs (commandActs 0xC1#8 P) s)) ∧
    exec (.vcom1 P) s = .next (goOn (runActs (commandActs 0xC5#8 P) s)) ∧
    exec (.vcom2 P) s = .next (goOn (runActs (commandActs 0xC7#8 P) s)) ∧
    exec (.positiveGammaCorrection P) s = .next (goOn (runActs (commandActs 0xE0#8 P) s)) ∧
    exec (.negativeGammaCorrection P) s = .next (goOn (runActs (commandActs 0xE1#8 P) s))

/-- R81, R84, R87: SLEEP_OUT is the command transaction and then the sleep-out wait, DISPLAY_ON and WRITE_RAM the command
transaction alone (as commands of an INIT under way, log 17). -/
def Obligations.BareCommandsSendOneByte : Prop :=
  ∀ s : State,
    exec .sleepOut s = .next (goOn (runActs [.txn false [0x11#8], .mark (.wait .slpout s.cfg.tSlpout)] s)) ∧
    exec .displayOn s = .next (goOn (runActs [.txn false [0x29#8]] s)) ∧
    exec .writeRam s = .next (goOn (runActs [.txn false [0x2C#8]] s))

/-- R85, R86, R65: COLUMN_ADDR and PAGE_ADDR are the command transaction and one data transaction of the two bounds, each
high byte first (as commands of an INIT under way, log 17). -/
def Obligations.WindowCommandsSendTheirBounds : Prop :=
  ∀ (start stop : Half) (s : State), 4 ≤ s.cfg.maxXfer →
    exec (.columnAddr start stop) s = .next (goOn (runActs
      [.txn false [0x2A#8], .txn true [hi8 start, lo8 start, hi8 stop, lo8 stop]] s)) ∧
    exec (.pageAddr start stop) s = .next (goOn (runActs
      [.txn false [0x2B#8], .txn true [hi8 start, lo8 start, hi8 stop, lo8 stop]] s))

/-- R76: a payload over the ceiling is not sent: after its command, answered OK, the operation ends with OVERSIZE, for each of
the thirteen commands with a payload. A ceiling under 4 bytes, which no reference value of R5 is, does this to the window
commands (that a panel command raises what TxData returns here is the model's deduction, log 11). As the INIT under way
fails with it, the observer becomes unknown (log 15, log 17). -/
def Obligations.OversizePayloadEndsTheOperation : Prop :=
  ∀ s : State, s.nextOk = true →
    (∀ P : List Byte, s.cfg.maxXfer < P.length →
      exec (.nop P) s = .next ((s.afterTxn false [0x00#8]).failInit errOversize) ∧
      exec (.displayInversionOff P) s = .next ((s.afterTxn false [0x20#8]).failInit errOversize) ∧
      exec (.setGamma P) s = .next ((s.afterTxn false [0x26#8]).failInit errOversize) ∧
      exec (.memoryAccessControl P) s = .next ((s.afterTxn false [0x36#8]).failInit errOversize) ∧
      exec (.pixelFormat P) s = .next ((s.afterTxn false [0x3A#8]).failInit errOversize) ∧
      exec (.frameRateControl P) s = .next ((s.afterTxn false [0xB1#8]).failInit errOversize) ∧
      exec (.displayFunctionControl P) s = .next ((s.afterTxn false [0xB6#8]).failInit errOversize) ∧
      exec (.power1 P) s = .next ((s.afterTxn false [0xC0#8]).failInit errOversize) ∧
      exec (.power2 P) s = .next ((s.afterTxn false [0xC1#8]).failInit errOversize) ∧
      exec (.vcom1 P) s = .next ((s.afterTxn false [0xC5#8]).failInit errOversize) ∧
      exec (.vcom2 P) s = .next ((s.afterTxn false [0xC7#8]).failInit errOversize) ∧
      exec (.positiveGammaCorrection P) s = .next ((s.afterTxn false [0xE0#8]).failInit errOversize) ∧
      exec (.negativeGammaCorrection P) s = .next ((s.afterTxn false [0xE1#8]).failInit errOversize)) ∧
    (∀ u : State, (u.failInit errOversize).code = 1#8 ∧ (u.failInit errOversize).sub = 3#8 ∧
      (u.failInit errOversize).errInfo = 0#32 ∧ (u.failInit errOversize).busy = false ∧
      (u.failInit errOversize).trace = u.trace) ∧
    ∀ start stop : Half, s.cfg.maxXfer < 4 →
      exec (.columnAddr start stop) s = .next ((s.afterTxn false [0x2A#8]).failInit errOversize) ∧
      exec (.pageAddr start stop) s = .next ((s.afterTxn false [0x2B#8]).failInit errOversize)

/-- R163, R98: when the bus answers OK, the panel's column or page window becomes the bounds sent, and WRITE_RAM puts the
RAM-write cursor at the window's start. The observer is the spec's general knowledge (log 13). -/
def Obligations.PanelTakesTheWindow : Prop :=
  ∀ (start stop : Half) (s t : State), 4 ≤ s.cfg.maxXfer → s.allOk 2 →
    (exec (.columnAddr start stop) s = .next t →
      t.panel.sc = start ∧ t.panel.ec = stop ∧ t.panel.sp = s.panel.sp ∧ t.panel.ep = s.panel.ep ∧
      t.panel.gram = s.panel.gram) ∧
    (exec (.pageAddr start stop) s = .next t →
      t.panel.sp = start ∧ t.panel.ep = stop ∧ t.panel.sc = s.panel.sc ∧ t.panel.ec = s.panel.ec ∧
      t.panel.gram = s.panel.gram) ∧
    (exec .writeRam s = .next t →
      t.panel.cx = s.panel.sc.toNat ∧ t.panel.cy = s.panel.sp.toNat ∧ t.panel.held = none ∧
      t.panel.gram = s.panel.gram)

/-- R102: INIT clears INIT_DONE, gives the reset pulse and the settle wait, sends the table, SLEEP_OUT, the wait and
DISPLAY_ON, and sets INIT_DONE when all were answered OK; the first failure ends it with the panel unknown (U23; log 15). A table that
breaks R101 is refused (U13), among them every table of two or more entries that lacks a group of (c); that INIT runs on the
smaller ones of R102 and 95_test_vectors.md is the model's choice (log 10). -/
def Obligations.InitReplaysTheTable : Prop :=
  ∀ s : State, s.rst = true →
    (initTableOk s.cfg = true →
      exec .init s = .next (endInit (runActs (initActs s.cfg) { s with initDone := false }))) ∧
    (initTableOk s.cfg = false → exec .init s = .refused .initTableIllFormed) ∧
    (∀ b ∈ [0xC0#8, 0xC1#8, 0xC5#8, 0xC7#8, 0x36#8, 0x3A#8, 0x26#8, 0xE0#8, 0xE1#8, 0xB1#8],
      b ∉ s.cfg.initTable.map WireCmd.op → 2 ≤ s.cfg.initTable.length → exec .init s = .refused .initTableIllFormed)

/-- R21, R102, R170: after INIT, INIT_DONE is 1 exactly when it ended OK, and a failed INIT is PROTOCOL/BUS_FAIL with `RST`
and `DC` at 1 and leaves the panel in any state: the observer is a fresh epoch of free values (U23; log 15). No other
instruction changes INIT_DONE. -/
def Obligations.InitDoneMeansInitEndedOk : Prop :=
  (∀ s t : State, s.rst = true → exec .init s = .next t →
    t.rst = true ∧ t.dc = true ∧ t.fbb = s.fbb ∧ t.fontReady = s.fontReady ∧
    ((t.initDone = true ∧ t.code = 0#8 ∧ t.sub = 0#8) ∨ (t.initDone = false ∧ t.code = 1#8 ∧ t.sub = 2#8 ∧
        ∃ k, s.panel.epoch < k ∧ t.panel = Panel.unknown k))) ∧
  ∀ (i : Instr) (s t : State), i ≠ .init → exec i s = .next t → t.initDone = s.initDone

/-! ## Framebuffer (20_memory.md, 42_framebuffer.md, 44_blit.md) -/

/-- R105: after FILL_ALL every pixel is the colour, high byte first; nothing else but the status changes. -/
def Obligations.FillAllSetsEveryPixel : Prop :=
  ∀ (color : Half) (s : State), ∃ m, exec (.fillAll color) s = .next ({ s with fbb := m }.endOp 0#8 0#8 0#32) ∧
    ∀ i,
      (i < 76800 → fbByte { s with fbb := m } (2 * i) = hi8 color ∧ fbByte { s with fbb := m } (2 * i + 1) = lo8 color ∧
        nativePixel { s with fbb := m } i = conv color) ∧
      (76800 ≤ i → fbByte { s with fbb := m } (2 * i) = fbByte s (2 * i) ∧
        fbByte { s with fbb := m } (2 * i + 1) = fbByte s (2 * i + 1))

/-- R107, R106: FILL_REGION on a legal rectangle sets every pixel of it and leaves every other pixel; nothing else but the
status changes. -/
def Obligations.FillRegionIsLocal : Prop :=
  ∀ (x1 y1 x2 y2 color : Half) (s : State), x1.toNat ≤ x2.toNat → y1.toNat ≤ y2.toNat → x2.toNat ≤ 240 →
    y2.toNat ≤ 320 →
    ∃ m, exec (.fillRegion x1 y1 x2 y2 color) s = .next ({ s with fbb := m }.endOp 0#8 0#8 0#32) ∧
      ∀ i, fbByte { s with fbb := m } (2 * i) = (if i ∈ pix x1.toNat y1.toNat x2.toNat y2.toNat then hi8 color else fbByte s (2 * i)) ∧
        fbByte { s with fbb := m } (2 * i + 1) =
          (if i ∈ pix x1.toNat y1.toNat x2.toNat y2.toNat then lo8 color else fbByte s (2 * i + 1))

/-- R103, R106, R109, R148: an inverted or out-of-bounds fill is reported, INVERTED first, with nothing written. -/
def Obligations.FillRegionErrors : Prop :=
  ∀ (x1 y1 x2 y2 color : Half) (s : State),
    ((x2.toNat < x1.toNat ∨ y2.toNat < y1.toNat) →
      exec (.fillRegion x1 y1 x2 y2 color) s = .next (s.endOp 2#8 1#8 0#32)) ∧
    (x1.toNat ≤ x2.toNat → y1.toNat ≤ y2.toNat → (240 < x2.toNat ∨ 320 < y2.toNat) →
      exec (.fillRegion x1 y1 x2 y2 color) s = .next (s.endOp 2#8 2#8 0#32))

/-- R108: FILL_ALL and FILL_REGION of the whole frame are the same, for every colour and every state. -/
def Obligations.FillAllEqualsFullFillRegion : Prop :=
  ∀ (c : Half) (s : State), exec (.fillAll c) s = exec (.fillRegion 0#16 0#16 240#16 320#16 c) s

/-- R41, R40: `Conv` is its own inverse and swaps the bytes; a stored pixel reads back, high byte at the lower address. -/
def Obligations.ConverterAndPixelLayout : Prop :=
  (∀ c : Half, conv (conv c) = c ∧ hi8 (conv c) = lo8 c ∧ lo8 (conv c) = hi8 c) ∧
  conv 0x0000#16 = 0x0000#16 ∧ conv 0xFFFF#16 = 0xFFFF#16 ∧
  ∀ (s : State) (i : Nat) (c : Half),
    fbByte (s.storePixels [(i, c)]) (2 * i) = hi8 c ∧ fbByte (s.storePixels [(i, c)]) (2 * i + 1) = lo8 c ∧
    loadPixel (s.storePixels [(i, c)]) i = c ∧ nativePixel (s.storePixels [(i, c)]) i = conv c ∧
    ∀ a, a ≠ 2 * i → a ≠ 2 * i + 1 → fbByte (s.storePixels [(i, c)]) a = fbByte s a

/-- R123, R124, R125: BLIT puts image pixel `(i, j)`, two host bytes little-endian, at `(x+i, y+j)`, which as a native word is
its byte pair swapped, and leaves every other pixel; nothing else but the status changes. -/
def Obligations.BlitIsLocal : Prop :=
  ∀ (x y iw ih : Half) (src : Word) (s : State), x.toNat + iw.toNat ≤ 240 → y.toNat + ih.toNat ≤ 320 →
    src.toNat + 2 * iw.toNat * ih.toNat ≤ 4294967296 →
    ∃ m, exec (.blit x y iw ih src) s = .next ({ s with fbb := m }.endOp 0#8 0#8 0#32) ∧
      (∀ i j, i < iw.toNat → j < ih.toNat →
        loadPixel { s with fbb := m } ((y.toNat + j) * 240 + (x.toNat + i)) =
          joinHalf (hostByte s (src.toNat + 2 * (j * iw.toNat + i) + 1)) (hostByte s (src.toNat + 2 * (j * iw.toNat + i))) ∧
        nativePixel { s with fbb := m } ((y.toNat + j) * 240 + (x.toNat + i)) =
          conv (joinHalf (hostByte s (src.toNat + 2 * (j * iw.toNat + i) + 1))
            (hostByte s (src.toNat + 2 * (j * iw.toNat + i))))) ∧
      ∀ q, q ∉ pix x.toNat y.toNat (x.toNat + iw.toNat) (y.toNat + ih.toNat) →
        fbByte { s with fbb := m } (2 * q) = fbByte s (2 * q) ∧
        fbByte { s with fbb := m } (2 * q + 1) = fbByte s (2 * q + 1)

/-- R123, R39: an image box that leaves the framebuffer is OUT_OF_BOUNDS with nothing written; an image that passes the end
of host memory is refused, after the box check (log 27). -/
def Obligations.BlitErrors : Prop :=
  ∀ (x y iw ih : Half) (src : Word) (s : State),
    ((240 < x.toNat + iw.toNat ∨ 320 < y.toNat + ih.toNat) →
      exec (.blit x y iw ih src) s = .next (s.endOp 2#8 2#8 0#32)) ∧
    (x.toNat + iw.toNat ≤ 240 → y.toNat + ih.toNat ≤ 320 → 4294967296 < src.toNat + 2 * iw.toNat * ih.toNat →
      exec (.blit x y iw ih src) s = .refused (.hostRange src.toNat (2 * iw.toNat * ih.toNat)))

/-! ## Region transmission (43_region_transmission.md) -/

/-- R116: `N_FULL` divides the pixel count, its chunks fit the ceiling, and no smaller count does; a chunk is whole
pixels. -/
def Obligations.FullFrameChunkCountIsLeast : Prop :=
  (∀ m, 2 ≤ m → 1 ≤ nFull m ∧ 76800 % nFull m = 0 ∧ 2 * 76800 / nFull m ≤ m ∧
    ∀ n, 1 ≤ n → 76800 % n = 0 → 2 * 76800 / n ≤ m → nFull m ≤ n) ∧
  nFull 4096 = 40 ∧ nFull 4092 = 40 ∧ nFull 8192 = 20 ∧ nFull 32768 = 5

/-- R117: the greedy chunks of a packed list of `P` pixels: their bytes in order are the list, each is whole pixels and
strictly under the ceiling, all but the last are `2*PMAX` bytes, and the last is not empty. -/
def Obligations.GreedyChunksCoverTheList : Prop :=
  ∀ (m : Nat) (L : List Byte) (p : Nat), 3 ≤ m → 1 ≤ p → L.length = 2 * p →
    (greedyChunks L (2 * ((m - 1) / 2))).flatten = L ∧
    (greedyChunks L (2 * ((m - 1) / 2))).length = (p + (m - 1) / 2 - 1) / ((m - 1) / 2) ∧
    (∀ C ∈ greedyChunks L (2 * ((m - 1) / 2)), 2 ≤ C.length ∧ C.length < m ∧ C.length % 2 = 0) ∧
    ∀ C ∈ (greedyChunks L (2 * ((m - 1) / 2))).dropLast, C.length = 2 * ((m - 1) / 2)

/-- R120, R119, R116, R99: SEND_ALL is the window of the whole frame and then the framebuffer in `N_FULL` equal chunks,
ending at the first failure; SEND_REGION of the whole frame is the same. -/
def Obligations.SendAllSendsWindowThenChunks : Prop :=
  ∀ s : State, 4 ≤ s.cfg.maxXfer → s.cfg.xOff + 240 ≤ 65536 → s.cfg.yOff + 320 ≤ 65536 →
    exec .sendAll s = .next (endWith (runActs
      (windowActs s.cfg 0 0 240 320 ++ chunkActs (fullChunks s (nFull s.cfg.maxXfer))) s)) ∧
    exec (.sendRegion 0#16 0#16 240#16 320#16) s = exec .sendAll s

/-- R119, R112, R113, R114, R115, R117: SEND_REGION of a strict sub-region takes the scratch, packs it, sends the window and
then the packed bytes in greedy chunks, ending at the first failure; with ALLOC_DRAW the allocator's draw is taken first. -/
def Obligations.SendRegionSendsPackedChunks : Prop :=
  ∀ (x1 y1 x2 y2 : Half) (s : State), x1.toNat < x2.toNat → y1.toNat < y2.toNat → x2.toNat ≤ 240 → y2.toNat ≤ 320 →
    ¬ (x1.toNat = 0 ∧ y1.toNat = 0 ∧ x2.toNat = 240 ∧ y2.toNat = 320) →
    4 ≤ s.cfg.maxXfer → s.cfg.xOff + 240 ≤ 65536 → s.cfg.yOff + 320 ≤ 65536 →
    (s.cfg.allocDraw = false ∨ (drawAlloc s.draws).1 = false) →
    2 * ((x2.toNat - x1.toNat) * (y2.toNat - y1.toNat)) ≤ s.cfg.scratchCap →
    exec (.sendRegion x1 y1 x2 y2) s = .next (endWith (runActs
      (windowActs s.cfg x1.toNat y1.toNat x2.toNat y2.toNat ++
        chunkActs (greedyChunks (packedBytes s x1.toNat y1.toNat x2.toNat y2.toNat) (2 * ((s.cfg.maxXfer - 1) / 2))))
      { s with draws := if s.cfg.allocDraw then (drawAlloc s.draws).2 else s.draws }))

/-- R110, R114, R119, R120, R148: the errors of SEND_REGION in their order, each with no bus event and no framebuffer change;
RESOURCE reports the requested size; with ALLOC_DRAW the allocator's draw may also fail. Both sends are refused for a ceiling
under 3 (R117, U14; log 11) and for offsets that break R70 (log 12), after those checks; at a ceiling of 3 the window's first
payload does not fit and the send ends after its first command, with OVERSIZE when the bus took it (log 11). -/
def Obligations.SendRegionErrors : Prop :=
  ∀ (x1 y1 x2 y2 : Half) (s : State),
    ((x2.toNat < x1.toNat ∨ y2.toNat < y1.toNat) →
      exec (.sendRegion x1 y1 x2 y2) s = .next (s.endOp 2#8 1#8 0#32)) ∧
    (x1.toNat ≤ x2.toNat → y1.toNat ≤ y2.toNat → (240 < x2.toNat ∨ 320 < y2.toNat) →
      exec (.sendRegion x1 y1 x2 y2) s = .next (s.endOp 2#8 2#8 0#32)) ∧
    (x1.toNat ≤ x2.toNat → y1.toNat ≤ y2.toNat → x2.toNat ≤ 240 → y2.toNat ≤ 320 →
      (x1.toNat = x2.toNat ∨ y1.toNat = y2.toNat) →
      exec (.sendRegion x1 y1 x2 y2) s = .next (s.endOp 2#8 3#8 0#32)) ∧
    (x1.toNat < x2.toNat → y1.toNat < y2.toNat → x2.toNat ≤ 240 → y2.toNat ≤ 320 →
      ¬ (x1.toNat = 0 ∧ y1.toNat = 0 ∧ x2.toNat = 240 ∧ y2.toNat = 320) →
      3 ≤ s.cfg.maxXfer → s.cfg.xOff + 240 ≤ 65536 → s.cfg.yOff + 320 ≤ 65536 →
      (s.cfg.scratchCap < 2 * ((x2.toNat - x1.toNat) * (y2.toNat - y1.toNat)) →
        exec (.sendRegion x1 y1 x2 y2) s = .next (s.endOp 3#8 0#8
          (BitVec.ofNat 32 (2 * ((x2.toNat - x1.toNat) * (y2.toNat - y1.toNat)))))) ∧
      (2 * ((x2.toNat - x1.toNat) * (y2.toNat - y1.toNat)) ≤ s.cfg.scratchCap → s.cfg.allocDraw = true →
        (drawAlloc s.draws).1 = true →
        exec (.sendRegion x1 y1 x2 y2) s = .next ({ s with draws := (drawAlloc s.draws).2 }.endOp 3#8 0#8
          (BitVec.ofNat 32 (2 * ((x2.toNat - x1.toNat) * (y2.toNat - y1.toNat)))))) ∧
      (2 * ((x2.toNat - x1.toNat) * (y2.toNat - y1.toNat)) ≤ s.cfg.scratchCap →
        (s.cfg.allocDraw = false ∨ (drawAlloc s.draws).1 = false) → s.cfg.maxXfer = 3 →
        exec (.sendRegion x1 y1 x2 y2) s =
          .next (windowCut { s with draws := if s.cfg.allocDraw then (drawAlloc s.draws).2 else s.draws }))) ∧
    (x1.toNat < x2.toNat → y1.toNat < y2.toNat → x2.toNat ≤ 240 → y2.toNat ≤ 320 →
      (s.cfg.maxXfer < 3 → exec (.sendRegion x1 y1 x2 y2) s = .refused .ceilingTooSmall) ∧
      (3 ≤ s.cfg.maxXfer → (65536 < s.cfg.xOff + 240 ∨ 65536 < s.cfg.yOff + 320) →
        exec (.sendRegion x1 y1 x2 y2) s = .refused .offsetTooLarge)) ∧
    (s.cfg.maxXfer < 3 → exec .sendAll s = .refused .ceilingTooSmall) ∧
    (3 ≤ s.cfg.maxXfer → (65536 < s.cfg.xOff + 240 ∨ 65536 < s.cfg.yOff + 320) →
      exec .sendAll s = .refused .offsetTooLarge) ∧
    (s.cfg.maxXfer = 3 → s.cfg.xOff + 240 ≤ 65536 → s.cfg.yOff + 320 ≤ 65536 →
      exec .sendAll s = .next (windowCut s) ∧
      exec (.sendRegion 0#16 0#16 240#16 320#16) s = .next (windowCut s))

/-- R121: when SEND_REGION or SEND_ALL ends OK, its trace is the five window transactions and then data transactions whose
bytes in order are exactly the rectangle's packed bytes, `2 * wp * hp` of them, each transaction at most the ceiling, and
strictly under it on the sub-region path. -/
def Obligations.SendAccountsForEveryByte : Prop :=
  ∀ (x1 y1 x2 y2 : Half) (s t : State),
    (exec (.sendRegion x1 y1 x2 y2) s = .next t ∨
      (exec .sendAll s = .next t ∧ x1 = 0#16 ∧ y1 = 0#16 ∧ x2 = 240#16 ∧ y2 = 320#16)) → t.code = 0#8 →
    ∃ (window : List Event) (chunks : List (List Byte)), t.trace = s.trace ++ window ++ chunks.map (fun C => .txn true C true) ∧
      window.length = 5 ∧ window.getLast? = some (.txn false [0x2C#8] true) ∧
      chunks.flatten = packedBytes s x1.toNat y1.toNat x2.toNat y2.toNat ∧
      (chunks.map List.length).sum = (x2.toNat - x1.toNat) * (y2.toNat - y1.toNat) * 2 ∧
      (∀ C ∈ chunks, C.length ≤ s.cfg.maxXfer) ∧
      (¬ (x1.toNat = 0 ∧ y1.toNat = 0 ∧ x2.toNat = 240 ∧ y2.toNat = 320) → ∀ C ∈ chunks, C.length < s.cfg.maxXfer)

/-! ## Text (45_glyph_rasterizer.md) -/

/-- R132: the combiner's four cases with the rule's examples; a blended colour's channels are the base's scaled and floored (R131), and each stays in
its field. -/
def Obligations.CombinerBlendsChannels : Prop :=
  combine 128#8 0xFFFF#16 = some 0x7BEF#16 ∧ combine 128#8 0x0000#16 = some 0x7BEF#16 ∧
  combine 1#8 0x0000#16 = some 0xF7DE#16 ∧ combine 1#8 0xFFFF#16 = some 0x0000#16 ∧
  combine 200#8 0x001F#16 = some 0x0018#16 ∧
  ∀ (shade : Byte) (tc : Half),
    (shade = 0#8 → combine shade tc = none) ∧
    (shade = 255#8 → combine shade tc = some tc) ∧
    (shade ≠ 0#8 → shade ≠ 255#8 → ∃ c, combine shade tc = some c ∧
      (tc = 0x0000#16 → rch c = 31 * (255 - shade.toNat) / 255 ∧ gch c = 63 * (255 - shade.toNat) / 255 ∧
        bch c = 31 * (255 - shade.toNat) / 255) ∧
      (tc ≠ 0x0000#16 → rch c = rch tc * shade.toNat / 255 ∧ gch c = gch tc * shade.toNat / 255 ∧
        bch c = bch tc * shade.toNat / 255))

/-- R131: `Scale` is the exact product, then the floor; it fits the field, and scaling a channel in place and masking it
back into its bit position is the same. -/
def Obligations.ScaleEqualsMaskedProduct : Prop :=
  ∀ ch k p n : Nat, ch < 2 ^ n → k ≤ 255 →
    255 * scale ch k ≤ ch * k ∧ ch * k < 255 * (scale ch k + 1) ∧ scale ch k ≤ ch ∧
    ((ch * 2 ^ p * k / 255) &&& ((2 ^ n - 1) * 2 ^ p)) = scale ch k * 2 ^ p

/-- R137, R140, R141, R148: the early ends of DRAW_TEXT in their order: TEXT_CAPACITY, an empty string, a failed font load;
none touches the framebuffer, the trace or the font flag. -/
def Obligations.DrawTextEarlyEnds : Prop :=
  ∀ (xc y : Half) (str : Word) (n : Half) (sp : Byte) (norm : Bool) (color : Half) (s : State),
    (s.cfg.maxChars < n.toNat →
      exec (.drawText xc y str n sp norm color) s = .next (s.endOp 2#8 4#8 0#32)) ∧
    (n.toNat = 0 → exec (.drawText xc y str n sp norm color) s = .next (s.endOp 0#8 0#8 0#32)) ∧
    (1 ≤ n.toNat → n.toNat ≤ s.cfg.maxChars → s.fontReady = false → (drawLoad s.draws).1 = false →
      exec (.drawText xc y str n sp norm color) s =
        .next ({ s with draws := (drawLoad s.draws).2 }.endOp 5#8 0#8 0#32))

/-- R138, R136, R140, R141, R148: past the load, which the call may have made itself, an unknown code is UNKNOWN_CHAR and a
text box outside the framebuffer OUT_OF_BOUNDS, with nothing painted and `FONT_READY` at 1; an ill-formed font is refused
(R126), after the load (log 23), and so is a string that passes the end of host memory (R39), after that (log 27). -/
def Obligations.DrawTextBoundsErrors : Prop :=
  ∀ (xc y : Half) (str : Word) (n : Half) (sp : Byte) (norm : Bool) (color : Half) (s : State),
    1 ≤ n.toNat → n.toNat ≤ s.cfg.maxChars → (s.fontReady = true ∨ (drawLoad s.draws).1 = true) →
    (fontWf s.cfg.font = false → exec (.drawText xc y str n sp norm color) s = .refused .fontIllFormed) ∧
    (fontWf s.cfg.font = true → 4294967296 < str.toNat + n.toNat →
      exec (.drawText xc y str n sp norm color) s = .refused (.hostRange str.toNat n.toNat)) ∧
    (fontWf s.cfg.font = true → str.toNat + n.toNat ≤ 4294967296 →
      ((∃ k, k < n.toNat ∧ glyphOf s.cfg.font (hostByte s (str.toNat + k)) = none) →
        exec (.drawText xc y str n sp norm color) s = .next ({ s with
          fontReady := true,
          draws := if s.fontReady then s.draws else (drawLoad s.draws).2 }.endOp 2#8 5#8 0#32)) ∧
      ∀ ci, charInfos s.cfg.font norm ((List.range' str.toNat n.toNat).map (hostByte s)) = some ci →
        (textStart xc.toNat (textWidth ci sp.toNat) < 0 ∨
          240 < textStart xc.toNat (textWidth ci sp.toNat) + textWidth ci sp.toNat ∨
          320 < y.toNat + s.cfg.font.fh) →
        exec (.drawText xc y str n sp norm color) s = .next ({ s with
          fontReady := true,
          draws := if s.fontReady then s.draws else (drawLoad s.draws).2 }.endOp 2#8 2#8 0#32))

/-- R141, R139, R133, R134, R135: a string whose codes are all known and whose box is inside the framebuffer is painted:
each glyph pixel becomes the combined colour or, at shade 0, keeps its value; every pixel that is no glyph pixel keeps its
value; nothing else but the status, the font flag and its draw changes. -/
def Obligations.DrawTextPaintsItsGlyphs : Prop :=
  ∀ (xc y : Half) (str : Word) (n : Half) (sp : Byte) (norm : Bool) (color : Half) (s : State) (ci : List CharInfo),
    1 ≤ n.toNat → n.toNat ≤ s.cfg.maxChars → (s.fontReady = true ∨ (drawLoad s.draws).1 = true) →
    fontWf s.cfg.font = true → str.toNat + n.toNat ≤ 4294967296 →
    charInfos s.cfg.font norm ((List.range' str.toNat n.toNat).map (hostByte s)) = some ci →
    (textWidth ci sp.toNat / 2 : Nat) ≤ xc.toNat →
    xc.toNat - textWidth ci sp.toNat / 2 + textWidth ci sp.toNat ≤ 240 → y.toNat + s.cfg.font.fh ≤ 320 →
    ∃ m, exec (.drawText xc y str n sp norm color) s = .next ({ s with
        fbb := m, fontReady := true,
        draws := if s.fontReady then s.draws else (drawLoad s.draws).2 }.endOp 0#8 0#8 0#32) ∧
      (∀ (j : Nat) (c : CharInfo) (gx gy : Nat), ci[j]? = some c → gx < c.w → gy < s.cfg.font.fh →
        loadPixel { s with fbb := m }
            (textIndex ci sp.toNat (xc.toNat - textWidth ci sp.toNat / 2) y.toNat j gx gy) =
          (combine (fontShade s.cfg.font c.xpos gx gy) color).getD
            (loadPixel s (textIndex ci sp.toNat (xc.toNat - textWidth ci sp.toNat / 2) y.toNat j gx gy))) ∧
      ∀ q, (∀ (j : Nat) (c : CharInfo) (gx gy : Nat), ci[j]? = some c → gx < c.w → gy < s.cfg.font.fh →
          q ≠ textIndex ci sp.toNat (xc.toNat - textWidth ci sp.toNat / 2) y.toNat j gx gy) →
        fbByte { s with fbb := m } (2 * q) = fbByte s (2 * q) ∧
        fbByte { s with fbb := m } (2 * q + 1) = fbByte s (2 * q + 1)

/-! ## Whole-machine rules -/

/-- R144, R122: an operation that ends with BOUNDS, RESOURCE, FONT or ILLEGAL_OP has written no framebuffer byte and issued
no bus event; one that ends with PROTOCOL, and every send, has written no framebuffer byte. -/
def Obligations.ErrorsLeaveTheFramebuffer : Prop :=
  (∀ (i : Instr) (s t : State), isHostOp i = true → exec i s = .next t →
    (t.code ∈ [2#8, 3#8, 5#8, 6#8] → t.fbb = s.fbb ∧ t.trace = s.trace ∧ t.panel = s.panel) ∧
    (t.code = 5#8 → t.fontReady = s.fontReady) ∧
    (t.code = 1#8 → t.fbb = s.fbb)) ∧
  ∀ (x1 y1 x2 y2 : Half) (s t : State),
    (exec (.sendRegion x1 y1 x2 y2) s = .next t ∨ exec .sendAll s = .next t) → t.fbb = s.fbb

/-- R143, R17, R145: an operation ends with a listed pair of `CODE` and `SUB`, never BINDING, with `ERR_INFO` 0 unless
RESOURCE, and the block idle with the scratch released (its contents and `CI` emptied, log 7 and log 8). -/
def Obligations.OperationsEndWithListedStatus : Prop :=
  ∀ (i : Instr) (s t : State), isHostOp i = true → exec i s = .next t →
    (t.code, t.sub) ∈ statusPairs ∧ t.code ≠ 4#8 ∧ (t.code ≠ 3#8 → t.errInfo = 0#32) ∧
    t.busy = false ∧ t.released

/-- R14, R20, R22, R23, R35, R36, R39, R41, R122: no instruction writes an argument register, the opcode registers, the host's
memory, the host's accesses or the parameters; FONT_READY is changed by DRAW_TEXT only, and only from 0 to 1; only FILL_ALL,
FILL_REGION, BLIT and DRAW_TEXT write the framebuffer. `era`, `ops`, `reads`, `argsWritten`, `statusUnread` and `awaiting`
are the model's own fields (log 6, log 9, log 31, log 32, log 33). That CUR_OP keeps its value when an operation ends, where R20
gives it no meaning, is the model's deduction (log 29). -/
def Obligations.OperationsLeaveTheHostSide : Prop :=
  ∀ (i : Instr) (s t : State), exec i s = .next t →
    t.args = s.args ∧ t.curOp = s.curOp ∧ t.lastOpc = s.lastOpc ∧ t.hmem = s.hmem ∧ t.host = s.host ∧
    t.reads = s.reads ∧ t.cfg = s.cfg ∧ t.era = s.era ∧ t.ops = s.ops ∧ t.resetIn = s.resetIn ∧
    t.argsWritten = s.argsWritten ∧ t.statusUnread = s.statusUnread ∧ t.awaiting = s.awaiting ∧
    (s.fontReady = true → t.fontReady = true) ∧
    ((∀ xc y str n sp norm color, i ≠ .drawText xc y str n sp norm color) → t.fontReady = s.fontReady) ∧
    (t.fbb ≠ s.fbb → ∃ c, i = .fillAll c ∨ (∃ x1 y1 x2 y2, i = .fillRegion x1 y1 x2 y2 c) ∨
      (∃ x y iw ih src, i = .blit x y iw ih src) ∨ ∃ xc y str n sp norm, i = .drawText xc y str n sp norm c)

/-- The invariant of the machine (R24, R25, R27, R28, R39, R78, R143, R150) is kept by every step, host accesses and resets
included. The canonical form and the emptied scratch and `CI` are the model's (log 6, log 7, log 8). -/
def Obligations.EveryStepKeepsTheInvariant : Prop :=
  ∀ s t : State, s.Inv → step s = .next t → t.Inv

/-- The invariant holds after reset (R24, R25, R34). That the scratch and `CI`, which R34 leaves unspecified, are empty there
and that the memories list nothing in canonical form are the model's choices log 6, log 7 and log 8. -/
def Obligations.ResetMeetsTheInvariant : Prop := State.reset.Inv

/-- R165's conclusion, without its premise of an OK INIT: a SEND_REGION that ends OK leaves in the observer's `GRAM` each pixel
of the rectangle, offset by the panel's coordinate offsets, and changes no other cell. After an OK INIT this is R165; the case
without one, where U23 allows any panel state and R169 calls it unknown, is the model's choice (log 15: a send works on the
observer as R163 says). The observer is the spec's non-normative one (log 13), which R88's orientation does not enter. -/
def Obligations.SentPixelsReachThePanel : Prop :=
  ∀ (x1 y1 x2 y2 : Half) (s t : State),
    exec (.sendRegion x1 y1 x2 y2) s = .next t → t.code = 0#8 →
    (∀ x y, x1.toNat ≤ x → x < x2.toNat → y1.toNat ≤ y → y < y2.toNat →
      t.panel.pixel (x + s.cfg.xOff) (y + s.cfg.yOff) = loadPixel s (y * 240 + x)) ∧
    ∀ col page, col < 65536 →
      (∀ x y, x1.toNat ≤ x → x < x2.toNat → y1.toNat ≤ y → y < y2.toNat →
        ¬ (col = x + s.cfg.xOff ∧ page = y + s.cfg.yOff)) →
      t.panel.pixel col page = s.panel.pixel col page
end

