-- ==== Sys2Proof/Laws/Encoding.lean ====
section
/-! SUPPORT. The bit fields of register words, read back from the words built from them: packed coordinates, opcodes in
`GO`, the DRAW_TEXT control word, the bytes of a window read and the fields of `STATUS`. -/

namespace Sys2Proof

/-- The field above `b` in `a ++ b`. -/
theorem extract_append_high {n m k w : Nat} (a : BitVec n) (b : BitVec m) :
    (a ++ b).extractLsb' (m + k) w = a.extractLsb' k w := by
  apply BitVec.eq_of_getLsbD_eq
  intro i hi
  simp only [BitVec.getLsbD_extractLsb', BitVec.getLsbD_append, hi, decide_true, Bool.true_and]
  rw [if_neg (by omega)]
  congr 1
  omega

/-- A field inside `b` in `a ++ b`. -/
theorem extract_append_low {n m k w : Nat} (a : BitVec n) (b : BitVec m) (h : k + w ≤ m) :
    (a ++ b).extractLsb' k w = b.extractLsb' k w := by
  apply BitVec.eq_of_getLsbD_eq
  intro i hi
  simp only [BitVec.getLsbD_extractLsb', BitVec.getLsbD_append, hi, decide_true, Bool.true_and]
  rw [if_pos (by omega)]

/-- The whole of a vector as a field. -/
theorem extract_whole {n : Nat} (a : BitVec n) : a.extractLsb' 0 n = a := by
  apply BitVec.eq_of_getLsbD_eq
  intro i hi
  simp [hi]

/-- The low field of a widened vector. -/
theorem extract_setWidth {n m : Nat} (a : BitVec n) (h : n ≤ m) : (a.setWidth m).extractLsb' 0 n = a := by
  apply BitVec.eq_of_getLsbD_eq
  intro i hi
  have : i < m := by omega
  simp [hi, this]

/-- A bit above `b` in `a ++ b`. -/
theorem bit_append_high {n m k : Nat} (a : BitVec n) (b : BitVec m) : (a ++ b).getLsbD (m + k) = a.getLsbD k := by
  rw [BitVec.getLsbD_append, if_neg (by omega)]
  congr 1
  omega

/-- A bit inside `b` in `a ++ b`. -/
theorem bit_append_low {n m k : Nat} (a : BitVec n) (b : BitVec m) (h : k < m) : (a ++ b).getLsbD k = b.getLsbD k := by
  rw [BitVec.getLsbD_append, if_pos h]

theorem bit_ofBool (b : Bool) : (BitVec.ofBool b).getLsbD 0 = b := by cases b <;> rfl

/-- A byte widened to a register word and read back (R55, R57). -/
@[simp] theorem byte_of_word (b : Byte) : (b.setWidth 32 : Word).extractLsb' 0 8 = b := extract_setWidth b (by decide)

@[simp] theorem loHalf_setWidth (c : Half) : loHalf (c.setWidth 32) = c := extract_setWidth c (by decide)

@[simp] theorem loHalf_packYX (y x : Half) : loHalf (packYX y x) = x := by
  unfold loHalf packYX
  rw [extract_append_low _ _ (by decide), extract_whole]

@[simp] theorem hiHalf_packYX (y x : Half) : hiHalf (packYX y x) = y :=
  (extract_append_high (k := 0) y x).trans (extract_whole y)

/-- The fields of DRAW_TEXT's `ARG[2]` (R57). -/
theorem text_word_fields (norm : Bool) (sp : Byte) (n : Half) :
    loHalf (0#7 ++ BitVec.ofBool norm ++ sp ++ n : BitVec 32) = n ∧
    (0#7 ++ BitVec.ofBool norm ++ sp ++ n : BitVec 32).extractLsb' 16 8 = sp ∧
    (0#7 ++ BitVec.ofBool norm ++ sp ++ n : BitVec 32).getLsbD 24 = norm := by
  refine ⟨?_, ?_, ?_⟩
  · unfold loHalf
    rw [extract_append_low _ _ (by decide), extract_whole]
  · exact (extract_append_high (k := 0) _ n).trans ((extract_append_low _ sp (by decide)).trans (extract_whole sp))
  · exact (bit_append_high (k := 8) _ n).trans ((bit_append_high (k := 0) _ sp).trans
      ((bit_append_low _ _ (by decide)).trans (bit_ofBool norm)))

namespace Machine

/-- The bytes of a word joined from four bytes. -/
theorem word_bytes (a b c d : Byte) :
    (d ++ c ++ b ++ a : BitVec 32).extractLsb' 0 8 = a ∧ (d ++ c ++ b ++ a : BitVec 32).extractLsb' 8 8 = b ∧
    (d ++ c ++ b ++ a : BitVec 32).extractLsb' 16 8 = c ∧ (d ++ c ++ b ++ a : BitVec 32).extractLsb' 24 8 = d := by
  refine ⟨?_, ?_, ?_, ?_⟩
  · rw [extract_append_low _ _ (by decide), extract_whole]
  · exact (extract_append_high (k := 0) _ a).trans ((extract_append_low _ b (by decide)).trans (extract_whole b))
  · exact (extract_append_high (k := 8) _ a).trans ((extract_append_high (k := 0) _ b).trans
      ((extract_append_low _ c (by decide)).trans (extract_whole c)))
  · exact (extract_append_high (k := 16) _ a).trans ((extract_append_high (k := 8) _ b).trans
      ((extract_append_high (k := 0) d c).trans (extract_whole d)))

/-- Byte `k` of a window read (R31). -/
theorem windowRead_byte (s : State) (free : Word) (offset width k : Nat) (hk : k < 4) :
    (windowRead s free offset width).extractLsb' (8 * k) 8 =
      if k < width then mapByte s (free.extractLsb' (8 * k) 8) (offset + k) else 0#8 := by
  have h := word_bytes
    (if 0 < width then mapByte s (free.extractLsb' (8 * 0) 8) (offset + 0) else 0#8)
    (if 1 < width then mapByte s (free.extractLsb' (8 * 1) 8) (offset + 1) else 0#8)
    (if 2 < width then mapByte s (free.extractLsb' (8 * 2) 8) (offset + 2) else 0#8)
    (if 3 < width then mapByte s (free.extractLsb' (8 * 3) 8) (offset + 3) else 0#8)
  match k, hk with
  | 0, _ => exact h.1
  | 1, _ => exact h.2.1
  | 2, _ => exact h.2.2.1
  | 3, _ => exact h.2.2.2

/-- `STATUS[0]` is `BUSY` (R16). -/
theorem statusWord_busy (s : State) : (statusWord s).getLsbD 0 = s.busy :=
  (bit_append_low _ _ (by decide)).trans (bit_ofBool s.busy)

@[simp] theorem statusWord_getElem_zero (s : State) : (statusWord s)[0] = s.busy := statusWord_busy s

/-- The other one-bit fields of `STATUS` (R16). -/
theorem statusWord_bits (s : State) :
    (statusWord s).getLsbD 1 = s.initDone ∧ (statusWord s).getLsbD 2 = s.fontReady ∧ (statusWord s).getLsbD 3 = s.dc ∧
    (statusWord s).getLsbD 4 = s.rst ∧ (statusWord s).getLsbD 5 = s.cs := by
  have up : ∀ (n k : Nat) (a : BitVec n) (b : Bool), (a ++ BitVec.ofBool b).getLsbD (k + 1) = a.getLsbD k := by
    intro n k a b
    have h := bit_append_high (k := k) a (BitVec.ofBool b)
    rwa [show 1 + k = k + 1 from Nat.add_comm 1 k] at h
  refine ⟨?_, ?_, ?_, ?_, ?_⟩ <;> unfold statusWord <;> (repeat rw [up]) <;>
    exact (bit_append_low _ _ (by decide)).trans (bit_ofBool _)

/-- The host has written every argument word of the operation that `GO` word `v` starts (R161). -/
theorem argumentsWritten_iff (s : State) (v : Word) :
    argumentsWritten s v = true ↔ ∀ i, decode (.hostCmd v s.args) = .ok i →
      ∀ n : Fin 8, n.val < (argWords i).length → s.argsWritten[n] = true := by
  unfold argumentsWritten
  cases hd : decode (.hostCmd v s.args) with
  | error e => simp
  | ok i =>
    simp only [Except.ok.injEq, List.all_eq_true, id_eq]
    constructor
    · rintro h j rfl n hn
      refine h _ (List.mem_take_iff_getElem.mpr ⟨n.val, ?_, ?_⟩)
      · simp only [Vector.length_toList]; omega
      · simp
    · intro h x hx
      obtain ⟨n, hn, rfl⟩ := List.mem_take_iff_getElem.mp hx
      simp only [Vector.length_toList] at hn
      have := h i rfl ⟨n, by omega⟩ (by show n < _; omega)
      simpa using this

/-- One reading of a POLL line outside reset (R60): it stays while the block is busy. -/
theorem hostPoll_eq (s : State) (rest : List HostOp) (hr : s.resetIn = false) :
    hostPoll s rest =
      if s.busy then s else { s with host := rest, statusUnread := false, awaiting := false } := by
  have h : readValue s 0x24 4 = (statusWord s, s.draws) := by simp [readValue, regRead, hr]
  simp only [hostPoll, h, statusWord_busy]
  by_cases hb : s.busy = true
  · rw [if_pos hb, if_pos hb]
  · rw [if_neg hb, if_neg hb]
    simp [showsStatus, hb, hr]

end Machine

end Sys2Proof
end

