-- ==== Sys2Proof/Laws/Memory.lean ====
section
/-! SUPPORT. What lookup, overlay and run reads do, and that every memory operation keeps the canonical form. -/

namespace Sys2Proof.Machine

variable {β : Type}

/-- Every key of a memory is at least `a`. -/
def Memory.From (a : Nat) (m : Memory β) : Prop := ∀ c ∈ m, a ≤ c.1

@[simp] theorem Memory.get?_nil (a : Nat) : Memory.get? ([] : Memory β) a = none := rfl

theorem Memory.wf_tail {c : Nat × β} {m : Memory β} (h : Memory.wf (c :: m) = true) : Memory.wf m = true := by
  cases m with
  | nil => rfl
  | cons d m => simp only [Memory.wf, Bool.and_eq_true] at h; exact h.2

theorem Memory.wf_cons_from {c : Nat × β} {m : Memory β} (h : Memory.wf (c :: m) = true) :
    Memory.From (c.1 + 1) m := by
  induction m generalizing c with
  | nil => intro d hd; cases hd
  | cons d m ih =>
    simp only [Memory.wf, Bool.and_eq_true, decide_eq_true_eq] at h
    intro e he
    rcases List.mem_cons.mp he with rfl | he
    · omega
    · have := ih h.2 e he; omega

theorem Memory.wf_cons {c : Nat × β} {m : Memory β} (hm : Memory.wf m = true) (hf : Memory.From (c.1 + 1) m) :
    Memory.wf (c :: m) = true := by
  cases m with
  | nil => rfl
  | cons d m =>
    have := hf d (List.mem_cons_self ..)
    simp only [Memory.wf, Bool.and_eq_true, decide_eq_true_eq]
    exact ⟨by omega, hm⟩

theorem Memory.get?_of_from {m : Memory β} {a b : Nat} (h : Memory.From b m) (hab : a < b) :
    Memory.get? m a = none := by
  cases m with
  | nil => rfl
  | cons c m =>
    have := h c (List.mem_cons_self ..)
    simp only [Memory.get?]
    rw [if_neg (by omega), if_neg (by omega)]

/-- A lookup after `put`: `b` at `a`, the old entry below, what `k` leaves above. -/
theorem Memory.get?_put (a : Nat) (b : β) (k : Memory β → Memory β)
    (hk : ∀ m q, a < q → Memory.get? (k m) q = (Memory.get? (k []) q).or (Memory.get? m q)) :
    ∀ (m : Memory β) (q : Nat), Memory.get? (Memory.put a b k m) q =
      if q = a then some b else if q < a then Memory.get? m q
      else (Memory.get? (k []) q).or (Memory.get? m q) := by
  intro m
  induction m with
  | nil =>
    intro q
    by_cases h1 : q = a
    · subst h1; simp [Memory.put, Memory.get?]
    · by_cases h2 : q < a
      · simp [Memory.put, Memory.get?, h1, h2, Nat.not_lt.mpr (Nat.le_of_lt h2), Ne.symm h1]
      · have h3 : a < q := by omega
        simp [Memory.put, Memory.get?, h1, h2, h3]
  | cons c m ih =>
    obtain ⟨x, d⟩ := c
    intro q
    simp only [Memory.put]
    by_cases hx : x < a
    · rw [if_pos hx]
      simp only [Memory.get?]
      by_cases hq : x < q
      · rw [if_pos hq, if_pos hq]; exact ih q
      · have h1 : q ≠ a := by omega
        have h2 : q < a := by omega
        simp [hq, h1, h2]
    · rw [if_neg hx]
      by_cases hxa : x = a
      · subst hxa
        rw [if_pos rfl]
        simp only [Memory.get?]
        by_cases hq : x < q
        · rw [if_pos hq, if_neg (by omega), if_neg (by omega), hk m q hq, if_pos hq]
        · by_cases he : q = x
          · subst he; simp
          · rw [if_neg hq, if_neg (Ne.symm he), if_neg he, if_pos (by omega), if_neg hq, if_neg (Ne.symm he)]
      · rw [if_neg hxa]
        simp only [Memory.get?]
        by_cases hq : a < q
        · rw [if_pos hq, if_neg (by omega), if_neg (by omega), hk _ q hq]
          simp only [Memory.get?]
        · by_cases he : q = a
          · subst he; simp
          · rw [if_neg hq, if_neg (Ne.symm he), if_neg he, if_pos (by omega), if_neg (by omega), if_neg (by omega)]

/-- What an overlay reads: the new cell where there is one, the old value elsewhere. -/
theorem Memory.get?_overlay {new : Memory β} (h : Memory.wf new = true) (old : Memory β) (q : Nat) :
    Memory.get? (Memory.overlay new old) q = (Memory.get? new q).or (Memory.get? old q) := by
  induction new generalizing old q with
  | nil => simp [Memory.overlay]
  | cons c new ih =>
    obtain ⟨a, b⟩ := c
    have hf := Memory.wf_cons_from h
    have ih' := ih (Memory.wf_tail h)
    have hk : ∀ m r, a < r → Memory.get? (Memory.overlay new m) r =
        (Memory.get? (Memory.overlay new []) r).or (Memory.get? m r) := by
      intro m r _
      rw [ih' m r, ih' [] r]; simp
    simp only [Memory.overlay]
    rw [Memory.get?_put a b _ hk]
    simp only [Memory.get?]
    by_cases h1 : q = a
    · subst h1; simp
    · rw [if_neg h1]
      by_cases h2 : q < a
      · rw [if_pos h2, if_neg (by omega), if_neg (Ne.symm h1)]; simp
      · rw [if_neg h2, if_pos (by omega), ih' [] q]; simp

theorem Memory.put_mem {a : Nat} {b : β} {k : Memory β → Memory β} (P : Nat × β → Prop) (hab : P (a, b))
    (hk : ∀ m, (∀ c ∈ m, P c) → ∀ c ∈ k m, P c) :
    ∀ m : Memory β, (∀ c ∈ m, P c) → ∀ c ∈ Memory.put a b k m, P c := by
  intro m
  induction m with
  | nil =>
    intro h c hc
    rcases List.mem_cons.mp hc with rfl | hc
    · exact hab
    · exact hk [] h c hc
  | cons d m ih =>
    obtain ⟨x, e⟩ := d
    intro h c hc
    have htail : ∀ c ∈ m, P c := fun c hc => h c (List.mem_cons_of_mem _ hc)
    simp only [Memory.put] at hc
    split at hc
    · rcases List.mem_cons.mp hc with rfl | hc
      · exact h _ (List.mem_cons_self ..)
      · exact ih htail c hc
    · split at hc
      · rcases List.mem_cons.mp hc with rfl | hc
        · exact hab
        · exact hk m htail c hc
      · rcases List.mem_cons.mp hc with rfl | hc
        · exact hab
        · exact hk _ h c hc

/-- What holds of every new and every old cell holds of every cell of the overlay. -/
theorem Memory.overlay_mem (P : Nat × β → Prop) {new : Memory β} (hn : ∀ c ∈ new, P c) :
    ∀ old : Memory β, (∀ c ∈ old, P c) → ∀ c ∈ Memory.overlay new old, P c := by
  induction new with
  | nil => intro old h; simpa [Memory.overlay] using h
  | cons d new ih =>
    intro old h
    exact Memory.put_mem P (hn d (List.mem_cons_self ..))
      (ih fun c hc => hn c (List.mem_cons_of_mem _ hc)) old h

theorem Memory.From.mono {a b : Nat} {m : Memory β} (h : Memory.From b m) (hab : a ≤ b) : Memory.From a m :=
  fun c hc => Nat.le_trans hab (h c hc)

theorem Memory.From.cons {a : Nat} {c : Nat × β} {m : Memory β} (hc : a ≤ c.1) (h : Memory.From a m) :
    Memory.From a (c :: m) := by
  intro d hd
  rcases List.mem_cons.mp hd with rfl | hd
  · exact hc
  · exact h d hd

theorem Memory.From.tail {a : Nat} {c : Nat × β} {m : Memory β} (h : Memory.From a (c :: m)) : Memory.From a m :=
  fun d hd => h d (List.mem_cons_of_mem _ hd)

theorem Memory.from_nil (a : Nat) : Memory.From a ([] : Memory β) := by
  intro c hc; cases hc

theorem Memory.put_wf {a : Nat} {b : β} {k : Memory β → Memory β}
    (hk : ∀ m, Memory.wf m = true → Memory.From (a + 1) m → Memory.wf (k m) = true ∧ Memory.From (a + 1) (k m)) :
    ∀ (m : Memory β) (lo : Nat), Memory.wf m = true → lo ≤ a → Memory.From lo m →
      Memory.wf (Memory.put a b k m) = true ∧ Memory.From lo (Memory.put a b k m) := by
  intro m
  induction m with
  | nil =>
    intro lo _ hlo _
    have h0 := hk [] rfl (Memory.from_nil _)
    exact ⟨Memory.wf_cons (c := (a, b)) h0.1 h0.2, (h0.2.mono (by omega)).cons hlo⟩
  | cons d m ih =>
    obtain ⟨x, e⟩ := d
    intro lo h hlo hfrom
    have hf := Memory.wf_cons_from h
    have ht := Memory.wf_tail h
    have hxlo : lo ≤ x := hfrom (x, e) (List.mem_cons_self ..)
    simp only [Memory.put]
    split
    · rename_i hx
      have h1 := ih (x + 1) ht (by omega) hf
      exact ⟨Memory.wf_cons (c := (x, e)) h1.1 h1.2, (h1.2.mono (by omega)).cons hxlo⟩
    · split
      · rename_i hx hxa
        subst hxa
        have h0 := hk m ht hf
        exact ⟨Memory.wf_cons (c := (x, b)) h0.1 h0.2, (h0.2.mono (by omega)).cons hxlo⟩
      · rename_i hx hxa
        have hfa : Memory.From (a + 1) ((x, e) :: m) :=
          (hf.mono (by show a + 1 ≤ x + 1; omega)).cons (by show a + 1 ≤ x; omega)
        have h0 := hk _ h hfa
        exact ⟨Memory.wf_cons (c := (a, b)) h0.1 h0.2, (h0.2.mono (by omega)).cons hlo⟩

theorem Memory.overlay_wf_from {new : Memory β} (hn : Memory.wf new = true) :
    ∀ (old : Memory β) (lo : Nat), Memory.From lo new → Memory.wf old = true → Memory.From lo old →
      Memory.wf (Memory.overlay new old) = true ∧ Memory.From lo (Memory.overlay new old) := by
  induction new with
  | nil => intro old lo _ h hf; exact ⟨h, hf⟩
  | cons d new ih =>
    intro old lo hnew h hf
    exact Memory.put_wf (fun m hm hfm => ih (Memory.wf_tail hn) m (d.1 + 1) (Memory.wf_cons_from hn) hm hfm)
      old lo h (hnew d (List.mem_cons_self ..)) hf

/-- An overlay keeps the canonical form. -/
theorem Memory.overlay_wf {new old : Memory β} (hn : Memory.wf new = true) (ho : Memory.wf old = true) :
    Memory.wf (Memory.overlay new old) = true :=
  (Memory.overlay_wf_from hn old 0 (fun _ _ => Nat.zero_le _) ho (fun _ _ => Nat.zero_le _)).1

/-- A single write keeps the canonical form. -/
theorem Memory.set_wf {m : Memory β} (h : Memory.wf m = true) (a : Nat) (b : β) :
    Memory.wf (Memory.set m a b) = true := Memory.overlay_wf rfl h

/-- A read after a write: the value written at its key, the old value elsewhere. -/
theorem Memory.get?_set (m : Memory β) (a : Nat) (b : β) (q : Nat) :
    Memory.get? (Memory.set m a b) q = if q = a then some b else Memory.get? m q := by
  rw [Memory.set, Memory.get?_overlay rfl]
  simp only [Memory.get?]
  by_cases h1 : q = a
  · subst h1; simp
  · rw [if_neg h1]
    by_cases h2 : a < q
    · rw [if_pos h2]; simp
    · rw [if_neg h2, if_neg (Ne.symm h1)]; simp

/-- A key listed in a memory in canonical form reads as listed. -/
theorem Memory.get?_of_mem {m : Memory β} (h : Memory.wf m = true) {a : Nat} {b : β} (hm : (a, b) ∈ m) :
    Memory.get? m a = some b := by
  induction m with
  | nil => cases hm
  | cons c m ih =>
    obtain ⟨x, d⟩ := c
    simp only [Memory.get?]
    rcases List.mem_cons.mp hm with heq | hm
    · cases heq; simp
    · have := Memory.wf_cons_from h (a, b) hm
      rw [if_pos (by simpa using this)]
      exact ih (Memory.wf_tail h) hm

/-- A key that is not listed reads as not written. -/
theorem Memory.get?_eq_none {m : Memory β} {a : Nat} (hm : ∀ b, (a, b) ∉ m) : Memory.get? m a = none := by
  induction m with
  | nil => rfl
  | cons c m ih =>
    obtain ⟨x, d⟩ := c
    simp only [Memory.get?]
    split
    · exact ih fun b hb => hm b (List.mem_cons_of_mem _ hb)
    · split
      · rename_i h; subst h; exact absurd (List.mem_cons_self ..) (hm d)
      · rfl

/-! ## Run reads -/

@[simp] theorem Memory.run_length (free : Nat → β) (n a : Nat) (m : Memory β) :
    (Memory.run free n a m).length = n := by
  induction n generalizing a m with
  | zero => rfl
  | succ n ih =>
    simp only [Memory.run]
    split
    · simp [ih]
    · split <;> simp [ih]

theorem Memory.get?_above (m : Memory β) (a q : Nat) (h : a ≤ q) :
    Memory.get? (Memory.above m a) q = Memory.get? m q := by
  induction m with
  | nil => rfl
  | cons c m ih =>
    obtain ⟨x, d⟩ := c
    simp only [Memory.above, List.dropWhile_cons]
    by_cases hx : x < a
    · rw [if_pos (by simpa using hx)]
      simp only [Memory.get?]
      rw [if_pos (by omega)]
      exact ih
    · rw [if_neg (by simpa using hx)]

theorem Memory.above_head {m : Memory β} {a x : Nat} {b : β} {rest : Memory β}
    (h : Memory.above m a = (x, b) :: rest) : a ≤ x := by
  have := List.head?_dropWhile_not (fun c : Nat × β => decide (c.1 < a)) m
  simp only [Memory.above] at h
  rw [h] at this
  simpa using this

/-- A run read is a lookup of each address. -/
theorem Memory.run_eq_map (free : Nat → β) (n a : Nat) (m : Memory β) :
    Memory.run free n a m = (List.range' a n).map fun q => (Memory.get? m q).getD (free q) := by
  induction n generalizing a m with
  | zero => rfl
  | succ n ih =>
    have hget := fun q (h : a ≤ q) => Memory.get?_above m a q h
    simp only [Memory.run, List.range'_succ, List.map_cons]
    have tail : ∀ m' : Memory β, (∀ q, a + 1 ≤ q → Memory.get? m' q = Memory.get? m q) →
        Memory.run free n (a + 1) m' = (List.range' (a + 1) n).map fun q => (Memory.get? m q).getD (free q) := by
      intro m' hm'
      rw [ih]
      apply List.map_congr_left
      intro q hq
      rw [hm' q (by have := List.mem_range'_1.mp hq; omega)]
    split
    · rename_i h
      rw [h] at hget
      rw [← hget a (Nat.le_refl a), tail [] fun q hq => hget q (by omega)]
      rfl
    · rename_i x b rest h
      have hx := Memory.above_head h
      rw [h] at hget
      split
      · rename_i hxa
        subst hxa
        rw [← hget x (Nat.le_refl x)]
        rw [tail rest fun q hq => by
          rw [← hget q (by omega)]; simp only [Memory.get?]; rw [if_pos (by omega)]]
        simp [Memory.get?]
      · rename_i hxa
        rw [← hget a (Nat.le_refl a), tail _ fun q hq => hget q (by omega)]
        simp only [Memory.get?]
        rw [if_neg (by omega), if_neg hxa]
        rfl

/-! ## Consecutive cells -/

theorem cellsFrom_from (a : Nat) (L : List β) : Memory.From a (cellsFrom a L) := by
  induction L generalizing a with
  | nil => exact Memory.from_nil a
  | cons b L ih => exact ((ih (a + 1)).mono (by omega)).cons (Nat.le_refl a)

theorem cellsFrom_wf (a : Nat) (L : List β) : Memory.wf (cellsFrom a L) = true := by
  induction L generalizing a with
  | nil => rfl
  | cons b L ih => exact Memory.wf_cons (c := (a, b)) (ih (a + 1)) (cellsFrom_from (a + 1) L)

theorem get?_cellsFrom (a : Nat) (L : List β) (k : Nat) :
    Memory.get? (cellsFrom a L) (a + k) = L[k]? := by
  induction L generalizing a k with
  | nil => simp [cellsFrom]
  | cons b L ih =>
    cases k with
    | zero => simp [cellsFrom, Memory.get?]
    | succ k =>
      simp only [cellsFrom, Memory.get?]
      rw [if_pos (by omega)]
      have := ih (a + 1) k
      rw [show a + (k + 1) = a + 1 + k by omega, this]
      simp

/-- What an overlay puts where: a list laid over a memory is read back whole. -/
theorem run_overlay_cellsFrom (free : Nat → β) (a : Nat) (L : List β) (m : Memory β) :
    Memory.run free L.length a (Memory.overlay (cellsFrom a L) m) = L := by
  rw [Memory.run_eq_map]
  apply List.ext_getElem (by simp)
  intro k h1 h2
  simp only [List.getElem_map, List.getElem_range', Nat.one_mul]
  rw [Memory.get?_overlay (cellsFrom_wf a L), get?_cellsFrom]
  simp [List.getElem?_eq_getElem h2]

/-- The memories of the reset state are in canonical form: nothing is listed (R34). -/
theorem reset_memories_wf :
    Memory.wf State.reset.fbb = true ∧ Memory.wf State.reset.scr = true ∧ Memory.wf State.reset.hmem = true ∧
      Memory.wf State.reset.panel.gram = true :=
  ⟨rfl, rfl, rfl, rfl⟩

end Sys2Proof.Machine
end

