-- ==== Sys2Proof/Laws/State.lean ====
section
/-! SUPPORT. Each field after each named update of the state, so that no proof unfolds a record update. -/

namespace Sys2Proof.Machine

@[simp] theorem State.log_args (s : State) (e : Event) : (s.log e).args = s.args := rfl
@[simp] theorem State.log_busy (s : State) (e : Event) : (s.log e).busy = s.busy := rfl
@[simp] theorem State.log_curOp (s : State) (e : Event) : (s.log e).curOp = s.curOp := rfl
@[simp] theorem State.log_initDone (s : State) (e : Event) : (s.log e).initDone = s.initDone := rfl
@[simp] theorem State.log_fontReady (s : State) (e : Event) : (s.log e).fontReady = s.fontReady := rfl
@[simp] theorem State.log_code (s : State) (e : Event) : (s.log e).code = s.code := rfl
@[simp] theorem State.log_sub (s : State) (e : Event) : (s.log e).sub = s.sub := rfl
@[simp] theorem State.log_lastOpc (s : State) (e : Event) : (s.log e).lastOpc = s.lastOpc := rfl
@[simp] theorem State.log_errInfo (s : State) (e : Event) : (s.log e).errInfo = s.errInfo := rfl
@[simp] theorem State.log_dc (s : State) (e : Event) : (s.log e).dc = s.dc := rfl
@[simp] theorem State.log_cs (s : State) (e : Event) : (s.log e).cs = s.cs := rfl
@[simp] theorem State.log_rst (s : State) (e : Event) : (s.log e).rst = s.rst := rfl
@[simp] theorem State.log_inflight (s : State) (e : Event) : (s.log e).inflight = s.inflight := rfl
@[simp] theorem State.log_fbb (s : State) (e : Event) : (s.log e).fbb = s.fbb := rfl
@[simp] theorem State.log_scr (s : State) (e : Event) : (s.log e).scr = s.scr := rfl
@[simp] theorem State.log_scrHeld (s : State) (e : Event) : (s.log e).scrHeld = s.scrHeld := rfl
@[simp] theorem State.log_ci (s : State) (e : Event) : (s.log e).ci = s.ci := rfl
@[simp] theorem State.log_trace (s : State) (e : Event) : (s.log e).trace = s.trace ++ [e] := rfl
@[simp] theorem State.log_panel (s : State) (e : Event) : (s.log e).panel = s.panel := rfl
@[simp] theorem State.log_resetIn (s : State) (e : Event) : (s.log e).resetIn = s.resetIn := rfl
@[simp] theorem State.log_cfg (s : State) (e : Event) : (s.log e).cfg = s.cfg := rfl
@[simp] theorem State.log_pending (s : State) (e : Event) : (s.log e).pending = s.pending := rfl
@[simp] theorem State.log_draws (s : State) (e : Event) : (s.log e).draws = s.draws := rfl
@[simp] theorem State.log_era (s : State) (e : Event) : (s.log e).era = s.era := rfl
@[simp] theorem State.log_ops (s : State) (e : Event) : (s.log e).ops = s.ops := rfl
@[simp] theorem State.log_host (s : State) (e : Event) : (s.log e).host = s.host := rfl
@[simp] theorem State.log_reads (s : State) (e : Event) : (s.log e).reads = s.reads := rfl
@[simp] theorem State.log_hmem (s : State) (e : Event) : (s.log e).hmem = s.hmem := rfl
@[simp] theorem State.log_argsWritten (s : State) (e : Event) : (s.log e).argsWritten = s.argsWritten := rfl
@[simp] theorem State.log_statusUnread (s : State) (e : Event) : (s.log e).statusUnread = s.statusUnread := rfl
@[simp] theorem State.log_awaiting (s : State) (e : Event) : (s.log e).awaiting = s.awaiting := rfl

@[simp] theorem State.setDc_args (s : State) (v : Bool) : (s.setDc v).args = s.args := rfl
@[simp] theorem State.setDc_busy (s : State) (v : Bool) : (s.setDc v).busy = s.busy := rfl
@[simp] theorem State.setDc_curOp (s : State) (v : Bool) : (s.setDc v).curOp = s.curOp := rfl
@[simp] theorem State.setDc_initDone (s : State) (v : Bool) : (s.setDc v).initDone = s.initDone := rfl
@[simp] theorem State.setDc_fontReady (s : State) (v : Bool) : (s.setDc v).fontReady = s.fontReady := rfl
@[simp] theorem State.setDc_code (s : State) (v : Bool) : (s.setDc v).code = s.code := rfl
@[simp] theorem State.setDc_sub (s : State) (v : Bool) : (s.setDc v).sub = s.sub := rfl
@[simp] theorem State.setDc_lastOpc (s : State) (v : Bool) : (s.setDc v).lastOpc = s.lastOpc := rfl
@[simp] theorem State.setDc_errInfo (s : State) (v : Bool) : (s.setDc v).errInfo = s.errInfo := rfl
@[simp] theorem State.setDc_dc (s : State) (v : Bool) : (s.setDc v).dc = v := rfl
@[simp] theorem State.setDc_cs (s : State) (v : Bool) : (s.setDc v).cs = s.cs := rfl
@[simp] theorem State.setDc_rst (s : State) (v : Bool) : (s.setDc v).rst = s.rst := rfl
@[simp] theorem State.setDc_inflight (s : State) (v : Bool) : (s.setDc v).inflight = s.inflight := rfl
@[simp] theorem State.setDc_fbb (s : State) (v : Bool) : (s.setDc v).fbb = s.fbb := rfl
@[simp] theorem State.setDc_scr (s : State) (v : Bool) : (s.setDc v).scr = s.scr := rfl
@[simp] theorem State.setDc_scrHeld (s : State) (v : Bool) : (s.setDc v).scrHeld = s.scrHeld := rfl
@[simp] theorem State.setDc_ci (s : State) (v : Bool) : (s.setDc v).ci = s.ci := rfl
@[simp] theorem State.setDc_trace (s : State) (v : Bool) : (s.setDc v).trace = s.trace := rfl
@[simp] theorem State.setDc_panel (s : State) (v : Bool) : (s.setDc v).panel = s.panel := rfl
@[simp] theorem State.setDc_resetIn (s : State) (v : Bool) : (s.setDc v).resetIn = s.resetIn := rfl
@[simp] theorem State.setDc_cfg (s : State) (v : Bool) : (s.setDc v).cfg = s.cfg := rfl
@[simp] theorem State.setDc_pending (s : State) (v : Bool) : (s.setDc v).pending = s.pending := rfl
@[simp] theorem State.setDc_draws (s : State) (v : Bool) : (s.setDc v).draws = s.draws := rfl
@[simp] theorem State.setDc_era (s : State) (v : Bool) : (s.setDc v).era = s.era := rfl
@[simp] theorem State.setDc_ops (s : State) (v : Bool) : (s.setDc v).ops = s.ops := rfl
@[simp] theorem State.setDc_host (s : State) (v : Bool) : (s.setDc v).host = s.host := rfl
@[simp] theorem State.setDc_reads (s : State) (v : Bool) : (s.setDc v).reads = s.reads := rfl
@[simp] theorem State.setDc_hmem (s : State) (v : Bool) : (s.setDc v).hmem = s.hmem := rfl
@[simp] theorem State.setDc_argsWritten (s : State) (v : Bool) : (s.setDc v).argsWritten = s.argsWritten := rfl
@[simp] theorem State.setDc_statusUnread (s : State) (v : Bool) : (s.setDc v).statusUnread = s.statusUnread := rfl
@[simp] theorem State.setDc_awaiting (s : State) (v : Bool) : (s.setDc v).awaiting = s.awaiting := rfl

@[simp] theorem State.setPending_args (s : State) (p : List WireCmd) : (s.setPending p).args = s.args := rfl
@[simp] theorem State.setPending_busy (s : State) (p : List WireCmd) : (s.setPending p).busy = s.busy := rfl
@[simp] theorem State.setPending_curOp (s : State) (p : List WireCmd) : (s.setPending p).curOp = s.curOp := rfl
@[simp] theorem State.setPending_initDone (s : State) (p : List WireCmd) : (s.setPending p).initDone = s.initDone := rfl
@[simp] theorem State.setPending_fontReady (s : State) (p : List WireCmd) : (s.setPending p).fontReady = s.fontReady := rfl
@[simp] theorem State.setPending_code (s : State) (p : List WireCmd) : (s.setPending p).code = s.code := rfl
@[simp] theorem State.setPending_sub (s : State) (p : List WireCmd) : (s.setPending p).sub = s.sub := rfl
@[simp] theorem State.setPending_lastOpc (s : State) (p : List WireCmd) : (s.setPending p).lastOpc = s.lastOpc := rfl
@[simp] theorem State.setPending_errInfo (s : State) (p : List WireCmd) : (s.setPending p).errInfo = s.errInfo := rfl
@[simp] theorem State.setPending_dc (s : State) (p : List WireCmd) : (s.setPending p).dc = s.dc := rfl
@[simp] theorem State.setPending_cs (s : State) (p : List WireCmd) : (s.setPending p).cs = s.cs := rfl
@[simp] theorem State.setPending_rst (s : State) (p : List WireCmd) : (s.setPending p).rst = s.rst := rfl
@[simp] theorem State.setPending_inflight (s : State) (p : List WireCmd) : (s.setPending p).inflight = s.inflight := rfl
@[simp] theorem State.setPending_fbb (s : State) (p : List WireCmd) : (s.setPending p).fbb = s.fbb := rfl
@[simp] theorem State.setPending_scr (s : State) (p : List WireCmd) : (s.setPending p).scr = s.scr := rfl
@[simp] theorem State.setPending_scrHeld (s : State) (p : List WireCmd) : (s.setPending p).scrHeld = s.scrHeld := rfl
@[simp] theorem State.setPending_ci (s : State) (p : List WireCmd) : (s.setPending p).ci = s.ci := rfl
@[simp] theorem State.setPending_trace (s : State) (p : List WireCmd) : (s.setPending p).trace = s.trace := rfl
@[simp] theorem State.setPending_panel (s : State) (p : List WireCmd) : (s.setPending p).panel = s.panel := rfl
@[simp] theorem State.setPending_resetIn (s : State) (p : List WireCmd) : (s.setPending p).resetIn = s.resetIn := rfl
@[simp] theorem State.setPending_cfg (s : State) (p : List WireCmd) : (s.setPending p).cfg = s.cfg := rfl
@[simp] theorem State.setPending_pending (s : State) (p : List WireCmd) : (s.setPending p).pending = p := rfl
@[simp] theorem State.setPending_draws (s : State) (p : List WireCmd) : (s.setPending p).draws = s.draws := rfl
@[simp] theorem State.setPending_era (s : State) (p : List WireCmd) : (s.setPending p).era = s.era := rfl
@[simp] theorem State.setPending_ops (s : State) (p : List WireCmd) : (s.setPending p).ops = s.ops := rfl
@[simp] theorem State.setPending_host (s : State) (p : List WireCmd) : (s.setPending p).host = s.host := rfl
@[simp] theorem State.setPending_reads (s : State) (p : List WireCmd) : (s.setPending p).reads = s.reads := rfl
@[simp] theorem State.setPending_hmem (s : State) (p : List WireCmd) : (s.setPending p).hmem = s.hmem := rfl
@[simp] theorem State.setPending_argsWritten (s : State) (p : List WireCmd) : (s.setPending p).argsWritten = s.argsWritten := rfl
@[simp] theorem State.setPending_statusUnread (s : State) (p : List WireCmd) : (s.setPending p).statusUnread = s.statusUnread := rfl
@[simp] theorem State.setPending_awaiting (s : State) (p : List WireCmd) : (s.setPending p).awaiting = s.awaiting := rfl

@[simp] theorem State.waitFor_args (s : State) (n : WaitName) (k : Nat) : (s.waitFor n k).args = s.args := rfl
@[simp] theorem State.waitFor_busy (s : State) (n : WaitName) (k : Nat) : (s.waitFor n k).busy = s.busy := rfl
@[simp] theorem State.waitFor_curOp (s : State) (n : WaitName) (k : Nat) : (s.waitFor n k).curOp = s.curOp := rfl
@[simp] theorem State.waitFor_initDone (s : State) (n : WaitName) (k : Nat) : (s.waitFor n k).initDone = s.initDone := rfl
@[simp] theorem State.waitFor_fontReady (s : State) (n : WaitName) (k : Nat) : (s.waitFor n k).fontReady = s.fontReady := rfl
@[simp] theorem State.waitFor_code (s : State) (n : WaitName) (k : Nat) : (s.waitFor n k).code = s.code := rfl
@[simp] theorem State.waitFor_sub (s : State) (n : WaitName) (k : Nat) : (s.waitFor n k).sub = s.sub := rfl
@[simp] theorem State.waitFor_lastOpc (s : State) (n : WaitName) (k : Nat) : (s.waitFor n k).lastOpc = s.lastOpc := rfl
@[simp] theorem State.waitFor_errInfo (s : State) (n : WaitName) (k : Nat) : (s.waitFor n k).errInfo = s.errInfo := rfl
@[simp] theorem State.waitFor_dc (s : State) (n : WaitName) (k : Nat) : (s.waitFor n k).dc = s.dc := rfl
@[simp] theorem State.waitFor_cs (s : State) (n : WaitName) (k : Nat) : (s.waitFor n k).cs = s.cs := rfl
@[simp] theorem State.waitFor_rst (s : State) (n : WaitName) (k : Nat) : (s.waitFor n k).rst = s.rst := rfl
@[simp] theorem State.waitFor_inflight (s : State) (n : WaitName) (k : Nat) : (s.waitFor n k).inflight = s.inflight := rfl
@[simp] theorem State.waitFor_fbb (s : State) (n : WaitName) (k : Nat) : (s.waitFor n k).fbb = s.fbb := rfl
@[simp] theorem State.waitFor_scr (s : State) (n : WaitName) (k : Nat) : (s.waitFor n k).scr = s.scr := rfl
@[simp] theorem State.waitFor_scrHeld (s : State) (n : WaitName) (k : Nat) : (s.waitFor n k).scrHeld = s.scrHeld := rfl
@[simp] theorem State.waitFor_ci (s : State) (n : WaitName) (k : Nat) : (s.waitFor n k).ci = s.ci := rfl
@[simp] theorem State.waitFor_trace (s : State) (n : WaitName) (k : Nat) : (s.waitFor n k).trace = s.trace ++ [.wait n k] := rfl
@[simp] theorem State.waitFor_panel (s : State) (n : WaitName) (k : Nat) : (s.waitFor n k).panel = s.panel := rfl
@[simp] theorem State.waitFor_resetIn (s : State) (n : WaitName) (k : Nat) : (s.waitFor n k).resetIn = s.resetIn := rfl
@[simp] theorem State.waitFor_cfg (s : State) (n : WaitName) (k : Nat) : (s.waitFor n k).cfg = s.cfg := rfl
@[simp] theorem State.waitFor_pending (s : State) (n : WaitName) (k : Nat) : (s.waitFor n k).pending = s.pending := rfl
@[simp] theorem State.waitFor_draws (s : State) (n : WaitName) (k : Nat) : (s.waitFor n k).draws = s.draws := rfl
@[simp] theorem State.waitFor_era (s : State) (n : WaitName) (k : Nat) : (s.waitFor n k).era = s.era := rfl
@[simp] theorem State.waitFor_ops (s : State) (n : WaitName) (k : Nat) : (s.waitFor n k).ops = s.ops := rfl
@[simp] theorem State.waitFor_host (s : State) (n : WaitName) (k : Nat) : (s.waitFor n k).host = s.host := rfl
@[simp] theorem State.waitFor_reads (s : State) (n : WaitName) (k : Nat) : (s.waitFor n k).reads = s.reads := rfl
@[simp] theorem State.waitFor_hmem (s : State) (n : WaitName) (k : Nat) : (s.waitFor n k).hmem = s.hmem := rfl
@[simp] theorem State.waitFor_argsWritten (s : State) (n : WaitName) (k : Nat) : (s.waitFor n k).argsWritten = s.argsWritten := rfl
@[simp] theorem State.waitFor_statusUnread (s : State) (n : WaitName) (k : Nat) : (s.waitFor n k).statusUnread = s.statusUnread := rfl
@[simp] theorem State.waitFor_awaiting (s : State) (n : WaitName) (k : Nat) : (s.waitFor n k).awaiting = s.awaiting := rfl

@[simp] theorem State.storePixels_args (s : State) (ps : List (Nat × Half)) : (s.storePixels ps).args = s.args := rfl
@[simp] theorem State.storePixels_busy (s : State) (ps : List (Nat × Half)) : (s.storePixels ps).busy = s.busy := rfl
@[simp] theorem State.storePixels_curOp (s : State) (ps : List (Nat × Half)) : (s.storePixels ps).curOp = s.curOp := rfl
@[simp] theorem State.storePixels_initDone (s : State) (ps : List (Nat × Half)) : (s.storePixels ps).initDone = s.initDone := rfl
@[simp] theorem State.storePixels_fontReady (s : State) (ps : List (Nat × Half)) : (s.storePixels ps).fontReady = s.fontReady := rfl
@[simp] theorem State.storePixels_code (s : State) (ps : List (Nat × Half)) : (s.storePixels ps).code = s.code := rfl
@[simp] theorem State.storePixels_sub (s : State) (ps : List (Nat × Half)) : (s.storePixels ps).sub = s.sub := rfl
@[simp] theorem State.storePixels_lastOpc (s : State) (ps : List (Nat × Half)) : (s.storePixels ps).lastOpc = s.lastOpc := rfl
@[simp] theorem State.storePixels_errInfo (s : State) (ps : List (Nat × Half)) : (s.storePixels ps).errInfo = s.errInfo := rfl
@[simp] theorem State.storePixels_dc (s : State) (ps : List (Nat × Half)) : (s.storePixels ps).dc = s.dc := rfl
@[simp] theorem State.storePixels_cs (s : State) (ps : List (Nat × Half)) : (s.storePixels ps).cs = s.cs := rfl
@[simp] theorem State.storePixels_rst (s : State) (ps : List (Nat × Half)) : (s.storePixels ps).rst = s.rst := rfl
@[simp] theorem State.storePixels_inflight (s : State) (ps : List (Nat × Half)) : (s.storePixels ps).inflight = s.inflight := rfl
@[simp] theorem State.storePixels_fbb (s : State) (ps : List (Nat × Half)) : (s.storePixels ps).fbb = Memory.overlay (pixelsCells ps) s.fbb := rfl
@[simp] theorem State.storePixels_scr (s : State) (ps : List (Nat × Half)) : (s.storePixels ps).scr = s.scr := rfl
@[simp] theorem State.storePixels_scrHeld (s : State) (ps : List (Nat × Half)) : (s.storePixels ps).scrHeld = s.scrHeld := rfl
@[simp] theorem State.storePixels_ci (s : State) (ps : List (Nat × Half)) : (s.storePixels ps).ci = s.ci := rfl
@[simp] theorem State.storePixels_trace (s : State) (ps : List (Nat × Half)) : (s.storePixels ps).trace = s.trace := rfl
@[simp] theorem State.storePixels_panel (s : State) (ps : List (Nat × Half)) : (s.storePixels ps).panel = s.panel := rfl
@[simp] theorem State.storePixels_resetIn (s : State) (ps : List (Nat × Half)) : (s.storePixels ps).resetIn = s.resetIn := rfl
@[simp] theorem State.storePixels_cfg (s : State) (ps : List (Nat × Half)) : (s.storePixels ps).cfg = s.cfg := rfl
@[simp] theorem State.storePixels_pending (s : State) (ps : List (Nat × Half)) : (s.storePixels ps).pending = s.pending := rfl
@[simp] theorem State.storePixels_draws (s : State) (ps : List (Nat × Half)) : (s.storePixels ps).draws = s.draws := rfl
@[simp] theorem State.storePixels_era (s : State) (ps : List (Nat × Half)) : (s.storePixels ps).era = s.era := rfl
@[simp] theorem State.storePixels_ops (s : State) (ps : List (Nat × Half)) : (s.storePixels ps).ops = s.ops := rfl
@[simp] theorem State.storePixels_host (s : State) (ps : List (Nat × Half)) : (s.storePixels ps).host = s.host := rfl
@[simp] theorem State.storePixels_reads (s : State) (ps : List (Nat × Half)) : (s.storePixels ps).reads = s.reads := rfl
@[simp] theorem State.storePixels_hmem (s : State) (ps : List (Nat × Half)) : (s.storePixels ps).hmem = s.hmem := rfl
@[simp] theorem State.storePixels_argsWritten (s : State) (ps : List (Nat × Half)) : (s.storePixels ps).argsWritten = s.argsWritten := rfl
@[simp] theorem State.storePixels_statusUnread (s : State) (ps : List (Nat × Half)) : (s.storePixels ps).statusUnread = s.statusUnread := rfl
@[simp] theorem State.storePixels_awaiting (s : State) (ps : List (Nat × Half)) : (s.storePixels ps).awaiting = s.awaiting := rfl

@[simp] theorem State.fillScratch_args (s : State) (L : List Byte) : (s.fillScratch L).args = s.args := rfl
@[simp] theorem State.fillScratch_busy (s : State) (L : List Byte) : (s.fillScratch L).busy = s.busy := rfl
@[simp] theorem State.fillScratch_curOp (s : State) (L : List Byte) : (s.fillScratch L).curOp = s.curOp := rfl
@[simp] theorem State.fillScratch_initDone (s : State) (L : List Byte) : (s.fillScratch L).initDone = s.initDone := rfl
@[simp] theorem State.fillScratch_fontReady (s : State) (L : List Byte) : (s.fillScratch L).fontReady = s.fontReady := rfl
@[simp] theorem State.fillScratch_code (s : State) (L : List Byte) : (s.fillScratch L).code = s.code := rfl
@[simp] theorem State.fillScratch_sub (s : State) (L : List Byte) : (s.fillScratch L).sub = s.sub := rfl
@[simp] theorem State.fillScratch_lastOpc (s : State) (L : List Byte) : (s.fillScratch L).lastOpc = s.lastOpc := rfl
@[simp] theorem State.fillScratch_errInfo (s : State) (L : List Byte) : (s.fillScratch L).errInfo = s.errInfo := rfl
@[simp] theorem State.fillScratch_dc (s : State) (L : List Byte) : (s.fillScratch L).dc = s.dc := rfl
@[simp] theorem State.fillScratch_cs (s : State) (L : List Byte) : (s.fillScratch L).cs = s.cs := rfl
@[simp] theorem State.fillScratch_rst (s : State) (L : List Byte) : (s.fillScratch L).rst = s.rst := rfl
@[simp] theorem State.fillScratch_inflight (s : State) (L : List Byte) : (s.fillScratch L).inflight = s.inflight := rfl
@[simp] theorem State.fillScratch_fbb (s : State) (L : List Byte) : (s.fillScratch L).fbb = s.fbb := rfl
@[simp] theorem State.fillScratch_scr (s : State) (L : List Byte) : (s.fillScratch L).scr = Memory.overlay (cellsFrom 0 L) s.scr := rfl
@[simp] theorem State.fillScratch_scrHeld (s : State) (L : List Byte) : (s.fillScratch L).scrHeld = s.scrHeld := rfl
@[simp] theorem State.fillScratch_ci (s : State) (L : List Byte) : (s.fillScratch L).ci = s.ci := rfl
@[simp] theorem State.fillScratch_trace (s : State) (L : List Byte) : (s.fillScratch L).trace = s.trace := rfl
@[simp] theorem State.fillScratch_panel (s : State) (L : List Byte) : (s.fillScratch L).panel = s.panel := rfl
@[simp] theorem State.fillScratch_resetIn (s : State) (L : List Byte) : (s.fillScratch L).resetIn = s.resetIn := rfl
@[simp] theorem State.fillScratch_cfg (s : State) (L : List Byte) : (s.fillScratch L).cfg = s.cfg := rfl
@[simp] theorem State.fillScratch_pending (s : State) (L : List Byte) : (s.fillScratch L).pending = s.pending := rfl
@[simp] theorem State.fillScratch_draws (s : State) (L : List Byte) : (s.fillScratch L).draws = s.draws := rfl
@[simp] theorem State.fillScratch_era (s : State) (L : List Byte) : (s.fillScratch L).era = s.era := rfl
@[simp] theorem State.fillScratch_ops (s : State) (L : List Byte) : (s.fillScratch L).ops = s.ops := rfl
@[simp] theorem State.fillScratch_host (s : State) (L : List Byte) : (s.fillScratch L).host = s.host := rfl
@[simp] theorem State.fillScratch_reads (s : State) (L : List Byte) : (s.fillScratch L).reads = s.reads := rfl
@[simp] theorem State.fillScratch_hmem (s : State) (L : List Byte) : (s.fillScratch L).hmem = s.hmem := rfl
@[simp] theorem State.fillScratch_argsWritten (s : State) (L : List Byte) : (s.fillScratch L).argsWritten = s.argsWritten := rfl
@[simp] theorem State.fillScratch_statusUnread (s : State) (L : List Byte) : (s.fillScratch L).statusUnread = s.statusUnread := rfl
@[simp] theorem State.fillScratch_awaiting (s : State) (L : List Byte) : (s.fillScratch L).awaiting = s.awaiting := rfl

@[simp] theorem State.startOp_args (s : State) (v : Word) : (s.startOp v).args = s.args := rfl
@[simp] theorem State.startOp_busy (s : State) (v : Word) : (s.startOp v).busy = true := rfl
@[simp] theorem State.startOp_curOp (s : State) (v : Word) : (s.startOp v).curOp = v.extractLsb' 0 8 := rfl
@[simp] theorem State.startOp_initDone (s : State) (v : Word) : (s.startOp v).initDone = (s.initDone && decide (v.extractLsb' 0 8 ≠ 0x04#8)) := rfl
@[simp] theorem State.startOp_fontReady (s : State) (v : Word) : (s.startOp v).fontReady = s.fontReady := rfl
@[simp] theorem State.startOp_code (s : State) (v : Word) : (s.startOp v).code = 0#8 := rfl
@[simp] theorem State.startOp_sub (s : State) (v : Word) : (s.startOp v).sub = 0#8 := rfl
@[simp] theorem State.startOp_lastOpc (s : State) (v : Word) : (s.startOp v).lastOpc = v.extractLsb' 0 8 := rfl
@[simp] theorem State.startOp_errInfo (s : State) (v : Word) : (s.startOp v).errInfo = 0#32 := rfl
@[simp] theorem State.startOp_dc (s : State) (v : Word) : (s.startOp v).dc = s.dc := rfl
@[simp] theorem State.startOp_cs (s : State) (v : Word) : (s.startOp v).cs = s.cs := rfl
@[simp] theorem State.startOp_rst (s : State) (v : Word) : (s.startOp v).rst = s.rst := rfl
@[simp] theorem State.startOp_inflight (s : State) (v : Word) : (s.startOp v).inflight = s.inflight := rfl
@[simp] theorem State.startOp_fbb (s : State) (v : Word) : (s.startOp v).fbb = s.fbb := rfl
@[simp] theorem State.startOp_scr (s : State) (v : Word) : (s.startOp v).scr = s.scr := rfl
@[simp] theorem State.startOp_scrHeld (s : State) (v : Word) : (s.startOp v).scrHeld = s.scrHeld := rfl
@[simp] theorem State.startOp_ci (s : State) (v : Word) : (s.startOp v).ci = s.ci := rfl
@[simp] theorem State.startOp_trace (s : State) (v : Word) : (s.startOp v).trace = s.trace := rfl
@[simp] theorem State.startOp_panel (s : State) (v : Word) : (s.startOp v).panel = s.panel := rfl
@[simp] theorem State.startOp_resetIn (s : State) (v : Word) : (s.startOp v).resetIn = s.resetIn := rfl
@[simp] theorem State.startOp_cfg (s : State) (v : Word) : (s.startOp v).cfg = s.cfg := rfl
@[simp] theorem State.startOp_pending (s : State) (v : Word) : (s.startOp v).pending = s.pending := rfl
@[simp] theorem State.startOp_draws (s : State) (v : Word) : (s.startOp v).draws = s.draws := rfl
@[simp] theorem State.startOp_era (s : State) (v : Word) : (s.startOp v).era = s.era := rfl
@[simp] theorem State.startOp_ops (s : State) (v : Word) : (s.startOp v).ops = s.ops + 1 := rfl
@[simp] theorem State.startOp_host (s : State) (v : Word) : (s.startOp v).host = s.host := rfl
@[simp] theorem State.startOp_reads (s : State) (v : Word) : (s.startOp v).reads = s.reads := rfl
@[simp] theorem State.startOp_hmem (s : State) (v : Word) : (s.startOp v).hmem = s.hmem := rfl
@[simp] theorem State.startOp_argsWritten (s : State) (v : Word) : (s.startOp v).argsWritten = s.argsWritten := rfl
@[simp] theorem State.startOp_statusUnread (s : State) (v : Word) : (s.startOp v).statusUnread = true := rfl
@[simp] theorem State.startOp_awaiting (s : State) (v : Word) : (s.startOp v).awaiting = true := rfl

@[simp] theorem State.endOp_args (s : State) (c u : Byte) (w : Word) : (s.endOp c u w).args = s.args := rfl
@[simp] theorem State.endOp_busy (s : State) (c u : Byte) (w : Word) : (s.endOp c u w).busy = false := rfl
@[simp] theorem State.endOp_curOp (s : State) (c u : Byte) (w : Word) : (s.endOp c u w).curOp = s.curOp := rfl
@[simp] theorem State.endOp_initDone (s : State) (c u : Byte) (w : Word) : (s.endOp c u w).initDone = s.initDone := rfl
@[simp] theorem State.endOp_fontReady (s : State) (c u : Byte) (w : Word) : (s.endOp c u w).fontReady = s.fontReady := rfl
@[simp] theorem State.endOp_code (s : State) (c u : Byte) (w : Word) : (s.endOp c u w).code = c := rfl
@[simp] theorem State.endOp_sub (s : State) (c u : Byte) (w : Word) : (s.endOp c u w).sub = u := rfl
@[simp] theorem State.endOp_lastOpc (s : State) (c u : Byte) (w : Word) : (s.endOp c u w).lastOpc = s.lastOpc := rfl
@[simp] theorem State.endOp_errInfo (s : State) (c u : Byte) (w : Word) : (s.endOp c u w).errInfo = w := rfl
@[simp] theorem State.endOp_dc (s : State) (c u : Byte) (w : Word) : (s.endOp c u w).dc = s.dc := rfl
@[simp] theorem State.endOp_cs (s : State) (c u : Byte) (w : Word) : (s.endOp c u w).cs = s.cs := rfl
@[simp] theorem State.endOp_rst (s : State) (c u : Byte) (w : Word) : (s.endOp c u w).rst = s.rst := rfl
@[simp] theorem State.endOp_inflight (s : State) (c u : Byte) (w : Word) : (s.endOp c u w).inflight = s.inflight := rfl
@[simp] theorem State.endOp_fbb (s : State) (c u : Byte) (w : Word) : (s.endOp c u w).fbb = s.fbb := rfl
@[simp] theorem State.endOp_scr (s : State) (c u : Byte) (w : Word) : (s.endOp c u w).scr = [] := rfl
@[simp] theorem State.endOp_scrHeld (s : State) (c u : Byte) (w : Word) : (s.endOp c u w).scrHeld = false := rfl
@[simp] theorem State.endOp_ci (s : State) (c u : Byte) (w : Word) : (s.endOp c u w).ci = [] := rfl
@[simp] theorem State.endOp_trace (s : State) (c u : Byte) (w : Word) : (s.endOp c u w).trace = s.trace := rfl
@[simp] theorem State.endOp_panel (s : State) (c u : Byte) (w : Word) : (s.endOp c u w).panel = s.panel := rfl
@[simp] theorem State.endOp_resetIn (s : State) (c u : Byte) (w : Word) : (s.endOp c u w).resetIn = s.resetIn := rfl
@[simp] theorem State.endOp_cfg (s : State) (c u : Byte) (w : Word) : (s.endOp c u w).cfg = s.cfg := rfl
@[simp] theorem State.endOp_pending (s : State) (c u : Byte) (w : Word) : (s.endOp c u w).pending = [] := rfl
@[simp] theorem State.endOp_draws (s : State) (c u : Byte) (w : Word) : (s.endOp c u w).draws = s.draws := rfl
@[simp] theorem State.endOp_era (s : State) (c u : Byte) (w : Word) : (s.endOp c u w).era = s.era := rfl
@[simp] theorem State.endOp_ops (s : State) (c u : Byte) (w : Word) : (s.endOp c u w).ops = s.ops := rfl
@[simp] theorem State.endOp_host (s : State) (c u : Byte) (w : Word) : (s.endOp c u w).host = s.host := rfl
@[simp] theorem State.endOp_reads (s : State) (c u : Byte) (w : Word) : (s.endOp c u w).reads = s.reads := rfl
@[simp] theorem State.endOp_hmem (s : State) (c u : Byte) (w : Word) : (s.endOp c u w).hmem = s.hmem := rfl
@[simp] theorem State.endOp_argsWritten (s : State) (c u : Byte) (w : Word) : (s.endOp c u w).argsWritten = s.argsWritten := rfl
@[simp] theorem State.endOp_statusUnread (s : State) (c u : Byte) (w : Word) : (s.endOp c u w).statusUnread = s.statusUnread := rfl
@[simp] theorem State.endOp_awaiting (s : State) (c u : Byte) (w : Word) : (s.endOp c u w).awaiting = s.awaiting := rfl

@[simp] theorem State.finishOk_eq (s : State) : s.finishOk = s.endOp CODE_OK 0#8 0#32 := rfl
@[simp] theorem State.raiseErr_eq (s : State) (e : Err) : s.raiseErr e = s.endOp e.code e.sub e.info := rfl
@[simp] theorem endWith_none (s : State) : endWith (none, s) = s.endOp CODE_OK 0#8 0#32 := rfl
@[simp] theorem endWith_some (e : Err) (s : State) : endWith (some e, s) = s.endOp e.code e.sub e.info := rfl
@[simp] theorem goOn_none (s : State) : goOn (none, s) = s := rfl
@[simp] theorem State.failInit_eq (s : State) (e : Err) : s.failInit e =
    ({ s with panel := Panel.unknown (s.panel.epoch + 1) } : State).endOp e.code e.sub e.info := rfl
@[simp] theorem goOn_some (e : Err) (s : State) : goOn (some e, s) = s.failInit e := rfl
@[simp] theorem endInit_none (s : State) : endInit (none, s) = ({ s with initDone := true } : State).endOp CODE_OK 0#8 0#32 := rfl
@[simp] theorem endInit_some (e : Err) (s : State) : endInit (some e, s) = s.failInit e := rfl
@[simp] theorem Ran.andThen_none (s : State) (k : State → Ran) : Ran.andThen (none, s) k = k s := rfl
@[simp] theorem Ran.andThen_some (e : Err) (s : State) (k : State → Ran) : Ran.andThen (some e, s) k = (some e, s) := rfl
@[simp] theorem answerOk_ok : answerOk .ok = true := rfl
@[simp] theorem answerOk_fail (n : Nat) : answerOk (.fail n) = false := rfl

end Sys2Proof.Machine
end

