-- ==== Sys2Proof/Laws/Pixels.lean ====
section
/-! SUPPORT. Pixel stores: the cells of a pixel list, what a store leaves at every pixel, and the pixel lists of
rectangles. -/

namespace Sys2Proof.Machine

/-! ## Bytes of a 16-bit value -/

/-- The bits of `{hi, lo}`. -/
theorem getLsbD_joinHalf (a b : Byte) (i : Nat) :
    (joinHalf a b).getLsbD i = if i < 8 then b.getLsbD i else a.getLsbD (i - 8) := by
  have := BitVec.getLsbD_append (x := a) (y := b) (i := i)
  simpa [joinHalf] using this

@[simp] theorem hi8_joinHalf (a b : Byte) : hi8 (joinHalf a b) = a := by
  apply BitVec.eq_of_getLsbD_eq
  intro i hi
  simp only [hi8, BitVec.getLsbD_extractLsb', getLsbD_joinHalf]
  simp [hi]

@[simp] theorem lo8_joinHalf (a b : Byte) : lo8 (joinHalf a b) = b := by
  apply BitVec.eq_of_getLsbD_eq
  intro i hi
  simp only [lo8, BitVec.getLsbD_extractLsb', getLsbD_joinHalf]
  simp [hi]

@[simp] theorem joinHalf_hi8_lo8 (c : Half) : joinHalf (hi8 c) (lo8 c) = c := by
  apply BitVec.eq_of_getLsbD_eq
  intro i hi
  simp only [getLsbD_joinHalf, hi8, lo8, BitVec.getLsbD_extractLsb']
  by_cases h : i < 8
  · simp [h]
  · simp [h, show i - 8 < 8 by omega, show 8 + (i - 8) = i by omega]

/-! ## Cells of a pixel list -/

theorem pixelsCells_cons (p : Nat × Half) (ps : List (Nat × Half)) :
    pixelsCells (p :: ps) = (2 * p.1, hi8 p.2) :: (2 * p.1 + 1, lo8 p.2) :: pixelsCells ps := rfl

theorem pixelsCells_from {ps : List (Nat × Half)} {a : Nat} (h : Memory.From a ps) :
    Memory.From (2 * a) (pixelsCells ps) := by
  intro c hc
  obtain ⟨p, hp, hc⟩ := List.mem_flatMap.mp hc
  have := h p hp
  simp only [pixelCells, List.mem_cons, List.not_mem_nil, or_false] at hc
  rcases hc with rfl | rfl <;> simp only <;> omega

/-- The cells of a pixel list with rising indexes are in canonical form. -/
theorem pixelsCells_wf {ps : List (Nat × Half)} (h : Memory.wf ps = true) : Memory.wf (pixelsCells ps) = true := by
  induction ps with
  | nil => rfl
  | cons p ps ih =>
    have hf := pixelsCells_from (Memory.wf_cons_from h)
    rw [pixelsCells_cons]
    refine Memory.wf_cons (c := (2 * p.1, hi8 p.2)) (Memory.wf_cons (c := (2 * p.1 + 1, lo8 p.2)) (ih (Memory.wf_tail h)) ?_) ?_
    · exact hf.mono (by simp only; omega)
    · exact Memory.From.cons (by simp) (hf.mono (by simp only; omega))

theorem get?_pixelsCells (ps : List (Nat × Half)) (i : Nat) :
    Memory.get? (pixelsCells ps) (2 * i) = (Memory.get? ps i).map hi8 ∧
    Memory.get? (pixelsCells ps) (2 * i + 1) = (Memory.get? ps i).map lo8 := by
  induction ps with
  | nil => simp [pixelsCells]
  | cons p ps ih =>
    obtain ⟨x, c⟩ := p
    rw [pixelsCells_cons]
    simp only [Memory.get?]
    by_cases h : x < i
    · simp [show 2 * x < 2 * i by omega, show 2 * x + 1 < 2 * i by omega, show 2 * x < 2 * i + 1 by omega, h, ih.1, ih.2]
    · by_cases he : x = i
      · subst he; simp
      · rw [if_neg h, if_neg he, if_neg (by omega), if_neg (by omega)]
        by_cases h1 : 2 * x < 2 * i + 1
        · omega
        · rw [if_neg h1, if_neg (by omega)]; simp

/-- What a pixel store leaves at each framebuffer byte. -/
theorem fbByte_storePixels {ps : List (Nat × Half)} (h : Memory.wf ps = true) (s : State) (i : Nat) :
    fbByte (s.storePixels ps) (2 * i) = ((Memory.get? ps i).map hi8).getD (fbByte s (2 * i)) ∧
    fbByte (s.storePixels ps) (2 * i + 1) = ((Memory.get? ps i).map lo8).getD (fbByte s (2 * i + 1)) := by
  simp only [fbByte, State.storePixels_fbb, State.storePixels_era, Memory.get?_overlay (pixelsCells_wf h),
    (get?_pixelsCells ps i).1, (get?_pixelsCells ps i).2]
  cases Memory.get? ps i <;> simp

/-- What a pixel store leaves at each pixel: the colour stored there, or the pixel as before. -/
theorem loadPixel_storePixels {ps : List (Nat × Half)} (h : Memory.wf ps = true) (s : State) (i : Nat) :
    loadPixel (s.storePixels ps) i = (Memory.get? ps i).getD (loadPixel s i) := by
  simp only [loadPixel, (fbByte_storePixels h s i).1, (fbByte_storePixels h s i).2]
  cases Memory.get? ps i <;> simp

/-! ## Rectangles -/

/-- A row of consecutive pixels, then the rows below, rise when each row stays inside its line. -/
theorem rows_wf (f : Nat → List (Nat × Half)) (n : Nat) :
    ∀ y, (∀ y, Memory.wf (f y) = true ∧ ∀ c ∈ f y, y * Config.W ≤ c.1 ∧ c.1 < (y + 1) * Config.W) →
      Memory.wf ((List.range' y n).flatMap f) = true ∧ Memory.From (y * Config.W) ((List.range' y n).flatMap f) := by
  induction n with
  | zero => intro y _; exact ⟨rfl, Memory.from_nil _⟩
  | succ n ih =>
    intro y hf
    simp only [List.range'_succ, List.flatMap_cons]
    obtain ⟨h1, h2⟩ := ih (y + 1) hf
    have key : ∀ L : List (Nat × Half), Memory.wf L = true → (∀ c ∈ L, y * Config.W ≤ c.1 ∧ c.1 < (y + 1) * Config.W) →
        Memory.wf (L ++ (List.range' (y + 1) n).flatMap f) = true ∧
        Memory.From (y * Config.W) (L ++ (List.range' (y + 1) n).flatMap f) := by
      intro L
      induction L with
      | nil => intro _ _; exact ⟨h1, h2.mono (Nat.mul_le_mul_right _ (by omega))⟩
      | cons c L ihL =>
        intro hw hb
        obtain ⟨g1, g2⟩ := ihL (Memory.wf_tail hw) fun d hd => hb d (List.mem_cons_of_mem _ hd)
        have hc := hb c (List.mem_cons_self ..)
        refine ⟨Memory.wf_cons (c := c) g1 ?_, Memory.From.cons hc.1 g2⟩
        intro d hd
        rcases List.mem_append.mp hd with hd | hd
        · exact Memory.wf_cons_from hw d hd
        · have := h2 d hd
          have := hc.2
          omega
    exact key (f y) (hf y).1 (hf y).2

theorem row_wf (f : Nat → Nat × Half) (hf : ∀ x, (f x).1 < (f (x + 1)).1) :
    ∀ n x, Memory.wf ((List.range' x n).map f) = true := by
  have hlt : ∀ x k, (f x).1 < (f (x + 1 + k)).1 := by
    intro x k
    induction k with
    | zero => exact hf x
    | succ k ih => have := hf (x + 1 + k); rw [show x + 1 + (k + 1) = x + 1 + k + 1 by omega]; omega
  intro n
  induction n with
  | zero => intro x; rfl
  | succ n ih =>
    intro x
    simp only [List.range'_succ, List.map_cons]
    refine Memory.wf_cons (ih (x + 1)) ?_
    intro c hc
    obtain ⟨q, hq, rfl⟩ := List.mem_map.mp hc
    have hq' := List.mem_range'_1.mp hq
    have := hlt x (q - (x + 1))
    rw [show x + 1 + (q - (x + 1)) = q by omega] at this
    omega

/-- Membership in `Pix` (R104). -/
theorem mem_pix {x1 y1 x2 y2 i : Nat} :
    i ∈ pix x1 y1 x2 y2 ↔ ∃ y x, y1 ≤ y ∧ y < y2 ∧ x1 ≤ x ∧ x < x2 ∧ i = y * Config.W + x := by
  simp only [pix, List.mem_flatMap, List.mem_map, List.mem_range'_1]
  constructor
  · rintro ⟨y, hy, x, hx, rfl⟩; exact ⟨y, x, hy.1, by omega, hx.1, by omega, rfl⟩
  · rintro ⟨y, x, h1, h2, h3, h4, rfl⟩; exact ⟨y, ⟨h1, by omega⟩, x, ⟨h3, by omega⟩, rfl⟩

theorem pix_map_eq (x1 y1 x2 y2 : Nat) (c : Half) :
    (pix x1 y1 x2 y2).map (fun i => (i, c)) =
      (List.range' y1 (y2 - y1)).flatMap fun y => (List.range' x1 (x2 - x1)).map fun x => (y * Config.W + x, c) := by
  simp only [pix, List.map_flatMap, List.map_map]
  rfl

/-- The pixels of a rectangle inside the framebuffer rise. -/
theorem pix_map_wf {x1 y1 x2 y2 : Nat} (h : x2 ≤ Config.W) (c : Half) :
    Memory.wf ((pix x1 y1 x2 y2).map fun i => (i, c)) = true := by
  rw [pix_map_eq]
  refine (rows_wf _ _ y1 ?_).1
  intro y
  refine ⟨row_wf _ (fun x => by simp) _ _, ?_⟩
  intro d hd
  obtain ⟨x, hx, rfl⟩ := List.mem_map.mp hd
  have := List.mem_range'_1.mp hx
  simp only [Config.W] at *
  constructor <;> omega

/-- A list that pairs each of its keys with one value reads as that value on its keys and nowhere else. -/
theorem get?_map_const (L : List Nat) (c : Half) (h : Memory.wf (L.map fun i => (i, c)) = true) (i : Nat) :
    Memory.get? (L.map fun i => (i, c)) i = if i ∈ L then some c else none := by
  split
  · rename_i hi
    exact Memory.get?_of_mem h (List.mem_map.mpr ⟨i, hi, rfl⟩)
  · rename_i hi
    refine Memory.get?_eq_none fun b hb => hi ?_
    obtain ⟨j, hj, he⟩ := List.mem_map.mp hb
    cases he; exact hj

/-- The canonical form is about the keys alone: they strictly rise. -/
theorem wf_iff_pairwise {β : Type} (m : Memory β) : Memory.wf m = true ↔ (m.map Prod.fst).Pairwise (· < ·) := by
  induction m with
  | nil => simp [Memory.wf]
  | cons c m ih =>
    rw [List.map_cons, List.pairwise_cons, ← ih]
    constructor
    · intro h
      refine ⟨fun a ha => ?_, Memory.wf_tail h⟩
      obtain ⟨d, hd, rfl⟩ := List.mem_map.mp ha
      exact Memory.wf_cons_from h d hd
    · rintro ⟨h1, h2⟩
      exact Memory.wf_cons h2 fun d hd => h1 d.1 (List.mem_map.mpr ⟨d, hd, rfl⟩)

theorem pix_pairwise {x1 y1 x2 y2 : Nat} (h : x2 ≤ Config.W) : (pix x1 y1 x2 y2).Pairwise (· < ·) := by
  have := (wf_iff_pairwise _).mp (pix_map_wf (x1 := x1) (y1 := y1) (y2 := y2) h 0#16)
  simpa [List.map_map, Function.comp_def] using this

/-- The pixels of a rectangle paired with values rise. -/
theorem pix_zip_wf {x1 y1 x2 y2 : Nat} (h : x2 ≤ Config.W) (L : List Half) :
    Memory.wf ((pix x1 y1 x2 y2).zip L) = true := by
  rw [wf_iff_pairwise]
  have key : ∀ (K : List Nat) (L : List Half), (K.zip L).map Prod.fst = K.take L.length := by
    intro K
    induction K with
    | nil => intro L; simp
    | cons k K ih => intro L; cases L <;> simp [ih]
  rw [key]
  exact (pix_pairwise h).sublist (List.take_sublist _ _)

/-- Every pixel of a rectangle inside the framebuffer is one. -/
theorem pix_lt {x1 y1 x2 y2 i : Nat} (hx : x2 ≤ Config.W) (hy : y2 ≤ Config.H) (h : i ∈ pix x1 y1 x2 y2) :
    i < Config.NPIX := by
  obtain ⟨y, x, h1, h2, h3, h4, rfl⟩ := mem_pix.mp h
  simp only [Config.W, Config.H, Config.NPIX] at *
  omega

/-- Storing rising pixels of the framebuffer keeps it in canonical form and in its space. -/
theorem storePixels_ok {ps : List (Nat × Half)} (hw : Memory.wf ps = true) (hp : ∀ p ∈ ps, p.1 < Config.NPIX)
    {s : State} (hs : Memory.wf s.fbb = true) (hk : ∀ c ∈ s.fbb, c.1 < Config.FB_BYTES) :
    Memory.wf (s.storePixels ps).fbb = true ∧ ∀ c ∈ (s.storePixels ps).fbb, c.1 < Config.FB_BYTES := by
  refine ⟨Memory.overlay_wf (pixelsCells_wf hw) hs, ?_⟩
  refine Memory.overlay_mem (fun c => c.1 < Config.FB_BYTES) ?_ s.fbb hk
  intro c hc
  obtain ⟨p, hpm, hc⟩ := List.mem_flatMap.mp hc
  have := hp p hpm
  simp only [pixelCells, List.mem_cons, List.not_mem_nil, or_false, Config.NPIX, Config.FB_BYTES] at *
  rcases hc with rfl | rfl <;> dsimp only <;> omega

/-- `Pix(0, 0, W, H)` is every pixel in order (R108). -/
theorem pix_full : pix 0 0 Config.W Config.H = List.range Config.NPIX := by
  have key : ∀ n, (List.range' 0 n).flatMap (fun y => (List.range' 0 240).map fun x => y * 240 + x) =
      List.range (n * 240) := by
    intro n
    induction n with
    | zero => rfl
    | succ n ih =>
      rw [List.range'_concat (n := n), List.flatMap_append, ih, Nat.add_mul, Nat.one_mul, List.range_add,
        List.range_eq_range' (n := 240)]
      simp
  exact key 320

end Sys2Proof.Machine
end

