-- ==== Sys2Proof/Laws/Panel.lean ====
section
/-! SUPPORT. What the observer does with a transaction's bytes: its cells stay in canonical form, a window command sets the
window, a run of whole pixels inside the window stores them in order. -/

namespace Sys2Proof.Machine

/-- The observer's cells are in canonical form and its cursor column is below `2^16`. -/
abbrev Panel.Ok (p : Panel) : Prop := Memory.wf p.gram = true ∧ p.cx < 65536

theorem Panel.unknown_ok (k : Nat) : (Panel.unknown k).Ok := ⟨rfl, (Config.panelCursor k).1.isLt⟩

theorem Panel.command_ok {p : Panel} (h : p.Ok) (b : Byte) : (p.command b).Ok := by
  unfold Panel.command
  dsimp only
  split
  · exact ⟨h.1, p.sc.isLt⟩
  · exact h

theorem Panel.columnByte_ok {p : Panel} (h : p.Ok) (d : Byte) : (p.columnByte d).Ok := by
  unfold Panel.columnByte
  dsimp only
  split <;> exact h

theorem Panel.pageByte_ok {p : Panel} (h : p.Ok) (d : Byte) : (p.pageByte d).Ok := by
  unfold Panel.pageByte
  dsimp only
  split <;> exact h

theorem foldl_ok {f : Panel → Byte → Panel} (hf : ∀ p b, p.Ok → (f p b).Ok) (L : List Byte) :
    ∀ p : Panel, p.Ok → (L.foldl f p).Ok := by
  induction L with
  | nil => exact fun p h => h
  | cons b L ih => exact fun p h => ih _ (hf p b h)

theorem cursorNext_lt {sc ec cx cy : Nat} (hsc : sc < 65536) (hec : ec < 65536) : (cursorNext sc ec cx cy).1 < 65536 := by
  unfold cursorNext
  split
  · exact hsc
  · show cx + 1 < 65536; omega

theorem gramKey_lt_next {sc ec cx cy : Nat} (h : cx < 65536) :
    gramKey cx cy < gramKey (cursorNext sc ec cx cy).1 (cursorNext sc ec cx cy).2 := by
  unfold cursorNext gramKey
  split <;> dsimp only <;> omega

/-- The pixels of a run rise from the cursor on, and the cursor column stays below `2^16`. -/
theorem pixelRun_ok {sc ec ep : Nat} (hsc : sc < 65536) (hec : ec < 65536) (L : List Byte) :
    ∀ (cx cy : Nat) (held : Option Byte), cx < 65536 →
      Memory.wf (pixelRun sc ec ep L cx cy held).writes = true ∧
      Memory.From (gramKey cx cy) (pixelRun sc ec ep L cx cy held).writes ∧
      (pixelRun sc ec ep L cx cy held).cx < 65536 := by
  induction L with
  | nil => exact fun cx cy held h => ⟨rfl, Memory.from_nil _, h⟩
  | cons d L ih =>
    intro cx cy held h
    rw [pixelRun.eq_def]
    dsimp only
    split
    · exact ⟨rfl, Memory.from_nil _, h⟩
    · cases held with
      | none => exact ih cx cy (some d) h
      | some hi =>
        obtain ⟨h1, h2, h3⟩ := ih (cursorNext sc ec cx cy).1 (cursorNext sc ec cx cy).2 none (cursorNext_lt hsc hec)
        have hk := gramKey_lt_next (sc := sc) (ec := ec) (cy := cy) h
        exact ⟨Memory.wf_cons (c := (gramKey cx cy, joinHalf hi d)) h1 (h2.mono hk),
          Memory.From.cons (Nat.le_refl _) (h2.mono (Nat.le_of_lt hk)), h3⟩

theorem Panel.pixels_ok {p : Panel} (h : p.Ok) (L : List Byte) : (p.pixels L).Ok := by
  unfold Panel.pixels
  dsimp only
  split
  · exact Panel.unknown_ok _
  · obtain ⟨h1, -, h3⟩ := pixelRun_ok (ep := p.ep.toNat) p.sc.isLt p.ec.isLt L p.cx p.cy p.held h.2
    exact ⟨Memory.overlay_wf h1 h.1, h3⟩

/-- Whatever a transaction delivers keeps the observer's form. -/
theorem Panel.receive_ok {p : Panel} (h : p.Ok) (dc : Bool) (L : List Byte) : (p.receive dc L).Ok := by
  unfold Panel.receive Panel.data
  split
  · split
    · exact foldl_ok (fun _ b h => Panel.columnByte_ok h b) L p h
    · split
      · exact foldl_ok (fun _ b h => Panel.pageByte_ok h b) L p h
      · split
        · exact Panel.pixels_ok h L
        · exact h
  · exact foldl_ok (fun _ b h => Panel.command_ok h b) L p h

/-- COLUMN_ADDR and its four bytes set the column window (R163). -/
theorem Panel.receive_column (p : Panel) (start stop : Half) :
    (p.receive false [0x2A#8]).receive true (boundBytes start stop) =
      { p with cur := some 0x2A#8, params := boundBytes start stop, held := none, sc := joinHalf (hi8 start) (lo8 start),
               ec := joinHalf (hi8 stop) (lo8 stop) } := rfl

/-- PAGE_ADDR and its four bytes set the page window (R163). -/
theorem Panel.receive_page (p : Panel) (start stop : Half) :
    (p.receive false [0x2B#8]).receive true (boundBytes start stop) =
      { p with cur := some 0x2B#8, params := boundBytes start stop, held := none, sp := joinHalf (hi8 start) (lo8 start),
               ep := joinHalf (hi8 stop) (lo8 stop) } := rfl

/-- WRITE_RAM puts the cursor at the window's start (R163). -/
theorem Panel.receive_writeRam (p : Panel) :
    p.receive false [0x2C#8] =
      { p with cur := some 0x2C#8, params := [], held := none, cx := p.sc.toNat, cy := p.sp.toNat } := rfl

/-! ## Epochs: free values named once are not named again -/

theorem Panel.foldl_epoch {f : Panel → Byte → Panel} (hf : ∀ p b, (f p b).epoch = p.epoch) (L : List Byte) :
    ∀ p : Panel, (L.foldl f p).epoch = p.epoch := by
  induction L with
  | nil => exact fun _ => rfl
  | cons b L ih => exact fun p => (ih _).trans (hf p b)

theorem Panel.receive_epoch (p : Panel) (dc : Bool) (L : List Byte) : p.epoch ≤ (p.receive dc L).epoch := by
  have hc : ∀ (p : Panel) (b : Byte), (p.command b).epoch = p.epoch := by
    intro p b; unfold Panel.command; dsimp only; split <;> rfl
  have h1 : ∀ (p : Panel) (b : Byte), (p.columnByte b).epoch = p.epoch := by
    intro p b; unfold Panel.columnByte; dsimp only; split <;> rfl
  have h2 : ∀ (p : Panel) (b : Byte), (p.pageByte b).epoch = p.epoch := by
    intro p b; unfold Panel.pageByte; dsimp only; split <;> rfl
  unfold Panel.receive
  split
  · unfold Panel.data
    split
    · exact Nat.le_of_eq (Panel.foldl_epoch h1 L p).symm
    · split
      · exact Nat.le_of_eq (Panel.foldl_epoch h2 L p).symm
      · split
        · unfold Panel.pixels
          dsimp only
          split
          · exact Nat.le_succ _
          · exact Nat.le_refl _
        · exact Nat.le_refl _
  · exact Nat.le_of_eq (Panel.foldl_epoch hc L p).symm

/-! ## Whole pixels -/

/-- The bytes of a list of pixels, high byte first. -/
def pixelBytes (cs : List Half) : List Byte := cs.flatMap fun c => [hi8 c, lo8 c]

/-- The cells that hold the pixels `cs` from the `k`-th place of a window of `w` columns on. -/
def windowCells (sc sp w : Nat) : Nat → List Half → Memory Half
  | _, [] => []
  | k, c :: cs => (gramKey (sc + k % w) (sp + k / w), c) :: windowCells sc sp w (k + 1) cs

theorem cursorNext_place {sc ec sp k : Nat} (h : sc ≤ ec) :
    cursorNext sc ec (sc + k % (ec - sc + 1)) (sp + k / (ec - sc + 1)) =
      (sc + (k + 1) % (ec - sc + 1), sp + (k + 1) / (ec - sc + 1)) := by
  generalize hw : ec - sc + 1 = w
  have hpos : 0 < w := by omega
  obtain ⟨q, r, hr, rfl⟩ : ∃ q r, r < w ∧ k = w * q + r :=
    ⟨k / w, k % w, Nat.mod_lt k hpos, (Nat.div_add_mod k w).symm⟩
  have m0 : (w * q + r) % w = r := by rw [Nat.mul_add_mod, Nat.mod_eq_of_lt hr]
  have d0 : (w * q + r) / w = q := by rw [Nat.mul_add_div hpos, Nat.div_eq_of_lt hr]; rfl
  rw [m0, d0]
  unfold cursorNext
  by_cases hl : r + 1 = w
  · have e : w * q + r + 1 = w * (q + 1) := by rw [Nat.mul_add]; omega
    rw [if_pos (by omega), e, Nat.mul_mod_right, Nat.mul_div_cancel_left _ hpos]
    rfl
  · have h1 : (w * q + r + 1) % w = r + 1 := by rw [Nat.add_assoc, Nat.mul_add_mod, Nat.mod_eq_of_lt (by omega)]
    have h2 : (w * q + r + 1) / w = q := by
      rw [Nat.add_assoc, Nat.mul_add_div hpos, Nat.div_eq_of_lt (by omega)]; rfl
    rw [if_neg (by omega), h1, h2]
    rfl

/-- Whole pixels inside the window are stored in order, none is left over, and the window is not passed (R163). -/
theorem pixelRun_pixels {sc ec sp ep : Nat} (h : sc ≤ ec) (hp : sp ≤ ep) (cs : List Half) :
    ∀ k, k + cs.length ≤ (ec - sc + 1) * (ep - sp + 1) →
      pixelRun sc ec ep (pixelBytes cs) (sc + k % (ec - sc + 1)) (sp + k / (ec - sc + 1)) none =
        ⟨windowCells sc sp (ec - sc + 1) k cs, sc + (k + cs.length) % (ec - sc + 1),
          sp + (k + cs.length) / (ec - sc + 1), none, false⟩ := by
  induction cs with
  | nil => intro k _; rfl
  | cons c cs ih =>
    intro k hk
    rw [List.length_cons] at hk
    have hrow : k / (ec - sc + 1) < ep - sp + 1 := Nat.div_lt_of_lt_mul (by omega)
    have hb : pixelBytes (c :: cs) = hi8 c :: lo8 c :: pixelBytes cs := rfl
    have hnext := ih (k + 1) (by omega)
    rw [show k + 1 + cs.length = k + (cs.length + 1) by omega] at hnext
    rw [hb, pixelRun.eq_def]
    dsimp only
    rw [if_neg (by omega), pixelRun.eq_def]
    dsimp only
    rw [if_neg (by omega), cursorNext_place h]
    dsimp only
    rw [hnext]
    simp [windowCells, joinHalf_hi8_lo8]

/-- The cells of consecutive places rise. -/
theorem windowCells_wf {sc sp w : Nat} (hw : 0 < w) (hsc : sc + w ≤ 65536) (cs : List Half) :
    ∀ k, Memory.wf (windowCells sc sp w k cs) = true ∧
      Memory.From (gramKey (sc + k % w) (sp + k / w)) (windowCells sc sp w k cs) := by
  induction cs with
  | nil => exact fun k => ⟨rfl, Memory.from_nil _⟩
  | cons c cs ih =>
    intro k
    obtain ⟨h1, h2⟩ := ih (k + 1)
    have hlt : gramKey (sc + k % w) (sp + k / w) < gramKey (sc + (k + 1) % w) (sp + (k + 1) / w) := by
      have hmod := Nat.mod_lt k hw
      have e := cursorNext_place (sc := sc) (ec := sc + w - 1) (sp := sp) (k := k) (by omega)
      rw [show sc + w - 1 - sc + 1 = w by omega] at e
      have := gramKey_lt_next (sc := sc) (ec := sc + w - 1) (cx := sc + k % w) (cy := sp + k / w) (by omega)
      rw [e] at this
      exact this
    exact ⟨Memory.wf_cons (c := (gramKey (sc + k % w) (sp + k / w), c)) h1 (h2.mono hlt),
      Memory.From.cons (Nat.le_refl _) (h2.mono (Nat.le_of_lt hlt))⟩

theorem mem_windowCells {sc sp w : Nat} {cs : List Half} {d : Nat × Half} :
    ∀ {k : Nat}, d ∈ windowCells sc sp w k cs ↔
      ∃ j, cs[j]? = some d.2 ∧ d.1 = gramKey (sc + (k + j) % w) (sp + (k + j) / w) := by
  induction cs with
  | nil => intro k; simp [windowCells]
  | cons c cs ih =>
    intro k
    rw [windowCells, List.mem_cons, ih]
    constructor
    · rintro (rfl | ⟨j, h1, h2⟩)
      · exact ⟨0, rfl, rfl⟩
      · exact ⟨j + 1, h1, by rw [h2, show k + 1 + j = k + (j + 1) by omega]⟩
    · rintro ⟨j, h1, h2⟩
      cases j with
      | zero => left; obtain ⟨a, b⟩ := d; simp only [List.getElem?_cons_zero, Option.some.injEq] at h1; rw [h1]; exact Prod.ext h2 rfl
      | succ j => right; exact ⟨j, h1, by rw [h2, show k + 1 + j = k + (j + 1) by omega]⟩

/-- Whole pixels sent as data after WRITE_RAM, from the `k`-th place of the window on (R163, R165). -/
theorem Panel.receive_pixels (p : Panel) (cs : List Half) (k : Nat) (hcur : p.cur = some 0x2C#8)
    (h : p.sc.toNat ≤ p.ec.toNat) (hp : p.sp.toNat ≤ p.ep.toNat)
    (hk : k + cs.length ≤ (p.ec.toNat - p.sc.toNat + 1) * (p.ep.toNat - p.sp.toNat + 1))
    (hx : p.cx = p.sc.toNat + k % (p.ec.toNat - p.sc.toNat + 1))
    (hy : p.cy = p.sp.toNat + k / (p.ec.toNat - p.sc.toNat + 1)) (hh : p.held = none) :
    p.receive true (pixelBytes cs) =
      { p with
        cx := p.sc.toNat + (k + cs.length) % (p.ec.toNat - p.sc.toNat + 1),
        cy := p.sp.toNat + (k + cs.length) / (p.ec.toNat - p.sc.toNat + 1),
        gram := Memory.overlay (windowCells p.sc.toNat p.sp.toNat (p.ec.toNat - p.sc.toNat + 1) k cs) p.gram } := by
  have h0 : p.receive true (pixelBytes cs) = p.pixels (pixelBytes cs) := by
    simp [Panel.receive, Panel.data, hcur]
  rw [h0, Panel.pixels, hx, hy, hh, pixelRun_pixels h hp cs k hk]
  simp

end Sys2Proof.Machine
end

