-- ==== Sys2Proof/Laws/Transport.lean ====
section
/-! SUPPORT. Every transport procedure as a run of acts: what the shared operations over the bus can do, said once. -/

namespace Sys2Proof.Machine

@[simp] theorem State.afterTxn_cfg (s : State) (dc : Bool) (L : List Byte) : (s.afterTxn dc L).cfg = s.cfg := rfl
@[simp] theorem State.afterTxn_dc (s : State) (dc : Bool) (L : List Byte) : (s.afterTxn dc L).dc = true := rfl

theorem State.eq_setDc {s : State} (h : s.dc = true) : s.setDc true = s := by
  cases s; simp only [State.setDc] at *; subst h; rfl

/-- `TxCmd` is one command transaction (R77). -/
theorem txCmd_eq (b : Byte) (s : State) :
    busResult (txCmd b s) = runActs [.txn false [b]] s := by
  simp only [runActs]
  cases h : s.nextOk <;>
    simp only [State.nextOk] at h <;>
    simp [txCmd, busTxn, busResult, h, State.afterTxn, State.nextOk, State.log, State.setDc]

/-- A data transaction that leaves `DC` at 1 (R72, R76). -/
theorem busTxn_data_eq (L : List Byte) (s : State) (hdc : s.dc = true) :
    busResult (busTxn true L s) = runActs [.txn true L] s := by
  simp only [runActs]
  cases h : s.nextOk <;>
    simp only [State.nextOk] at h <;>
    simp [busTxn, busResult, h, State.afterTxn, State.nextOk, State.log, hdc]

/-- `TxData` on a list of a length it sends (R76). -/
theorem txData_eq (L : List Byte) (s : State) (h0 : L ≠ []) (h1 : L.length ≤ s.cfg.maxXfer) :
    txData L s = runActs [.txn true L] s := by
  have h2 : L.length ≠ 0 := by simpa using h0
  have h3 : ¬ L.length > s.cfg.maxXfer := by omega
  rw [txData, if_neg h2, if_neg h3, busTxn_data_eq L _ rfl]
  simp only [runActs]
  rfl

theorem runActs_append (a b : List Act) (s : State) : runActs (a ++ b) s = (runActs a s).andThen (runActs b) := by
  induction a generalizing s with
  | nil => rfl
  | cons x a ih =>
    cases x with
    | mark e => exact ih _
    | txn dc L =>
      simp only [List.cons_append, runActs]
      split
      · exact ih _
      · rfl

theorem runActs_cons (x : Act) (acts : List Act) (s : State) :
    runActs (x :: acts) s = (runActs [x] s).andThen (runActs acts) := by
  rw [← List.singleton_append, runActs_append]

/-- A run of acts never goes back to an earlier epoch of the observer. -/
theorem runActs_epoch (acts : List Act) : ∀ s : State, s.panel.epoch ≤ (runActs acts s).2.panel.epoch := by
  induction acts with
  | nil => exact fun _ => Nat.le_refl _
  | cons x acts ih =>
    intro s
    cases x with
    | mark e => exact ih { s with trace := s.trace ++ [e] }
    | txn dc L =>
      have h : s.panel.epoch ≤ (s.afterTxn dc L).panel.epoch := Panel.receive_epoch _ _ _
      simp only [runActs]
      split
      · exact Nat.le_trans h (ih _)
      · exact h

/-- A run of acts changes what bus transactions change, and the trace. -/
theorem runActs_busOnly (acts : List Act) (s : State) : BusOnly s (runActs acts s).2 := by
  induction acts generalizing s with
  | nil => rfl
  | cons x acts ih =>
    cases x with
    | mark e => have := ih { s with trace := s.trace ++ [e] }; simp only [BusOnly, runActs] at *; exact this
    | txn dc L =>
      simp only [runActs]
      split
      · have := ih (s.afterTxn dc L); simp only [BusOnly, State.afterTxn] at *; exact this
      · rfl

@[simp] theorem runActs_cfg (acts : List Act) (s : State) : (runActs acts s).2.cfg = s.cfg := by
  rw [runActs_busOnly acts s]
@[simp] theorem runActs_fbb (acts : List Act) (s : State) : (runActs acts s).2.fbb = s.fbb := by
  rw [runActs_busOnly acts s]
@[simp] theorem runActs_era (acts : List Act) (s : State) : (runActs acts s).2.era = s.era := by
  rw [runActs_busOnly acts s]
@[simp] theorem runActs_scr (acts : List Act) (s : State) : (runActs acts s).2.scr = s.scr := by
  rw [runActs_busOnly acts s]
@[simp] theorem runActs_ops (acts : List Act) (s : State) : (runActs acts s).2.ops = s.ops := by
  rw [runActs_busOnly acts s]

/-- Continuing after acts needs only what the acts leave. -/
theorem Ran.andThen_congr {r : Ran} {k k' : State → Ran} (h : r.1 = none → k r.2 = k' r.2) :
    r.andThen k = r.andThen k' := by
  obtain ⟨e, s⟩ := r
  cases e with
  | none => exact h rfl
  | some e => rfl

/-- A panel command whose payload fits one transaction is its acts (R63, R68). -/
theorem sendCommand_eq (op : Byte) (P : List Byte) (s : State) (h : P.length ≤ s.cfg.maxXfer) :
    sendCommand op P s = runActs (commandActs op P) s := by
  rw [sendCommand, txCmd_eq, commandActs, runActs_cons _ (if P = [] then [] else _)]
  apply Ran.andThen_congr
  intro _
  by_cases hP : P = []
  · simp [hP, runActs]
  · have hl : P.length > 0 := List.length_pos_iff.mpr hP
    rw [if_pos hl, if_neg hP, txData_eq P _ hP (by simpa using h)]

/-- A panel command as INIT sends it is its acts (R81, R102). -/
theorem emitCommand_eq (c : WireCmd) (s : State) (h : c.payload.length ≤ s.cfg.maxXfer) :
    emitCommand c s = runActs (initCommandActs s.cfg c) s := by
  rw [emitCommand, initCommandActs, sendCommand_eq _ _ _ h, runActs_append]
  apply Ran.andThen_congr
  intro _
  split
  · simp [runActs, State.waitFor, State.log]
  · rfl

/-- The commands still to send play no part in a run of acts. -/
theorem runActs_setPending (acts : List Act) (s : State) (p : List WireCmd) :
    runActs acts (s.setPending p) = ((runActs acts s).1, (runActs acts s).2.setPending p) := by
  induction acts generalizing s with
  | nil => rfl
  | cons x acts ih =>
    cases x with
    | mark e => exact ih { s with trace := s.trace ++ [e] }
    | txn dc L =>
      have h : (s.setPending p).nextOk = s.nextOk := rfl
      simp only [runActs, h]
      split
      · exact ih (s.afterTxn dc L)
      · rfl

/-- A list of commands as INIT sends them is their acts, one after the other (R102). -/
theorem emitAll_eq (cs : List WireCmd) (s : State) (h : ∀ c ∈ cs, c.payload.length ≤ s.cfg.maxXfer) :
    ∃ p, emitAll cs s = ((runActs (cs.flatMap (initCommandActs s.cfg)) s).1,
      (runActs (cs.flatMap (initCommandActs s.cfg)) s).2.setPending p) := by
  induction cs generalizing s with
  | nil => exact ⟨s.pending, rfl⟩
  | cons c cs ih =>
    have e1 : emitCommand c (s.setPending cs) =
        ((runActs (initCommandActs s.cfg c) s).1, (runActs (initCommandActs s.cfg c) s).2.setPending cs) := by
      rw [emitCommand_eq c _ (by exact h c (List.mem_cons_self ..))]
      exact runActs_setPending _ _ _
    rw [emitAll, e1, List.flatMap_cons, runActs_append]
    generalize hr : runActs (initCommandActs s.cfg c) s = r
    have hcfg : r.2.cfg = s.cfg := by rw [← hr, runActs_cfg]
    obtain ⟨e, t⟩ := r
    cases e with
    | some e => exact ⟨cs, rfl⟩
    | none =>
      simp only [Ran.andThen] at *
      obtain ⟨p, hp⟩ := ih (t.setPending cs) (by
        intro d hd; show _ ≤ t.cfg.maxXfer; rw [hcfg]; exact h d (List.mem_cons_of_mem _ hd))
      refine ⟨p, ?_⟩
      have hc : (t.setPending cs).cfg = s.cfg := hcfg
      rw [hc, runActs_setPending] at hp
      exact hp

/-- The window pair is its acts (R99). -/
theorem windowPair_eq (x1 y1 x2 y2 : Nat) (s : State) (h : 4 ≤ s.cfg.maxXfer) :
    windowPair x1 y1 x2 y2 s = runActs (windowActs s.cfg x1 y1 x2 y2) s := by
  rw [windowPair, windowActs, sendBounds, sendCommand_eq _ _ _ (by simpa [boundBytes] using h), runActs_append,
    runActs_append]
  generalize hr : runActs (commandActs 42#8 _) s = r
  have hcfg : r.2.cfg = s.cfg := by rw [← hr, runActs_cfg]
  obtain ⟨e, t⟩ := r
  cases e with
  | some e => rfl
  | none =>
    simp only [Ran.andThen_none] at *
    rw [sendBounds, sendCommand_eq _ _ _ (by rw [hcfg]; simpa [boundBytes] using h), hcfg]
    apply Ran.andThen_congr
    intro _
    rw [sendCommand_eq _ _ _ (by simp)]

/-- Sending chunks is one data act per chunk, when each fits (R118). -/
theorem sendChunks_eq (src : State → Nat → Nat → List Byte) (plan : List (Nat × Nat)) (s : State)
    (hsrc : ∀ t, BusOnly s t → ∀ c ∈ plan, src t c.1 c.2 = src s c.1 c.2)
    (hlen : ∀ c ∈ plan, src s c.1 c.2 ≠ [] ∧ (src s c.1 c.2).length ≤ s.cfg.maxXfer) :
    sendChunks src plan s = runActs (chunkActs (plan.map fun c => src s c.1 c.2)) s := by
  induction plan generalizing s with
  | nil => rfl
  | cons c plan ih =>
    have hc := hlen c (List.mem_cons_self ..)
    rw [sendChunks, txData_eq _ _ hc.1 hc.2, List.map_cons, chunkActs, List.map_cons,
      runActs_cons _ (List.map _ _)]
    apply Ran.andThen_congr
    intro _
    generalize hr : runActs [.txn true (src s c.1 c.2)] s = r
    have hb : BusOnly s r.2 := hr ▸ runActs_busOnly _ s
    have hcfg : r.2.cfg = s.cfg := by rw [hb]
    have hs : ∀ d ∈ plan, src r.2 d.1 d.2 = src s d.1 d.2 := fun d hd => hsrc r.2 hb d (List.mem_cons_of_mem _ hd)
    rw [ih r.2]
    · rw [List.map_congr_left hs]; rfl
    · intro t ht d hd
      rw [hs d hd]
      refine hsrc t ?_ d (List.mem_cons_of_mem _ hd)
      simp only [BusOnly] at *
      rw [ht, hb]
    · intro d hd
      rw [hs d hd, hcfg]
      exact hlen d (List.mem_cons_of_mem _ hd)

end Sys2Proof.Machine
end

