-- ==== Sys2Proof/Laws/Operations.lean ====
section
/-! SUPPORT. What every procedure over the bus can do, said once (`Issues`), and that each shared operation does no more. -/

namespace Sys2Proof.Machine

/-- `DC`, `CS` at rest and nothing in flight. -/
abbrev State.quiet (s : State) : Prop := s.dc = true ∧ s.cs = true ∧ s.inflight = 0

/-- The events of a procedure that returned `e`: wire form, no failed transaction before the last, and a failed one exactly
when BUS_FAIL is returned. -/
structure EventsOk (ceiling : Nat) (e : Option Err) (new : List Event) : Prop where
  form : ∀ x ∈ new, eventFormOk ceiling x = true
  early : ∀ x ∈ new.dropLast, eventFailed x = false
  failed : (∃ x ∈ new, eventFailed x = true) ↔ e = some errBusFail

/-- What a procedure over the bus can do: it changes the fields of a transaction, the draws, the scratch and the commands
still to send, keeps quiet lines quiet and the observer's form, and adds events in order. -/
structure Issues (s : State) (r : Ran) : Prop where
  errors : ∀ e, r.1 = some e → e = errBusFail ∨ e = errZeroLength ∨ e = errOversize
  frame : r.2 = { s with
    dc := r.2.dc, cs := r.2.cs, inflight := r.2.inflight, trace := r.2.trace, panel := r.2.panel, draws := r.2.draws,
    pending := r.2.pending, scr := r.2.scr, scrHeld := r.2.scrHeld }
  quiet : s.quiet → r.2.quiet
  panel : s.panel.Ok → r.2.panel.Ok
  events : ∃ new, r.2.trace = s.trace ++ new ∧ EventsOk s.cfg.maxXfer r.1 new

theorem EventsOk.nil {n : Nat} {e : Option Err} (h : e ≠ some errBusFail) : EventsOk n e [] :=
  ⟨by simp, by simp, by simp [h]⟩

theorem Issues.cfg {s : State} {r : Ran} (h : Issues s r) : r.2.cfg = s.cfg := by rw [h.frame]

/-- Every field that a procedure over the bus leaves alone. -/
theorem Issues.fields {s : State} {r : Ran} (h : Issues s r) :
    r.2.args = s.args ∧ r.2.busy = s.busy ∧ r.2.curOp = s.curOp ∧ r.2.initDone = s.initDone ∧
    r.2.fontReady = s.fontReady ∧ r.2.code = s.code ∧ r.2.sub = s.sub ∧ r.2.lastOpc = s.lastOpc ∧
    r.2.errInfo = s.errInfo ∧ r.2.rst = s.rst ∧ r.2.fbb = s.fbb ∧ r.2.ci = s.ci ∧ r.2.resetIn = s.resetIn ∧
    r.2.cfg = s.cfg ∧ r.2.era = s.era ∧ r.2.ops = s.ops ∧ r.2.host = s.host ∧ r.2.reads = s.reads ∧
    r.2.hmem = s.hmem ∧ r.2.argsWritten = s.argsWritten ∧ r.2.statusUnread = s.statusUnread ∧
    r.2.awaiting = s.awaiting := by
  rw [h.frame]
  exact ⟨rfl, rfl, rfl, rfl, rfl, rfl, rfl, rfl, rfl, rfl, rfl, rfl, rfl, rfl, rfl, rfl, rfl, rfl, rfl, rfl, rfl, rfl⟩

/-- A procedure that does nothing and reports no BUS_FAIL. -/
theorem Issues.still {s : State} {e : Option Err}
    (h : e = none ∨ e = some errZeroLength ∨ e = some errOversize) : Issues s (e, s) :=
  ⟨by rcases h with rfl | rfl | rfl <;> simp, rfl, id, id, [], by simp, EventsOk.nil (show e ≠ some errBusFail by rcases h with rfl | rfl | rfl <;> decide)⟩

/-- One procedure after another. -/
theorem Issues.andThen {s : State} {r : Ran} {k : State → Ran} (h : Issues s r)
    (hk : r.1 = none → Issues r.2 (k r.2)) : Issues s (r.andThen k) := by
  have hcfg := h.cfg
  obtain ⟨e, t⟩ := r
  cases e with
  | some e => exact h
  | none =>
    have g : Issues t (k t) := hk rfl
    show Issues s (k t)
    obtain ⟨new, h1, h2⟩ := h.events
    obtain ⟨new', g1, g2⟩ := g.events
    have hf : t = _ := h.frame
    refine ⟨g.errors, ?_, fun q => g.quiet (h.quiet q), fun q => g.panel (h.panel q), new ++ new', ?_, ?_, ?_, ?_⟩
    · have gf := g.frame
      rw [hf] at gf
      rw [hf]
      exact gf
    · rw [g1]; show t.trace ++ new' = _; rw [show t.trace = _ from h1, List.append_assoc]
    · intro x hx
      rcases List.mem_append.mp hx with hx | hx
      · exact h2.form x hx
      · have := g2.form x hx; rwa [show t.cfg = s.cfg from hcfg] at this
    · intro x hx
      have hn : ∀ x ∈ new, eventFailed x = false := by
        intro y hy
        cases hfy : eventFailed y with
        | false => rfl
        | true => exact absurd (h2.failed.mp ⟨y, hy, hfy⟩) (by simp)
      by_cases he : new' = []
      · subst he
        rw [List.append_nil] at hx
        exact hn x (List.mem_of_mem_dropLast hx)
      · rw [List.dropLast_append_of_ne_nil he] at hx
        rcases List.mem_append.mp hx with hx | hx
        · exact hn x hx
        · exact g2.early x hx
    · rw [← g2.failed]
      constructor
      · rintro ⟨x, hx, hb⟩
        rcases List.mem_append.mp hx with hx | hx
        · exact absurd (h2.failed.mp ⟨x, hx, hb⟩) (by simp)
        · exact ⟨x, hx, hb⟩
      · rintro ⟨x, hx, hb⟩
        exact ⟨x, List.mem_append.mpr (Or.inr hx), hb⟩

/-- One transaction of wire form. -/
theorem runActs_txn_issues (s : State) (dc : Bool) (L : List Byte)
    (h : ∀ ok, eventFormOk s.cfg.maxXfer (.txn dc L ok) = true) : Issues s (runActs [.txn dc L] s) := by
  simp only [runActs]
  split
  · rename_i hn
    refine ⟨by simp, rfl, fun _ => ⟨rfl, rfl, rfl⟩, fun q => Panel.receive_ok q _ _, [.txn dc L s.nextOk], rfl, ?_, ?_, ?_⟩
    · intro x hx; rw [List.mem_singleton.mp hx]; exact h _
    · simp
    · simp [eventFailed, hn]
  · rename_i hn
    refine ⟨by simp, rfl, fun _ => ⟨rfl, rfl, rfl⟩, fun q => Panel.receive_ok q _ _, [.txn dc L s.nextOk], rfl, ?_, ?_, ?_⟩
    · intro x hx; rw [List.mem_singleton.mp hx]; exact h _
    · simp
    · simp [eventFailed, hn]

theorem txCmd_issues (b : Byte) (s : State) : Issues s (busResult (txCmd b s)) := by
  rw [txCmd_eq]
  exact runActs_txn_issues s false [b] fun _ => rfl

theorem txData_issues (L : List Byte) (s : State) : Issues s (txData L s) := by
  by_cases h0 : L = []
  · rw [txData, if_pos (by simp [h0])]
    exact Issues.still (by simp)
  · by_cases h1 : L.length ≤ s.cfg.maxXfer
    · rw [txData_eq L s h0 h1]
      refine runActs_txn_issues s true L fun _ => ?_
      have := List.length_pos_iff.mpr h0
      simp only [eventFormOk, Bool.and_eq_true, decide_eq_true_eq]
      exact ⟨this, h1⟩
    · rw [txData, if_neg (by simpa using h0), if_pos (by omega)]
      exact Issues.still (by simp)

theorem sendCommand_issues (op : Byte) (P : List Byte) (s : State) : Issues s (sendCommand op P s) := by
  refine (txCmd_issues op s).andThen fun _ => ?_
  split
  · exact txData_issues P _
  · exact Issues.still (by simp)

/-- The scratch is not touched. -/
abbrev KeepsScratch (s : State) (r : Ran) : Prop := r.2.scr = s.scr ∧ r.2.scrHeld = s.scrHeld

theorem KeepsScratch.andThen {s : State} {r : Ran} {k : State → Ran} (h : KeepsScratch s r)
    (hk : ∀ t, KeepsScratch t (k t)) : KeepsScratch s (r.andThen k) := by
  obtain ⟨e, t⟩ := r
  cases e with
  | some e => exact h
  | none => exact ⟨(hk t).1.trans h.1, (hk t).2.trans h.2⟩

theorem sendCommand_scratch (op : Byte) (P : List Byte) (s : State) : KeepsScratch s (sendCommand op P s) := by
  have h0 : KeepsScratch s (busResult (txCmd op s)) := ⟨rfl, rfl⟩
  refine h0.andThen fun t => ?_
  split
  · unfold txData
    split
    · exact ⟨rfl, rfl⟩
    · split <;> exact ⟨rfl, rfl⟩
  · exact ⟨rfl, rfl⟩

theorem emitCommand_scratch (c : WireCmd) (s : State) : KeepsScratch s (emitCommand c s) := by
  refine (sendCommand_scratch _ _ s).andThen fun t => ?_
  split <;> exact ⟨rfl, rfl⟩

theorem log_issues (s : State) (n : WaitName) (k : Nat) : Issues s (none, s.waitFor n k) :=
  ⟨by simp, rfl, id, id, [.wait n k], rfl, by simp [eventFormOk], by simp, by simp [eventFailed]⟩

theorem emitCommand_issues (c : WireCmd) (s : State) : Issues s (emitCommand c s) := by
  refine (sendCommand_issues _ _ s).andThen fun _ => ?_
  split
  · exact log_issues _ _ _
  · exact Issues.still (by simp)

theorem emitAll_issues (cs : List WireCmd) : ∀ s : State, Issues s (emitAll cs s) := by
  induction cs with
  | nil => exact fun s => Issues.still (by simp)
  | cons c cs ih =>
    intro s
    have h := emitCommand_issues c (s.setPending cs)
    have h' : Issues s (emitCommand c (s.setPending cs)) := ⟨h.errors, h.frame, h.quiet, h.panel, h.events⟩
    exact h'.andThen fun _ => ih _

theorem windowPair_issues (x1 y1 x2 y2 : Nat) (s : State) : Issues s (windowPair x1 y1 x2 y2 s) :=
  (sendCommand_issues _ _ s).andThen fun _ => (sendCommand_issues _ _ _).andThen fun _ => sendCommand_issues _ _ _

theorem sendChunks_issues (src : State → Nat → Nat → List Byte) (plan : List (Nat × Nat)) :
    ∀ s : State, Issues s (sendChunks src plan s) := by
  induction plan with
  | nil => exact fun s => Issues.still (by simp)
  | cons c plan ih => exact fun s => (txData_issues _ s).andThen fun _ => ih _

/-- The scratch is granted or refused with RESOURCE; nothing but its flag and the draws changes (R114). -/
theorem acquireScratch_cases (size : Nat) (s : State) :
    ∃ d, acquireScratch size s = (some (errResource size), { s with draws := d }) ∨
      acquireScratch size s = (none, { s with draws := d, scrHeld := true }) := by
  unfold acquireScratch
  split
  · exact ⟨s.draws, Or.inl rfl⟩
  · split
    · dsimp only
      split
      · exact ⟨_, Or.inl rfl⟩
      · exact ⟨_, Or.inr rfl⟩
    · exact ⟨s.draws, Or.inr rfl⟩

theorem sendFull_issues (s : State) : Issues s (sendFull s) :=
  (windowPair_issues _ _ _ _ s).andThen fun _ => sendChunks_issues _ _ _

/-- A sub-region send fails to get its scratch, or is a procedure over the bus. -/
theorem sendSub_cases (x1 y1 x2 y2 : Nat) (s : State) :
    (∃ d, sendSub x1 y1 x2 y2 s = (some (errResource (2 * ((x2 - x1) * (y2 - y1)))), { s with draws := d })) ∨
    Issues s (sendSub x1 y1 x2 y2 s) := by
  unfold sendSub
  obtain ⟨d, h | h⟩ := acquireScratch_cases (2 * ((x2 - x1) * (y2 - y1))) s
  · left; exact ⟨d, by simp only [h]; rfl⟩
  · right
    simp only [h, Ran.andThen_none]
    generalize ht : ({ s with draws := d, scrHeld := true } : State) = t
    have h0 : Issues s (none, t) := by
      subst ht
      exact ⟨by simp, rfl, id, id, [], by simp, EventsOk.nil (by simp)⟩
    refine Issues.andThen (k := fun u => (windowPair x1 y1 x2 y2 (u.fillScratch (packed u x1 y1 x2 y2))).andThen
      fun u => sendChunks scrRun (subPlan u.cfg.maxXfer ((x2 - x1) * (y2 - y1))) u) h0 fun _ => ?_
    have h1 := windowPair_issues x1 y1 x2 y2 (t.fillScratch (packed t x1 y1 x2 y2))
    have h2 : Issues t (windowPair x1 y1 x2 y2 (t.fillScratch (packed t x1 y1 x2 y2))) :=
      ⟨h1.errors, h1.frame, h1.quiet, h1.panel, h1.events⟩
    exact h2.andThen fun _ => sendChunks_issues _ _ _

/-- A data transaction with the data line as it stands (R73). -/
theorem busTxn_issues (L : List Byte) (s : State) (h : ∀ ok, eventFormOk s.cfg.maxXfer (.txn true L ok) = true) :
    Issues s (busResult (busTxn true L s)) := by
  refine ⟨?_, rfl, fun q => ⟨q.1, rfl, rfl⟩, fun q => Panel.receive_ok q _ _, [.txn true L s.nextOk], rfl, ?_, ?_, ?_⟩
  · intro e he
    simp only [busResult] at he
    split at he
    · cases he
    · injection he with he; exact Or.inl he.symm
  · intro x hx; rw [List.mem_singleton.mp hx]; exact h _
  · simp
  · simp only [List.mem_singleton, exists_eq_left, eventFailed, busResult]
    show (!s.nextOk) = true ↔ (if s.nextOk = true then none else some errBusFail) = _
    cases s.nextOk <;> simp

/-- A window command does not fit a ceiling below its four payload bytes: after its command transaction it ends with OVERSIZE,
or with BUS_FAIL when that one failed (log 11). -/
theorem sendBounds_short (op : Byte) (a b : Half) (s : State) (h : s.cfg.maxXfer < 4) :
    sendBounds op a b s = (some (if s.nextOk then errOversize else errBusFail), s.afterTxn false [op]) := by
  have hlen : (boundBytes a b).length = 4 := rfl
  rw [sendBounds, sendCommand, txCmd_eq]
  simp only [runActs]
  split <;> simp [Ran.andThen, hlen, txData, h]

/-- So does the window pair. -/
theorem windowPair_short (x1 y1 x2 y2 : Nat) (s : State) (h : s.cfg.maxXfer < 4) :
    windowPair x1 y1 x2 y2 s = (some (if s.nextOk then errOversize else errBusFail), s.afterTxn false [0x2A#8]) := by
  rw [windowPair, sendBounds_short _ _ _ s h]
  rfl

end Sys2Proof.Machine
end

