-- ==== Sys2Proof/Laws/Text.lean ====
section
/-! SUPPORT. Text: each character fits its cell, the pixels of one glyph, and what the paint loop leaves at every pixel. -/

namespace Sys2Proof.Machine

theorem mem_of_glyphOf {f : Font} {c : Byte} {g : Glyph} (h : glyphOf f c = some g) : g ∈ f.glyphs :=
  List.mem_of_find?_eq_some h

/-- A glyph of a well-formed font fits its cell (R126, R134). -/
theorem charInfoOf_fits {f : Font} (hf : fontWf f = true) {g : Glyph} (hg : g ∈ f.glyphs) (norm : Bool) :
    (charInfoOf f norm g).xoff + (charInfoOf f norm g).w ≤ (charInfoOf f norm g).adv := by
  simp only [fontWf, Bool.and_eq_true, List.all_eq_true, decide_eq_true_eq, Bool.or_eq_true,
    Bool.not_eq_eq_eq_not, Bool.not_true] at hf
  have h := (hf.2 g hg).2
  unfold charInfoOf
  split
  · rename_i hn
    simp only [Bool.and_eq_true] at hn
    have hw : g.wid ≤ f.digitW := by
      rcases h with h | h
      · rw [h] at hn; exact absurd hn.2 (by simp)
      · exact h
    simp only [ceilDiv]
    omega
  · simp

/-- Every entry of `CI` comes from the metrics of its code. -/
theorem charInfos_mem {f : Font} {norm : Bool} {L : List Byte} {ci : List CharInfo}
    (h : charInfos f norm L = some ci) : ∀ c ∈ ci, ∃ g ∈ f.glyphs, c = charInfoOf f norm g := by
  induction L generalizing ci with
  | nil => simp only [charInfos, Option.some.injEq] at h; subst h; simp
  | cons b L ih =>
    simp only [charInfos] at h
    split at h
    · rename_i g ci' hg hci
      injection h with h
      subst h
      intro c hc
      rcases List.mem_cons.mp hc with rfl | hc
      · exact ⟨g, mem_of_glyphOf hg, rfl⟩
      · exact ih hci c hc
    · cases h

theorem charInfos_length {f : Font} {norm : Bool} {L : List Byte} {ci : List CharInfo}
    (h : charInfos f norm L = some ci) : ci.length = L.length := by
  induction L generalizing ci with
  | nil => simp only [charInfos, Option.some.injEq] at h; subst h; rfl
  | cons b L ih =>
    simp only [charInfos] at h
    split at h
    · rename_i g ci' hg hci
      injection h with h
      subst h
      simp [ih hci]
    · cases h

/-- `CI` is formed exactly when every code has metrics (R138). -/
theorem charInfos_eq_none {f : Font} {norm : Bool} {L : List Byte} :
    charInfos f norm L = none ↔ ∃ c ∈ L, glyphOf f c = none := by
  induction L with
  | nil => simp [charInfos]
  | cons b L ih =>
    simp only [charInfos, List.mem_cons, exists_eq_or_imp]
    rw [← ih]
    cases glyphOf f b <;> cases charInfos f norm L <;> simp

/-! ## One glyph -/

theorem glyphPixels_eq (f : Font) (color : Half) (y gx0 : Nat) (c : CharInfo) :
    glyphPixels f color y gx0 c = (List.range' y f.fh).flatMap fun r =>
      (List.range c.w).filterMap fun gx =>
        (combine (fontShade f c.xpos gx (r - y)) color).map fun p => (r * Config.W + (gx0 + gx), p) := by
  simp only [glyphPixels, List.range'_eq_map_range, List.flatMap_map]
  simp

/-- The painted pixels of a glyph inside its line rise. -/
theorem glyphPixels_wf (f : Font) (color : Half) (y gx0 : Nat) (c : CharInfo) (h : gx0 + c.w ≤ Config.W) :
    Memory.wf (glyphPixels f color y gx0 c) = true := by
  rw [glyphPixels_eq]
  refine (rows_wf _ _ y fun r => ⟨?_, ?_⟩).1
  · rw [wf_iff_pairwise, List.pairwise_map, List.pairwise_filterMap]
    refine List.Pairwise.imp ?_ (List.pairwise_lt_range (n := c.w))
    intro a b hab p hp q hq
    simp only [Option.map_eq_some_iff] at hp hq
    obtain ⟨_, -, rfl⟩ := hp
    obtain ⟨_, -, rfl⟩ := hq
    dsimp only
    omega
  · intro d hd
    obtain ⟨gx, hgx, hp⟩ := List.mem_filterMap.mp hd
    obtain ⟨_, -, rfl⟩ := Option.map_eq_some_iff.mp hp
    have := List.mem_range.mp hgx
    simp only [Config.W] at *
    constructor <;> omega

theorem mem_glyphPixels {f : Font} {color : Half} {y gx0 : Nat} {c : CharInfo} {d : Nat × Half} :
    d ∈ glyphPixels f color y gx0 c ↔ ∃ gy gx, gy < f.fh ∧ gx < c.w ∧
      combine (fontShade f c.xpos gx gy) color = some d.2 ∧ d.1 = (y + gy) * Config.W + (gx0 + gx) := by
  obtain ⟨k, v⟩ := d
  simp only [glyphPixels, List.mem_flatMap, List.mem_range, List.mem_filterMap, Option.map_eq_some_iff, Prod.mk.injEq]
  constructor
  · rintro ⟨gy, h1, gx, h2, p, h3, rfl, rfl⟩; exact ⟨gy, gx, h1, h2, h3, rfl⟩
  · rintro ⟨gy, gx, h1, h2, h3, rfl⟩; exact ⟨gy, h1, gx, h2, v, h3, rfl, rfl⟩

/-- What a glyph stores at one of its pixels. -/
theorem get?_glyphPixels {f : Font} {color : Half} {y gx0 : Nat} {c : CharInfo} (h : gx0 + c.w ≤ Config.W)
    {gx gy : Nat} (hx : gx < c.w) (hy : gy < f.fh) :
    Memory.get? (glyphPixels f color y gx0 c) ((y + gy) * Config.W + (gx0 + gx)) =
      combine (fontShade f c.xpos gx gy) color := by
  cases hc : combine (fontShade f c.xpos gx gy) color with
  | some p => exact Memory.get?_of_mem (glyphPixels_wf f color y gx0 c h) (mem_glyphPixels.mpr ⟨gy, gx, hy, hx, hc, rfl⟩)
  | none =>
    refine Memory.get?_eq_none fun b hb => ?_
    obtain ⟨gy', gx', h1, h2, h3, h4⟩ := mem_glyphPixels.mp hb
    simp only [Config.W] at *
    have e1 : gy' = gy := by omega
    have e2 : gx' = gx := by omega
    subst e1; subst e2
    rw [hc] at h3
    cases h3

/-- A glyph stores nothing at a pixel that is not one of its own. -/
theorem get?_glyphPixels_none {f : Font} {color : Half} {y gx0 : Nat} {c : CharInfo} {q : Nat}
    (h : ∀ gx gy, gx < c.w → gy < f.fh → q ≠ (y + gy) * Config.W + (gx0 + gx)) :
    Memory.get? (glyphPixels f color y gx0 c) q = none := by
  refine Memory.get?_eq_none fun b hb => ?_
  obtain ⟨gy, gx, h1, h2, -, h4⟩ := mem_glyphPixels.mp hb
  exact h gx gy h2 h1 h4

/-! ## The paint loop -/

/-- The cells of a text end here. -/
def cellsEnd (sp : Nat) : List CharInfo → Nat → Nat
  | [], x => x
  | [c], x => x + c.adv
  | c :: d :: ci, x => cellsEnd sp (d :: ci) (x + c.adv + sp)

/-- The text box ends where its cells end (R135). -/
theorem cellsEnd_eq (sp : Nat) (ci : List CharInfo) (x : Nat) : cellsEnd sp ci x = x + textWidth ci sp := by
  induction ci generalizing x with
  | nil => simp [cellsEnd, textWidth]
  | cons c ci ih =>
    cases ci with
    | nil => simp [cellsEnd, textWidth]
    | cons d ci =>
      rw [cellsEnd, ih]
      simp only [textWidth, List.map_cons, List.sum_cons, List.length_cons, Nat.add_sub_cancel]
      rw [Nat.mul_add]
      omega

/-- The paint loop changes the framebuffer only. -/
theorem paintChars_frame (color : Half) (y sp : Nat) (ci : List CharInfo) (x : Nat) (s : State) :
    paintChars color y sp ci x s = { s with fbb := (paintChars color y sp ci x s).fbb } := by
  induction ci generalizing x s with
  | nil => rfl
  | cons c ci ih =>
    rw [paintChars]
    exact ih _ _

theorem cellStart_zero (ci : List CharInfo) (sp x : Nat) : cellStart ci sp x 0 = x := by simp [cellStart]

theorem cellStart_succ (c : CharInfo) (ci : List CharInfo) (sp x j : Nat) :
    cellStart (c :: ci) sp x (j + 1) = cellStart ci sp (x + c.adv + sp) j := by
  simp only [cellStart, List.take_succ_cons, List.map_cons, List.sum_cons]
  omega

theorem textIndex_zero (c : CharInfo) (ci : List CharInfo) (sp x y gx gy : Nat) :
    textIndex (c :: ci) sp x y 0 gx gy = (y + gy) * Config.W + (x + c.xoff + gx) := by
  simp [textIndex, cellStart_zero]

theorem textIndex_succ (c : CharInfo) (ci : List CharInfo) (sp x y j gx gy : Nat) :
    textIndex (c :: ci) sp x y (j + 1) gx gy = textIndex ci sp (x + c.adv + sp) y j gx gy := by
  simp [textIndex, cellStart_succ]

/-- The glyph pixels of the characters from `x` on lie at columns from `x` to the end of the cells. -/
theorem textIndex_col {sp y : Nat} : ∀ (ci : List CharInfo) (x : Nat), (∀ c ∈ ci, c.xoff + c.w ≤ c.adv) →
    ∀ (j : Nat) (c : CharInfo) (gx gy : Nat), ci[j]? = some c → gx < c.w →
      ∃ col, textIndex ci sp x y j gx gy = (y + gy) * Config.W + col ∧ x ≤ col ∧ col < cellsEnd sp ci x := by
  intro ci
  induction ci with
  | nil => intro x _ j c gx gy h; simp at h
  | cons d ci ih =>
    intro x hfit j c gx gy hc hgx
    have hd := hfit d (List.mem_cons_self ..)
    cases j with
    | zero =>
      simp only [List.getElem?_cons_zero, Option.some.injEq] at hc
      subst hc
      refine ⟨x + d.xoff + gx, textIndex_zero .., by omega, ?_⟩
      cases ci with
      | nil => simp only [cellsEnd]; omega
      | cons e ci => rw [cellsEnd, cellsEnd_eq]; omega
    | succ j =>
      rw [List.getElem?_cons_succ] at hc
      obtain ⟨col, h1, h2, h3⟩ := ih (x + d.adv + sp) (fun c hc => hfit c (List.mem_cons_of_mem _ hc)) j c gx gy hc hgx
      refine ⟨col, by rw [textIndex_succ, h1], by omega, ?_⟩
      cases ci with
      | nil => simp at hc
      | cons e ci => exact h3

/-- What the paint loop leaves: the combined colour or the pixel kept at each glyph pixel, every other pixel as before. -/
theorem loadPixel_paintChars (color : Half) (y sp : Nat) (ci : List CharInfo) :
    ∀ (x : Nat) (s : State), (∀ c ∈ ci, c.xoff + c.w ≤ c.adv) → cellsEnd sp ci x ≤ Config.W →
      (∀ (j : Nat) (c : CharInfo) (gx gy : Nat), ci[j]? = some c → gx < c.w → gy < s.cfg.font.fh →
        loadPixel (paintChars color y sp ci x s) (textIndex ci sp x y j gx gy) =
          (combine (fontShade s.cfg.font c.xpos gx gy) color).getD (loadPixel s (textIndex ci sp x y j gx gy))) ∧
      ∀ q, (∀ (j : Nat) (c : CharInfo) (gx gy : Nat), ci[j]? = some c → gx < c.w → gy < s.cfg.font.fh →
          q ≠ textIndex ci sp x y j gx gy) →
        loadPixel (paintChars color y sp ci x s) q = loadPixel s q := by
  induction ci with
  | nil => exact fun x s _ _ => ⟨fun j c gx gy h => by simp at h, fun q _ => rfl⟩
  | cons d ci ih =>
    intro x s hfit hend
    have hd := hfit d (List.mem_cons_self ..)
    have hfit' : ∀ c ∈ ci, c.xoff + c.w ≤ c.adv := fun c hc => hfit c (List.mem_cons_of_mem _ hc)
    have hdW : x + d.adv ≤ Config.W := by
      cases ci with
      | nil => exact hend
      | cons e ci => rw [cellsEnd, cellsEnd_eq] at hend; omega
    have hgW : x + d.xoff + d.w ≤ Config.W := by omega
    have hend' : ci ≠ [] → cellsEnd sp ci (x + d.adv + sp) ≤ Config.W := by
      cases ci with
      | nil => simp
      | cons e ci => exact fun _ => hend
    generalize hs' : s.storePixels (glyphPixels s.cfg.font color y (x + d.xoff) d) = s'
    have hload : ∀ q, loadPixel s' q =
        (Memory.get? (glyphPixels s.cfg.font color y (x + d.xoff) d) q).getD (loadPixel s q) := by
      intro q; rw [← hs']; exact loadPixel_storePixels (glyphPixels_wf _ _ _ _ _ hgW) s q
    have hcfg : s'.cfg = s.cfg := by rw [← hs']; rfl
    have hp : paintChars color y sp (d :: ci) x s = paintChars color y sp ci (x + d.adv + sp) s' := by
      rw [paintChars, hs']
    rw [hp]
    by_cases hci : ci = []
    · subst hci
      simp only [paintChars]
      constructor
      · intro j c gx gy hc hgx hgy
        cases j with
        | zero =>
          simp only [List.getElem?_cons_zero, Option.some.injEq] at hc
          subst hc
          rw [textIndex_zero, hload, get?_glyphPixels hgW hgx hgy]
        | succ j => simp at hc
      · intro q hq
        rw [hload, get?_glyphPixels_none fun gx gy h1 h2 => by
          have := hq 0 d gx gy rfl h1 h2; rwa [textIndex_zero] at this]
        rfl
    · obtain ⟨g1, g2⟩ := ih (x + d.adv + sp) s' hfit' (hend' hci)
      rw [hcfg] at g1 g2
      have later : ∀ (j : Nat) (c : CharInfo) (gx gy : Nat), ci[j]? = some c → gx < c.w →
          ∃ col, textIndex ci sp (x + d.adv + sp) y j gx gy = (y + gy) * Config.W + col ∧
            x + d.adv + sp ≤ col ∧ col < Config.W := by
        intro j c gx gy hc hgx
        obtain ⟨col, e1, e2, e3⟩ := textIndex_col (y := y) ci (x + d.adv + sp) hfit' j c gx gy hc hgx
        exact ⟨col, e1, e2, Nat.lt_of_lt_of_le e3 (hend' hci)⟩
      constructor
      · intro j c gx gy hc hgx hgy
        cases j with
        | zero =>
          simp only [List.getElem?_cons_zero, Option.some.injEq] at hc
          subst hc
          rw [textIndex_zero, g2, hload, get?_glyphPixels hgW hgx hgy]
          intro j' c' gx' gy' hc' hgx' _ he
          obtain ⟨col, e1, e2, e3⟩ := later j' c' gx' gy' hc' hgx'
          rw [e1] at he
          simp only [Config.W] at *
          omega
        | succ j =>
          rw [List.getElem?_cons_succ] at hc
          rw [textIndex_succ, g1 j c gx gy hc hgx hgy, hload]
          rw [get?_glyphPixels_none]
          · rfl
          · intro gx' gy' h1 h2 he
            obtain ⟨col, e1, e2, e3⟩ := later j c gx gy hc hgx
            rw [e1] at he
            simp only [Config.W] at *
            omega
      · intro q hq
        rw [g2 q fun j c gx gy hc hgx hgy => by
          have := hq (j + 1) c gx gy (by simpa using hc) hgx hgy; rwa [textIndex_succ] at this]
        rw [hload, get?_glyphPixels_none fun gx gy h1 h2 => by
          have := hq 0 d gx gy rfl h1 h2; rwa [textIndex_zero] at this]
        rfl

/-- The paint loop keeps the framebuffer in canonical form and in its space. -/
theorem paintChars_ok (color : Half) (y sp : Nat) (ci : List CharInfo) :
    ∀ (x : Nat) (s : State), (∀ c ∈ ci, c.xoff + c.w ≤ c.adv) → cellsEnd sp ci x ≤ Config.W →
      y + s.cfg.font.fh ≤ Config.H → Memory.wf s.fbb = true → (∀ c ∈ s.fbb, c.1 < Config.FB_BYTES) →
      Memory.wf (paintChars color y sp ci x s).fbb = true ∧
      ∀ c ∈ (paintChars color y sp ci x s).fbb, c.1 < Config.FB_BYTES := by
  induction ci with
  | nil => exact fun x s _ _ _ h1 h2 => ⟨h1, h2⟩
  | cons d ci ih =>
    intro x s hfit hend hfh h1 h2
    have hd := hfit d (List.mem_cons_self ..)
    have hfit' : ∀ c ∈ ci, c.xoff + c.w ≤ c.adv := fun c hc => hfit c (List.mem_cons_of_mem _ hc)
    have hdW : x + d.adv ≤ Config.W := by
      cases ci with
      | nil => exact hend
      | cons e ci => rw [cellsEnd, cellsEnd_eq] at hend; omega
    have hgW : x + d.xoff + d.w ≤ Config.W := by omega
    have hlt : ∀ p ∈ glyphPixels s.cfg.font color y (x + d.xoff) d, p.1 < Config.NPIX := by
      intro p hp
      obtain ⟨gy, gx, e1, e2, -, e4⟩ := mem_glyphPixels.mp hp
      simp only [Config.W, Config.H, Config.NPIX] at *
      omega
    obtain ⟨g1, g2⟩ := storePixels_ok (glyphPixels_wf s.cfg.font color y (x + d.xoff) d hgW) hlt h1 h2
    rw [paintChars]
    cases ci with
    | nil => exact ⟨g1, g2⟩
    | cons e ci => exact ih _ _ hfit' hend hfh g1 g2

/-- The load step with a font that is loaded or whose load succeeds (R140). -/
theorem loadFont_loaded (s : State) (h : s.fontReady = true ∨ (drawLoad s.draws).1 = true) :
    loadFont s = (true, { s with
      fontReady := true, draws := if s.fontReady then s.draws else (drawLoad s.draws).2 }) := by
  unfold loadFont
  by_cases hr : s.fontReady = true
  · rw [if_pos hr, if_pos hr, ← hr]
  · rw [if_neg hr, if_neg hr]
    dsimp only
    rw [h.resolve_left hr]

end Sys2Proof.Machine
end

