-- ==== Sys2Proof/Laws/Exec.lean ====
section
/-! SUPPORT. How an instruction can end, said once for all of them (`exec_cases`). -/

namespace Sys2Proof.Machine

/-- The framebuffer is in canonical form and inside its space. -/
abbrev State.fbOk (s : State) : Prop := Memory.wf s.fbb = true ∧ ∀ c ∈ s.fbb, c.1 < Config.FB_BYTES

/-- An error raised before any framebuffer write and any bus event. -/
structure Early (e : Err) : Prop where
  listed : (e.code, e.sub) ∈ statusPairs
  notOk : e.code ≠ CODE_OK
  notBusFail : ¬ (e.code = CODE_PROTOCOL ∧ e.sub = 2#8)
  info : e.code ≠ CODE_RESOURCE → e.info = 0#32

/-- What may become of the font flag (R22, R140). -/
structure FontStep (i : Instr) (s : State) (f : Bool) : Prop where
  up : s.fontReady = true → f = true
  other : (∀ xc y str n sp norm color, i ≠ .drawText xc y str n sp norm color) → f = s.fontReady

/-- The instructions that write the framebuffer (R48, R122). -/
def Paints (i : Instr) : Prop :=
  ∃ c, i = .fillAll c ∨ (∃ x1 y1 x2 y2, i = .fillRegion x1 y1 x2 y2 c) ∨
    (∃ x y iw ih src, i = .blit x y iw ih src) ∨ ∃ xc y str n sp norm, i = .drawText xc y str n sp norm c

/-- What INIT's check says of an entry: a table byte, a payload under the ceiling, a payload that selects as R101 (d) asks. -/
theorem initTableOk_entry {p : Params} (h : initTableOk p = true) {c : WireCmd} (hc : c ∈ p.initTable) :
    tableByteOk c.op = true ∧ c.payload.length ≤ p.maxXfer ∧ selectionOk p c = true := by
  have := List.all_eq_true.mp (Bool.and_eq_true_iff.mp h).1 c hc
  simpa [entryOk, and_assoc] using this

/-- The groups of R101 (c) as membership. -/
theorem groupsOk_iff (table : List WireCmd) :
    groupsOk table = true ↔ ∀ b ∈ groupBytes, b ∈ table.map WireCmd.op := by
  simp [groupsOk]

/-- A table that meets R101 in full passes INIT's check. -/
theorem initTableOk_of_meetsR101 {p : Params} (h : meetsR101 p) : initTableOk p = true := by
  simp [initTableOk, h.1, h.2]

/-- A table of two or more entries that lacks a group of R101 (c) does not pass INIT's check. -/
theorem initTableOk_eq_false {p : Params} {b : Byte} (hb : b ∈ groupBytes) (hm : b ∉ p.initTable.map WireCmd.op)
    (hl : 2 ≤ p.initTable.length) : initTableOk p = false := by
  have hg : groupsOk p.initTable = false := by
    rw [Bool.eq_false_iff]; exact fun h => hm ((groupsOk_iff _).mp h b hb)
  have hs : statedTable p.initTable = false := by
    match p.initTable, hl with
    | _ :: _ :: _, _ => rfl
  simp [initTableOk, hg, hs]

/-- How an instruction ends. -/
inductive Ends (i : Instr) (s t : State) : Prop where
  /-- an error before anything was written or sent -/
  | early (e : Err) (f : Bool) (d : Draws) : isHostOp i = true → i ≠ .init → Early e → FontStep i s f →
      (e.code = CODE_FONT → f = s.fontReady) →
      t = ({ s with fontReady := f, draws := d } : State).raiseErr e → Ends i s t
  /-- a framebuffer operation done -/
  | painted (m : Mem) (f : Bool) (d : Draws) : isHostOp i = true → Paints i → FontStep i s f →
      (s.fbOk → State.fbOk { s with fbb := m }) →
      t = ({ s with fbb := m, fontReady := f, draws := d } : State).finishOk → Ends i s t
  /-- a transport operation or a send -/
  | bus (r : Ran) : isHostOp i = true → i ≠ .init → ¬ Paints i → Issues s r → t = endWith r → Ends i s t
  /-- INIT -/
  | init : i = .init → initTableOk s.cfg = true →
      t = endInit (emitAll (initCommands s.cfg) (resetPulse s)) →
      Ends i s t
  /-- a panel command -/
  | panel (r : Ran) : isHostOp i = false → Issues s r → KeepsScratch s r → t = goOn r → Ends i s t

theorem fontStep_same (i : Instr) (s : State) : FontStep i s s.fontReady := ⟨id, fun _ => rfl⟩

theorem Ends.raise {i : Instr} {s : State} (e : Err) (hi : isHostOp i = true) (hn : i ≠ .init) (he : Early e) :
    Ends i s (s.raiseErr e) :=
  .early e s.fontReady s.draws hi hn he (fontStep_same i s) (fun _ => rfl) rfl

theorem early_zeroLength : Early errZeroLength := ⟨by decide, by decide, by decide, by decide⟩
theorem early_oversize : Early errOversize := ⟨by decide, by decide, by decide, by decide⟩
theorem early_inverted : Early errInverted := ⟨by decide, by decide, by decide, by decide⟩
theorem early_outOfBounds : Early errOutOfBounds := ⟨by decide, by decide, by decide, by decide⟩
theorem early_empty : Early errEmpty := ⟨by decide, by decide, by decide, by decide⟩
theorem early_textCapacity : Early errTextCapacity := ⟨by decide, by decide, by decide, by decide⟩
theorem early_unknownChar : Early errUnknownChar := ⟨by decide, by decide, by decide, by decide⟩
theorem early_font : Early errFont := ⟨by decide, by decide, by decide, by decide⟩
theorem early_resource (size : Nat) : Early (errResource size) :=
  ⟨show (CODE_RESOURCE, 0#8) ∈ statusPairs by decide, show CODE_RESOURCE ≠ CODE_OK by decide,
   show ¬ (CODE_RESOURCE = CODE_PROTOCOL ∧ 0#8 = 2#8) by decide, fun h => absurd rfl h⟩

theorem checkRect_early {x1 y1 x2 y2 : Nat} {e : Err} (h : checkRect x1 y1 x2 y2 = some e) : Early e := by
  unfold checkRect at h
  split at h
  · cases h; exact early_inverted
  · split at h
    · cases h; exact early_outOfBounds
    · cases h

theorem checkRect_none {x1 y1 x2 y2 : Nat} (h : checkRect x1 y1 x2 y2 = none) :
    x1 ≤ x2 ∧ y1 ≤ y2 ∧ x2 ≤ Config.W ∧ y2 ≤ Config.H := by
  unfold checkRect at h
  split at h
  · cases h
  · split at h
    · cases h
    · omega

theorem checkSendRect_early {x1 y1 x2 y2 : Nat} {e : Err} (h : checkSendRect x1 y1 x2 y2 = some e) : Early e := by
  unfold checkSendRect at h
  split at h
  · rename_i hc; cases h; exact checkRect_early hc
  · split at h
    · cases h; exact early_empty
    · cases h

/-- The load step leaves the state but for the font flag and the draws (R140). -/
theorem loadFont_cases (s : State) :
    ∃ f d, (loadFont s).2 = { s with fontReady := f, draws := d } ∧ (s.fontReady = true → f = true) ∧
      ((loadFont s).1 = false → f = s.fontReady) := by
  unfold loadFont
  split
  · exact ⟨s.fontReady, s.draws, rfl, id, by simp⟩
  · rename_i h
    refine ⟨_, _, rfl, fun hs => absurd hs h, ?_⟩
    dsimp only
    intro hl
    rw [hl]
    simpa using h

/-- The reset pulse of INIT: INIT_DONE falls, `RST` ends at 1, and only lines and waits join the trace (R102). -/
theorem resetPulse_spec (s : State) :
    ∃ new, resetPulse s = { s with initDone := false, rst := true, trace := s.trace ++ new } ∧
      ∀ e ∈ new, eventFormOk s.cfg.maxXfer e = true ∧ eventFailed e = false := by
  unfold resetPulse
  cases h : s.rst
  · refine ⟨[.wait .rstLow s.cfg.tRstLow, .rstLine true, .wait .rstSettle s.cfg.tRstSettle], ?_,
      by simp [eventFormOk, eventFailed]⟩
    simp [State.setRst, State.waitFor, State.log]
  · refine ⟨[.rstLine false, .wait .rstLow s.cfg.tRstLow, .rstLine true, .wait .rstSettle s.cfg.tRstSettle], ?_,
      by simp [eventFormOk, eventFailed]⟩
    simp [State.setRst, State.waitFor, State.log]

theorem execXferBytes_ends {addr len : Word} {s t : State} (h : execXferBytes addr len s = .next t) :
    Ends (.xferBytes addr len) s t := by
  unfold execXferBytes at h
  split at h
  · cases h; exact .raise _ rfl (by simp) early_zeroLength
  · split at h
    · cases h; exact .raise _ rfl (by simp) early_oversize
    · split at h
      · cases h
        refine .bus _ rfl (by simp) (by simp [Paints]) (busTxn_issues _ _ fun _ => ?_) rfl
        simp only [eventFormOk, memRead, Memory.run_length, Bool.and_eq_true, decide_eq_true_eq]
        omega
      · cases h

theorem execFillRegion_ends {x1 y1 x2 y2 color : Half} {s t : State}
    (h : execFillRegion x1 y1 x2 y2 color s = .next t) : Ends (.fillRegion x1 y1 x2 y2 color) s t := by
  unfold execFillRegion at h
  split at h
  · rename_i e hc; cases h; exact .raise _ rfl (by simp) (checkRect_early hc)
  · rename_i hc
    cases h
    obtain ⟨-, -, hx, hy⟩ := checkRect_none hc
    refine .painted _ s.fontReady s.draws rfl ⟨color, Or.inr (Or.inl ⟨_, _, _, _, rfl⟩)⟩ (fontStep_same _ _) ?_ rfl
    intro ho
    refine storePixels_ok (pix_map_wf hx color) ?_ ho.1 ho.2
    intro p hp
    obtain ⟨i, hi, rfl⟩ := List.mem_map.mp hp
    exact pix_lt hx hy hi

theorem execFillAll_ends {color : Half} {s t : State} (h : execFillAll color s = .next t) :
    Ends (.fillAll color) s t := by
  unfold execFillAll at h
  have hw : Memory.wf ((List.range Config.NPIX).map fun i => (i, color)) = true := by
    rw [← pix_full]; exact pix_map_wf (Nat.le_refl _) color
  have hk : ∀ p ∈ (List.range Config.NPIX).map (fun i => (i, color)), p.1 < Config.NPIX := by
    intro p hp
    obtain ⟨i, hi, rfl⟩ := List.mem_map.mp hp
    exact List.mem_range.mp hi
  revert h hw hk
  generalize (List.range Config.NPIX).map (fun i => (i, color)) = L
  intro h hw hk
  cases h
  exact .painted _ s.fontReady s.draws rfl ⟨color, Or.inl rfl⟩ (fontStep_same _ _)
    (fun ho => storePixels_ok hw hk ho.1 ho.2) rfl

theorem execBlit_ends {x y iw ih : Half} {src : Word} {s t : State} (h : execBlit x y iw ih src s = .next t) :
    Ends (.blit x y iw ih src) s t := by
  unfold execBlit at h
  split at h
  · cases h; exact .raise _ rfl (by simp) early_outOfBounds
  · rename_i hb
    split at h
    · cases h
      have hx : x.toNat + iw.toNat ≤ Config.W := by omega
      have hy : y.toNat + ih.toNat ≤ Config.H := by omega
      refine .painted _ s.fontReady s.draws rfl ⟨0#16, Or.inr (Or.inr (Or.inl ⟨_, _, _, _, _, rfl⟩))⟩
        (fontStep_same _ _) ?_ rfl
      intro ho
      refine storePixels_ok (pix_zip_wf hx _) ?_ ho.1 ho.2
      intro p hp
      exact pix_lt hx hy (List.of_mem_zip hp).1
    · cases h

theorem sendRan_ends {i : Instr} {r : Ran} {s : State} (hi : isHostOp i = true) (hn : i ≠ .init) (hp : ¬ Paints i)
    (h : (∃ size d, r = (some (errResource size), { s with draws := d })) ∨ Issues s r) : Ends i s (endWith r) := by
  rcases h with ⟨size, d, rfl⟩ | h
  · exact .early (errResource size) s.fontReady d hi hn (early_resource size) (fontStep_same _ _) (fun _ => rfl) rfl
  · exact .bus r hi hn hp h rfl

theorem execSendRegion_ends {x1 y1 x2 y2 : Half} {s t : State} (h : execSendRegion x1 y1 x2 y2 s = .next t) :
    Ends (.sendRegion x1 y1 x2 y2) s t := by
  unfold execSendRegion at h
  split at h
  · rename_i e hc; cases h; exact .raise _ rfl (by simp) (checkSendRect_early hc)
  · split at h
    · cases h
    · split at h
      · cases h
        refine sendRan_ends rfl (by simp) (by simp [Paints]) ?_
        split
        · exact Or.inr (sendFull_issues s)
        · rcases sendSub_cases x1.toNat y1.toNat x2.toNat y2.toNat s with ⟨d, h⟩ | h
          · exact Or.inl ⟨_, d, h⟩
          · exact Or.inr h
      · cases h

theorem execSendAll_ends {s t : State} (h : execSendAll s = .next t) : Ends .sendAll s t := by
  unfold execSendAll at h
  split at h
  · cases h
  · split at h
    · cases h; exact .bus _ rfl (by simp) (by simp [Paints]) (sendFull_issues s) rfl
    · cases h

theorem execDrawText_ends {xc y : Half} {str : Word} {n : Half} {sp : Byte} {norm : Bool} {color : Half} {s t : State}
    (h : execDrawText xc y str n sp norm color s = .next t) : Ends (.drawText xc y str n sp norm color) s t := by
  have hp : Paints (.drawText xc y str n sp norm color) := ⟨color, Or.inr (Or.inr (Or.inr ⟨_, _, _, _, _, _, rfl⟩))⟩
  unfold execDrawText at h
  split at h
  · cases h; exact .raise _ rfl (by simp) early_textCapacity
  · split at h
    · cases h
      exact .painted s.fbb s.fontReady s.draws rfl hp (fontStep_same _ _) id rfl
    · obtain ⟨f, d, h2, hup, hfail⟩ := loadFont_cases s
      have hstep : FontStep (.drawText xc y str n sp norm color) s f :=
        ⟨hup, fun hd => absurd rfl (hd xc y str n sp norm color)⟩
      dsimp only at h
      split at h
      · rename_i hl
        cases h
        refine .early errFont f d rfl (by simp) early_font hstep (fun _ => hfail hl) ?_
        rw [h2]
      · split at h
        · cases h
        · rename_i hwf
          have hwf : fontWf s.cfg.font = true := by simpa using hwf
          split at h
          · cases h
            split
            · refine .early errUnknownChar f d rfl (by simp) early_unknownChar hstep (fun hc => absurd hc (by decide)) ?_
              rw [h2]
            · rename_i ci hci
              rw [h2]
              unfold drawChars
              dsimp only
              split
              · rename_i hbox
                have hfit : ∀ c ∈ ci, c.xoff + c.w ≤ c.adv := by
                  intro c hc
                  obtain ⟨g, hg, rfl⟩ := charInfos_mem hci c hc
                  exact charInfoOf_fits hwf hg norm
                generalize hu : ({ s with fontReady := f, draws := d, ci := ci } : State) = u
                have hfr := paintChars_frame color y.toNat sp.toNat ci
                  (textStart xc.toNat (textWidth ci sp.toNat)).toNat u
                refine .painted (paintChars color y.toNat sp.toNat ci
                  (textStart xc.toNat (textWidth ci sp.toNat)).toNat u).fbb f d rfl hp hstep ?_ ?_
                · intro ho
                  simp only [textBoxOk, Bool.and_eq_true, decide_eq_true_eq] at hbox
                  have hcfg : u.cfg = s.cfg := by rw [← hu]
                  refine paintChars_ok color y.toNat sp.toNat ci _ u hfit ?_ ?_ ?_ ?_
                  · rw [cellsEnd_eq]; simp only [Config.W] at *; omega
                  · rw [hcfg]; exact hbox.2
                  · rw [← hu]; exact ho.1
                  · rw [← hu]; exact ho.2
                · rw [hfr, ← hu]; rfl
              · exact .early errOutOfBounds f d rfl (by simp) early_outOfBounds hstep (fun hc => absurd hc (by decide)) rfl
          · cases h

/-- How every instruction ends. -/
theorem exec_cases {i : Instr} {s t : State} (h : exec i s = .next t) : Ends i s t := by
  cases i with
  | xferBytes addr len => exact execXferBytes_ends h
  | sendCmd b =>
    injection h with h; subst h
    exact .bus _ rfl (by simp) (by simp [Paints]) (txCmd_issues b s) rfl
  | sendData b =>
    injection h with h; subst h
    exact .bus _ rfl (by simp) (by simp [Paints]) (txData_issues [b] s) rfl
  | init =>
    replace h : execInit s = .next t := h
    unfold execInit at h
    split at h
    · rename_i hok; injection h with h; exact .init rfl hok h.symm
    · cases h
  | fillAll color => exact execFillAll_ends h
  | fillRegion x1 y1 x2 y2 color => exact execFillRegion_ends h
  | blit x y iw ih src => exact execBlit_ends h
  | sendRegion x1 y1 x2 y2 => exact execSendRegion_ends h
  | sendAll => exact execSendAll_ends h
  | drawText xc y str n sp norm color => exact execDrawText_ends h
  | columnAddr start stop => injection h with h; exact .panel _ rfl (sendCommand_issues _ _ s) (sendCommand_scratch _ _ s) h.symm
  | pageAddr start stop => injection h with h; exact .panel _ rfl (sendCommand_issues _ _ s) (sendCommand_scratch _ _ s) h.symm
  | writeRam => injection h with h; exact .panel _ rfl (sendCommand_issues _ _ s) (sendCommand_scratch _ _ s) h.symm
  | nop p => injection h with h; exact .panel _ rfl (emitCommand_issues _ s) (emitCommand_scratch _ s) h.symm
  | sleepOut => injection h with h; exact .panel _ rfl (emitCommand_issues _ s) (emitCommand_scratch _ s) h.symm
  | displayInversionOff p => injection h with h; exact .panel _ rfl (emitCommand_issues _ s) (emitCommand_scratch _ s) h.symm
  | setGamma p => injection h with h; exact .panel _ rfl (emitCommand_issues _ s) (emitCommand_scratch _ s) h.symm
  | displayOn => injection h with h; exact .panel _ rfl (emitCommand_issues _ s) (emitCommand_scratch _ s) h.symm
  | memoryAccessControl p => injection h with h; exact .panel _ rfl (emitCommand_issues _ s) (emitCommand_scratch _ s) h.symm
  | pixelFormat p => injection h with h; exact .panel _ rfl (emitCommand_issues _ s) (emitCommand_scratch _ s) h.symm
  | frameRateControl p => injection h with h; exact .panel _ rfl (emitCommand_issues _ s) (emitCommand_scratch _ s) h.symm
  | displayFunctionControl p => injection h with h; exact .panel _ rfl (emitCommand_issues _ s) (emitCommand_scratch _ s) h.symm
  | power1 p => injection h with h; exact .panel _ rfl (emitCommand_issues _ s) (emitCommand_scratch _ s) h.symm
  | power2 p => injection h with h; exact .panel _ rfl (emitCommand_issues _ s) (emitCommand_scratch _ s) h.symm
  | vcom1 p => injection h with h; exact .panel _ rfl (emitCommand_issues _ s) (emitCommand_scratch _ s) h.symm
  | vcom2 p => injection h with h; exact .panel _ rfl (emitCommand_issues _ s) (emitCommand_scratch _ s) h.symm
  | positiveGammaCorrection p => injection h with h; exact .panel _ rfl (emitCommand_issues _ s) (emitCommand_scratch _ s) h.symm
  | negativeGammaCorrection p => injection h with h; exact .panel _ rfl (emitCommand_issues _ s) (emitCommand_scratch _ s) h.symm

end Sys2Proof.Machine
end

