-- ==== Sys2Proof/Laws/HostTurn.lean ====
section
/-! SUPPORT. What a reset does to a running operation, said once: an abandoned operation changes the trace, the observer and
the draws, and asserting the reset is that or the reset input alone. -/

namespace Sys2Proof.Machine

/-- A host write that goes through changes nothing, or one argument register, or starts an operation (R14, R15, R18). -/
theorem hostWrite_cases {s t : State} {offset width : Nat} {v : Word} (h : hostWrite s offset width v = .next t) :
    t = s ∨ (∃ (n : Nat) (hn : n < 8), t = { s with args := s.args.set n v hn, argsWritten := s.argsWritten.set n true hn }) ∨
      (s.busy = false ∧ s.resetIn = false ∧ t = s.startOp v) := by
  unfold hostWrite at h
  split at h
  · split at h
    · unfold regWrite at h
      split at h
      · injection h with h; exact Or.inl h.symm
      · rename_i hi
        split at h
        · injection h with h; exact Or.inr (Or.inl ⟨offset / 4, _, h.symm⟩)
        · split at h
          · unfold goWrite at h
            split at h
            · cases h
            · split at h
              · cases h
              · injection h with h
                simp only [not_or, Bool.not_eq_true] at hi
                exact Or.inr (Or.inr ⟨hi.2, hi.1, h.symm⟩)
          · injection h with h; exact Or.inl h.symm
    · cases h
  · split at h
    · cases h
    · injection h with h; exact Or.inl h.symm

/-- Host accesses other than writes and the reset's edges leave the trace, the observer and the reset input alone. -/
theorem hostRead_frame {s t : State} {offset width : Nat} (h : hostRead s offset width = .next t) :
    t = { s with draws := t.draws, reads := t.reads, statusUnread := t.statusUnread } := by
  unfold hostRead at h
  split at h
  · cases h
  · split at h
    · cases h
    · injection h with h; rw [← h]

theorem hostStore_frame {s t : State} {addr : Word} {b : Byte} (h : hostStore s addr b = .next t) :
    t = { s with hmem := t.hmem } := by
  unfold hostStore at h
  split at h
  · cases h
  · injection h with h; rw [← h]

theorem hostPoll_frame (s : State) (rest : List HostOp) :
    hostPoll s rest = { s with
      draws := (hostPoll s rest).draws, host := (hostPoll s rest).host,
      statusUnread := (hostPoll s rest).statusUnread, awaiting := (hostPoll s rest).awaiting } := by
  unfold hostPoll
  dsimp only
  split <;> rfl

theorem Panel.takeEvent_ok {p : Panel} (h : p.Ok) (e : Event) (n : Nat) : (p.takeEvent e n).Ok := by
  cases e with
  | txn dc L ok => exact Panel.receive_ok h dc (L.take n)
  | rstLine v => exact h
  | wait n t => exact h

theorem Panel.takeEvents_ok (es : List Event) : ∀ {p : Panel}, p.Ok → (p.takeEvents es).Ok := by
  induction es with
  | nil => exact id
  | cons e es ih =>
    intro p h
    cases e with
    | txn dc L ok => exact ih (Panel.receive_ok h dc L)
    | rstLine v => exact ih h
    | wait n t => exact ih h

/-- Abandoning an operation changes nothing but the trace, the observer and the draws. -/
theorem State.abandon_frame (s t : State) (c : Cut) :
    s.abandon t c = { s with
      draws := t.draws, trace := (s.abandon t c).trace, panel := (s.abandon t c).panel } := by
  unfold State.abandon
  dsimp only
  split <;> rfl

theorem State.abandon_panel_ok {s t : State} (c : Cut) (hs : s.panel.Ok) (ht : t.panel.Ok) :
    (s.abandon t c).panel.Ok := by
  unfold State.abandon
  dsimp only
  split
  · exact ht
  · exact Panel.takeEvent_ok (Panel.takeEvents_ok _ hs) _ _

/-- The trace of an abandoned operation is a prefix of the whole one's (R166). -/
theorem State.abandon_trace {s t : State} (c : Cut) {new : List Event} (h : t.trace = s.trace ++ new) :
    (s.abandon t c).trace = s.trace ++ new.take c.events := by
  have hd : t.trace.drop s.trace.length = new := by rw [h, List.drop_left]
  unfold State.abandon
  dsimp only
  rw [hd]
  split
  · rename_i hc
    rw [List.take_of_length_le (List.drop_eq_nil_iff.mp hc)]
    exact h
  · rfl

/-- The sequencer's turn is the decoded operation (R20, R55). -/
theorem runSequencer_op {s : State} {i : Instr} (hp : s.pending = [])
    (hd : decode (.hostCmd (s.curOp.setWidth 32) s.args) = .ok i) : runSequencer s = exec i s := by
  have hf : fetch s = .op i := by simp only [fetch, hp, hd]
  rw [runSequencer, hf]

/-- On the sequencer's turn the running operation moves, and nothing but the turn's draw has been taken (R6, R20). -/
theorem sequencerTurn_step {s u : State} (h : sequencerTurn s = some u) :
    u = { s with draws := if hostReady s then (drawTurn s.draws).2 else s.draws } ∧
    (s.busy = true → s.resetIn = false → step s = runSequencer u) := by
  unfold sequencerTurn at h
  split at h
  · rename_i hr
    injection h with h
    subst h
    exact ⟨by simp [hr], fun hb h0 => by simp [step, nextTurn, h0, hb, hr]⟩
  · rename_i hr
    replace hr : hostReady s = true := by simpa using hr
    split at h
    · rename_i ha
      injection h with h
      subst h
      exact ⟨by simp [hr], fun hb h0 => by simp [step, nextTurn, h0, hb, hr, ha]⟩
    · cases h

/-- In reset the host has the turn (R166). -/
theorem nextTurn_reset {s : State} (h : s.resetIn = true) : nextTurn s = (.host, s) := by
  rw [nextTurn, if_pos (Or.inl h)]

/-- Asserting the reset abandons a running operation, or does nothing but assert it (R166). -/
theorem assertReset_cases {s u : State} (h : assertReset s = .next u) :
    (¬ (s.busy = true ∧ s.resetIn = false) ∧ u = { s with resetIn := true }) ∨
    (s.busy = true ∧ s.resetIn = false ∧ ∃ t, runSequencer { s with draws := (drawCut s.draws).2 } = .next t ∧
      u = { s.abandon t (drawCut s.draws).1 with resetIn := true }) := by
  unfold assertReset at h
  split at h
  · rename_i hb
    right
    cases hr : runSequencer { s with draws := (drawCut s.draws).2 } with
    | next t => rw [hr] at h; injection h with h; exact ⟨hb.1, hb.2, t, rfl, h.symm⟩
    | fault f => rw [hr] at h; cases h
    | refused r => rw [hr] at h; cases h
  · rename_i hb
    injection h with h
    exact Or.inl ⟨hb, h.symm⟩

end Sys2Proof.Machine
end

