-- ==== Sys2Proof/Laws/PerInstr.lean ====
section
/-! SUPPORT. Per-instruction statements, one lemma for each constructor of `Instr`: the encoder's words are of the
instruction's own format, with the byte spec/opcode_table.json matches and zeros where R57 names no field. -/

namespace Sys2Proof.Laws.OpcodeByte

/-- The form of an instruction's encoding (R55, R57, R63, R68): a host operation is a `GO` word that is its opcode alone
and argument registers that are zero past the words it reads, the argument words being at most four; a panel command is its
command byte and its payload. -/
def Statement (i : Instr) : Prop :=
  match encode i with
  | .hostCmd go a =>
    isHostOp i = true ∧ go = (opcodeOf i).setWidth 32 ∧ (argWords i).length ≤ 4 ∧ payloadOf i = [] ∧
      ∀ n : Fin 8, (argWords i).length ≤ n.val → a[n] = 0#32
  | .panelCmd c => isHostOp i = false ∧ c = ⟨opcodeOf i, payloadOf i⟩ ∧ argWords i = []

/-- Argument registers past the words given are zero. -/
theorem argVector_past (ws : List Word) (n : Fin 8) (h : ws.length ≤ n.val) : (argVector ws)[n] = 0#32 := by
  simp [argVector, List.getElem?_eq_none h]

/-- The form of a host operation's encoding. -/
theorem of_host {i : Instr} (h : isHostOp i = true) (hl : (argWords i).length ≤ 4) (hp : payloadOf i = []) :
    Statement i := by
  unfold Statement encode
  rw [if_pos h]
  exact ⟨h, rfl, hl, hp, fun n hn => argVector_past _ n hn⟩

/-- The form of a panel command's encoding. -/
theorem of_panel {i : Instr} (h : isHostOp i = false) (ha : argWords i = []) : Statement i := by
  unfold Statement encode
  rw [if_neg (by simp [h])]
  exact ⟨h, rfl, ha⟩

theorem xferBytes (addr len : Word) : Statement (.xferBytes addr len) := of_host rfl (show 2 ≤ 4 by decide) rfl

theorem sendCmd (byte : Byte) : Statement (.sendCmd byte) := of_host rfl (show 1 ≤ 4 by decide) rfl

theorem sendData (byte : Byte) : Statement (.sendData byte) := of_host rfl (show 1 ≤ 4 by decide) rfl

theorem init : Statement .init := of_host rfl (show 0 ≤ 4 by decide) rfl

theorem fillAll (color : Half) : Statement (.fillAll color) := of_host rfl (show 1 ≤ 4 by decide) rfl

theorem fillRegion (x1 y1 x2 y2 color : Half) : Statement (.fillRegion x1 y1 x2 y2 color) := of_host rfl (show 3 ≤ 4 by decide) rfl

theorem blit (x y iw ih : Half) (src : Word) : Statement (.blit x y iw ih src) := of_host rfl (show 3 ≤ 4 by decide) rfl

theorem sendRegion (x1 y1 x2 y2 : Half) : Statement (.sendRegion x1 y1 x2 y2) := of_host rfl (show 2 ≤ 4 by decide) rfl

theorem sendAll : Statement .sendAll := of_host rfl (show 0 ≤ 4 by decide) rfl

theorem drawText (xc y : Half) (str : Word) (n : Half) (sp : Byte) (norm : Bool) (color : Half) : Statement (.drawText xc y str n sp norm color) :=
  of_host rfl (show 4 ≤ 4 by decide) rfl

theorem nop (payload : List Byte) : Statement (.nop payload) := of_panel rfl rfl

theorem sleepOut : Statement .sleepOut := of_panel rfl rfl

theorem displayInversionOff (payload : List Byte) : Statement (.displayInversionOff payload) := of_panel rfl rfl

theorem setGamma (payload : List Byte) : Statement (.setGamma payload) := of_panel rfl rfl

theorem displayOn : Statement .displayOn := of_panel rfl rfl

theorem columnAddr (start stop : Half) : Statement (.columnAddr start stop) := of_panel rfl rfl

theorem pageAddr (start stop : Half) : Statement (.pageAddr start stop) := of_panel rfl rfl

theorem writeRam : Statement .writeRam := of_panel rfl rfl

theorem memoryAccessControl (payload : List Byte) : Statement (.memoryAccessControl payload) := of_panel rfl rfl

theorem pixelFormat (payload : List Byte) : Statement (.pixelFormat payload) := of_panel rfl rfl

theorem frameRateControl (payload : List Byte) : Statement (.frameRateControl payload) := of_panel rfl rfl

theorem displayFunctionControl (payload : List Byte) : Statement (.displayFunctionControl payload) := of_panel rfl rfl

theorem power1 (payload : List Byte) : Statement (.power1 payload) := of_panel rfl rfl

theorem power2 (payload : List Byte) : Statement (.power2 payload) := of_panel rfl rfl

theorem vcom1 (payload : List Byte) : Statement (.vcom1 payload) := of_panel rfl rfl

theorem vcom2 (payload : List Byte) : Statement (.vcom2 payload) := of_panel rfl rfl

theorem positiveGammaCorrection (payload : List Byte) : Statement (.positiveGammaCorrection payload) := of_panel rfl rfl

theorem negativeGammaCorrection (payload : List Byte) : Statement (.negativeGammaCorrection payload) := of_panel rfl rfl

end Sys2Proof.Laws.OpcodeByte
end

