-- ==== Sys2Proof/Laws/Region.lean ====
section
/-! SUPPORT. Rectangles and chunks: which pixel stands where in `Pix`, the packed bytes of a rectangle, slices of a list laid
into a memory, and a run of acts beside the scratch. -/

namespace Sys2Proof.Machine

/-- The pixel at row `j`, column `i` of a rectangle (R104). -/
theorem pix_getElem? {x1 y1 x2 y2 i j : Nat} (hi : i < x2 - x1) (hj : j < y2 - y1) :
    (pix x1 y1 x2 y2)[j * (x2 - x1) + i]? = some ((y1 + j) * Config.W + (x1 + i)) := by
  unfold pix
  generalize y2 - y1 = n at hj
  induction n generalizing y1 j with
  | zero => omega
  | succ n ih =>
    rw [List.range'_succ, List.flatMap_cons]
    cases j with
    | zero =>
      rw [List.getElem?_append_left (by simp; omega)]
      simp [hi]
    | succ j =>
      rw [List.getElem?_append_right (by simp; rw [Nat.add_mul]; omega)]
      have := ih (y1 := y1 + 1) (j := j) (by omega)
      simp only [List.length_map, List.length_range']
      rw [show (j + 1) * (x2 - x1) + i - (x2 - x1) = j * (x2 - x1) + i by rw [Nat.add_mul]; omega, this]
      congr 1; congr 1; congr 1; omega

@[simp] theorem pix_length (x1 y1 x2 y2 : Nat) : (pix x1 y1 x2 y2).length = (y2 - y1) * (x2 - x1) := by
  unfold pix
  rw [List.length_flatMap]
  simp

/-- Byte pairs as native words (R39). -/
theorem pairsLE_getElem? (L : List Byte) : ∀ k, 2 * k + 1 < L.length →
    (pairsLE L)[k]? = some (joinHalf (L.getD (2 * k + 1) 0) (L.getD (2 * k) 0)) := by
  induction L using pairsLE.induct with
  | case1 b0 b1 L ih =>
    intro k hk
    cases k with
    | zero => simp [pairsLE]
    | succ k =>
      simp only [pairsLE, List.getElem?_cons_succ]
      rw [ih k (by simp at hk; omega), show 2 * (k + 1) + 1 = (2 * k + 1) + 1 + 1 by omega,
        show 2 * (k + 1) = 2 * k + 1 + 1 by omega]
      simp
  | case2 L h =>
    intro k hk
    match L, h with
    | [], _ => simp at hk
    | [_], _ => simp at hk
    | a :: b :: l, h => exact absurd rfl (h a b l)

/-- Packing row by row is packing pixel by pixel (R113). -/
theorem packed_eq (s : State) (x1 y1 x2 y2 : Nat) : packed s x1 y1 x2 y2 = packedBytes s x1 y1 x2 y2 := by
  unfold packed packedBytes pix
  rw [List.flatMap_assoc]
  apply List.flatMap_congr
  intro y _
  rw [fbRun, Memory.run_eq_map, List.flatMap_map]
  have key : ∀ n x, (List.range' (2 * (y * Config.W + x)) (2 * n)).map (fbByte s) =
      (List.range' x n).flatMap fun x => [fbByte s (2 * (y * Config.W + x)), fbByte s (2 * (y * Config.W + x) + 1)] := by
    intro n
    induction n with
    | zero => intro x; rfl
    | succ n ih =>
      intro x
      rw [show 2 * (n + 1) = 2 * n + 1 + 1 by omega, List.range'_succ, List.range'_succ, List.range'_succ (n := n),
        List.flatMap_cons, ← ih]
      simp [Nat.mul_add, Nat.add_assoc]
  exact key _ x1

/-- A rectangle packs to two bytes a pixel. -/
@[simp] theorem packedBytes_length (s : State) (x1 y1 x2 y2 : Nat) :
    (packedBytes s x1 y1 x2 y2).length = 2 * ((x2 - x1) * (y2 - y1)) := by
  simp only [packedBytes, List.length_flatMap, List.length_cons, List.length_nil, List.map_const', pix_length,
    List.sum_replicate, smul_eq_mul]
  ring

/-- A slice of a list laid over a memory is read back. -/
theorem run_slice (free : Nat → Byte) (L : List Byte) (m : Mem) (a n : Nat) (h : a + n ≤ L.length) :
    Memory.run free n a (Memory.overlay (cellsFrom 0 L) m) = (L.drop a).take n := by
  rw [Memory.run_eq_map]
  apply List.ext_getElem
  · simp; omega
  · intro k h1 h2
    simp only [List.getElem_map, List.getElem_range', Nat.one_mul, List.getElem_take, List.getElem_drop]
    rw [Memory.get?_overlay (cellsFrom_wf 0 L)]
    have := get?_cellsFrom 0 L (a + k)
    rw [Nat.zero_add] at this
    rw [this]
    simp at h1
    have h3 : a + k < L.length := by omega
    simp [List.getElem?_eq_getElem h3]

/-- `s` with other scratch contents. -/
def State.withScratch (s : State) (m : Mem) (held : Bool) : State := { s with scr := m, scrHeld := held }

/-- The scratch plays no part in a run of acts. -/
theorem runActs_withScratch (acts : List Act) (s : State) (m : Mem) (held : Bool) :
    runActs acts (s.withScratch m held) = ((runActs acts s).1, (runActs acts s).2.withScratch m held) := by
  induction acts generalizing s with
  | nil => rfl
  | cons x acts ih =>
    cases x with
    | mark e => exact ih { s with trace := s.trace ++ [e] }
    | txn dc L =>
      have h : (s.withScratch m held).nextOk = s.nextOk := rfl
      simp only [runActs, h]
      split
      · exact ih (s.afterTxn dc L)
      · rfl

end Sys2Proof.Machine
end

