-- ==== Sys2Proof/Tests/Slice0.lean ====
section
/-! SUPPORT. The tests: ill-formed terms, decoding of words written out from 30_encoding.md, single steps with the results
95_test_vectors.md gives, and for every statement of the certificate a state and operands that meet its hypotheses. -/

namespace Sys2Proof.Tests

open Sys2Proof.Machine

/-! ## Well-formedness: an ill-formed term for each check -/

theorem test_wf_nop : Instr.wellFormed 2 (.nop [0, 0, 0]) = false := by decide
theorem test_wf_displayInversionOff : Instr.wellFormed 2 (.displayInversionOff [0, 0, 0]) = false := by decide
theorem test_wf_setGamma : Instr.wellFormed 2 (.setGamma [0, 0, 0]) = false := by decide
theorem test_wf_columnAddr : Instr.wellFormed 4096 (.columnAddr 5#16 4#16) = false := by decide
theorem test_wf_pageAddr : Instr.wellFormed 4096 (.pageAddr 5#16 4#16) = false := by decide
theorem test_wf_memoryAccessControl : Instr.wellFormed 2 (.memoryAccessControl [0, 0, 0]) = false := by decide
theorem test_wf_pixelFormat : Instr.wellFormed 2 (.pixelFormat [0, 0, 0]) = false := by decide
theorem test_wf_frameRateControl : Instr.wellFormed 2 (.frameRateControl [0, 0, 0]) = false := by decide
theorem test_wf_displayFunctionControl : Instr.wellFormed 2 (.displayFunctionControl [0, 0, 0]) = false := by decide
theorem test_wf_power1 : Instr.wellFormed 2 (.power1 [0, 0, 0]) = false := by decide
theorem test_wf_power2 : Instr.wellFormed 2 (.power2 [0, 0, 0]) = false := by decide
theorem test_wf_vcom1 : Instr.wellFormed 2 (.vcom1 [0, 0, 0]) = false := by decide
theorem test_wf_vcom2 : Instr.wellFormed 2 (.vcom2 [0, 0, 0]) = false := by decide
theorem test_wf_positiveGammaCorrection : Instr.wellFormed 2 (.positiveGammaCorrection [0, 0, 0]) = false := by decide
theorem test_wf_negativeGammaCorrection : Instr.wellFormed 2 (.negativeGammaCorrection [0, 0, 0]) = false := by decide
theorem test_wf_accepts : Instr.wellFormed 2 (.nop [0, 0]) = true ∧ Instr.wellFormed 0 (.columnAddr 5#16 5#16) = true := by
  decide

/-! ## Decoding: words written out from R56, R57, R65, R66 -/

/-- Argument registers with the first four given. -/
def args4 (a b c d : Word) : Vector Word 8 := #v[a, b, c, d, 0, 0, 0, 0]

theorem test_decode_xferBytes :
    decode (.hostCmd 0x01#32 (args4 0x80001000 0x00000002 9 9)) = .ok (.xferBytes 0x80001000#32 2#32) := by decide
/-- V-TR10: `ARG0[31:8]` is ignored. -/
theorem test_decode_sendCmd : decode (.hostCmd 0x02#32 (args4 0x12345629 0 0 0)) = .ok (.sendCmd 0x29#8) := by decide
theorem test_decode_sendData : decode (.hostCmd 0x03#32 (args4 0x00000155 0 0 0)) = .ok (.sendData 0x55#8) := by decide
theorem test_decode_init : decode (.hostCmd 0x04#32 (args4 1 2 3 4)) = .ok .init := by decide
/-- V-ST5: `GO[31:8]` is ignored. -/
theorem test_decode_fillAll : decode (.hostCmd 0x00000110#32 (args4 0x0001F800 0 0 0)) = .ok (.fillAll 0xF800#16) := by
  decide
/-- The example of R61. -/
theorem test_decode_fillRegion :
    decode (.hostCmd 0x11#32 (args4 0x0014000A 0x0028001E 0x0000F800 0)) = .ok (.fillRegion 10#16 20#16 30#16 40#16 0xF800#16) := by
  decide
/-- P4's BLIT line. -/
theorem test_decode_blit :
    decode (.hostCmd 0x12#32 (args4 0x000000EF 0x00010002 0x00002000 0)) = .ok (.blit 239#16 0#16 2#16 1#16 0x2000#32) := by
  decide
/-- P3's SEND_REGION line. -/
theorem test_decode_sendRegion :
    decode (.hostCmd 0x20#32 (args4 0x00050008 0x0007000D 0 0)) = .ok (.sendRegion 8#16 5#16 13#16 7#16) := by decide
theorem test_decode_sendAll : decode (.hostCmd 0x21#32 (args4 1 2 3 4)) = .ok .sendAll := by decide
/-- P3's DRAW_TEXT line, with `norm` set and the ignored bits of `ARG2` set. -/
theorem test_decode_drawText :
    decode (.hostCmd 0x30#32 (args4 0x0005000A 0x00003000 0xFF010002 0x0000F800))
      = .ok (.drawText 10#16 5#16 0x3000#32 2#16 1#8 true 0xF800#16) := by decide
theorem test_decode_reserved :
    decode (.hostCmd 0x00#32 (args4 0 0 0 0)) = .error (.reservedOpcode 0x00#8) ∧
    decode (.hostCmd 0x05#32 (args4 0 0 0 0)) = .error (.reservedOpcode 0x05#8) ∧
    decode (.hostCmd 0xFF#32 (args4 0 0 0 0)) = .error (.reservedOpcode 0xFF#8) := by decide

theorem test_decode_nop : decode (.panelCmd ⟨0x00#8, []⟩) = .ok (.nop []) := by decide
theorem test_decode_sleepOut : decode (.panelCmd ⟨0x11#8, []⟩) = .ok .sleepOut := by decide
theorem test_decode_displayInversionOff : decode (.panelCmd ⟨0x20#8, []⟩) = .ok (.displayInversionOff []) := by decide
theorem test_decode_setGamma : decode (.panelCmd ⟨0x26#8, [1]⟩) = .ok (.setGamma [1]) := by decide
theorem test_decode_displayOn : decode (.panelCmd ⟨0x29#8, []⟩) = .ok .displayOn := by decide
/-- V-WN2 and V-WN4. -/
theorem test_decode_columnAddr :
    decode (.panelCmd ⟨0x2A#8, [0x00, 0x0A, 0x00, 0x1D]⟩) = .ok (.columnAddr 10#16 29#16) := by decide
theorem test_decode_pageAddr :
    decode (.panelCmd ⟨0x2B#8, [0x01, 0x3F, 0x01, 0x3F]⟩) = .ok (.pageAddr 319#16 319#16) := by decide
theorem test_decode_writeRam : decode (.panelCmd ⟨0x2C#8, []⟩) = .ok .writeRam := by decide
theorem test_decode_memoryAccessControl : decode (.panelCmd ⟨0x36#8, [1]⟩) = .ok (.memoryAccessControl [1]) := by decide
theorem test_decode_pixelFormat : decode (.panelCmd ⟨0x3A#8, [1]⟩) = .ok (.pixelFormat [1]) := by decide
theorem test_decode_frameRateControl : decode (.panelCmd ⟨0xB1#8, [1, 2]⟩) = .ok (.frameRateControl [1, 2]) := by decide
theorem test_decode_displayFunctionControl :
    decode (.panelCmd ⟨0xB6#8, [1, 2]⟩) = .ok (.displayFunctionControl [1, 2]) := by decide
theorem test_decode_power1 : decode (.panelCmd ⟨0xC0#8, [1]⟩) = .ok (.power1 [1]) := by decide
theorem test_decode_power2 : decode (.panelCmd ⟨0xC1#8, [1]⟩) = .ok (.power2 [1]) := by decide
theorem test_decode_vcom1 : decode (.panelCmd ⟨0xC5#8, [1]⟩) = .ok (.vcom1 [1]) := by decide
theorem test_decode_vcom2 : decode (.panelCmd ⟨0xC7#8, [1]⟩) = .ok (.vcom2 [1]) := by decide
theorem test_decode_positiveGammaCorrection :
    decode (.panelCmd ⟨0xE0#8, [1]⟩) = .ok (.positiveGammaCorrection [1]) := by decide
theorem test_decode_negativeGammaCorrection :
    decode (.panelCmd ⟨0xE1#8, [1]⟩) = .ok (.negativeGammaCorrection [1]) := by decide
/-- Wire forms no instruction has: a byte outside R66, a window payload of three bytes, a payload after WRITE_RAM. -/
theorem test_decode_panel_refused :
    decode (.panelCmd ⟨0x5A#8, []⟩) = .error (.unknownPanelByte 0x5A#8) ∧
    decode (.panelCmd ⟨0x2A#8, [1, 2, 3]⟩) = .error (.payloadLength 0x2A#8 3) ∧
    decode (.panelCmd ⟨0x2C#8, [1]⟩) = .error (.payloadLength 0x2C#8 1) := by decide

/-- Words numbered as the opcode table numbers them: `ARG[0]` counts on from bit 32, a payload byte from bit 8. -/
theorem test_table_words :
    decodeTableWord 8 0x02 = some (.sendCmd 0x00#8) ∧
    decodeTableWord 64 0x0000F80000000010 = some (.fillAll 0xF800#16) ∧
    decodeTableWord 8 0x2A = some (.columnAddr 0#16 0#16) ∧
    decodeTableWord 16 0x013A = some (.pixelFormat [1]) ∧ decodeTableWord 8 0x5A = none := by decide

/-! ## States -/

/-- A running operation whose next `n` transactions the bus answers OK and whose font load succeeds. -/
def running (n : Nat) : State :=
  { State.reset with busy := true, draws := { Draws.free with bus := List.replicate n .ok, loads := [true] } }

/-- A running operation whose next transaction fails after delivering `k` bytes, the one after `n` answered OK. -/
def failing (n k : Nat) : State :=
  { State.reset with busy := true, draws := { Draws.free with bus := List.replicate n .ok ++ [.fail k] } }

/-- `s` with host memory. -/
def withHost (s : State) (cells : List (Nat × Byte)) : State := { s with hmem := cells }

/-- A field of the next state. -/
def after {α : Type} (o : Host.Outcome State Fault Refusal) (f : State → α) : Option α :=
  match o with
  | .next t => some (f t)
  | .fault _ => none
  | .refused _ => none

/-- Why a step is refused. -/
def refusalOf (o : Host.Outcome State Fault Refusal) : Option Refusal :=
  match o with
  | .next _ => none
  | .fault _ => none
  | .refused r => some r

/-- `CODE`, `SUB` and `ERR_INFO` after a step. -/
def statusAfter (o : Host.Outcome State Fault Refusal) : Option (Byte × Byte × Word) :=
  after o fun t => (t.code, t.sub, t.errInfo)

/-! ## Transport: section 2.2 of 95_test_vectors.md -/

theorem test_xferBytes_vtr1 :
    after (exec (.xferBytes 0x1000#32 2#32) (withHost (running 1) [(0x1000, 0xAA#8), (0x1001, 0x55#8)])) State.trace
      = some [.txn true [0xAA#8, 0x55#8] true] := by decide
theorem test_xferBytes_vtr2_vtr3 :
    statusAfter (exec (.xferBytes 0x1000#32 0#32) (running 0)) = some (1#8, 1#8, 0#32) ∧
    statusAfter (exec (.xferBytes 0x1000#32 4097#32) (running 0)) = some (1#8, 3#8, 0#32) := by decide
theorem test_sendCmd_vtr8 :
    after (exec (.sendCmd 0x5A#8) (running 1)) (fun t => (t.trace, t.dc)) = some ([.txn false [0x5A#8] true], true) := by
  decide
theorem test_sendCmd_vtr7 :
    after (exec (.sendCmd 0x29#8) (failing 0 1)) (fun t => (t.trace, t.dc, t.code, t.sub))
      = some ([.txn false [0x29#8] false], true, 1#8, 2#8) := by decide
theorem test_sendData_vtr9 :
    after (exec (.sendData 0x55#8) (running 1)) State.trace = some [.txn true [0x55#8] true] := by decide

/-! ## INIT and the panel commands: section 2.3 -/

theorem test_init_vin1 :
    after (exec .init (running 2)) (fun t => (t.trace, t.initDone, t.code)) =
      some ([.rstLine false, .wait .rstLow 0, .rstLine true, .wait .rstSettle 10, .txn false [0x11#8] true,
        .wait .slpout 120, .txn false [0x29#8] true], true, 0#8) := by decide
theorem test_init_vin4 :
    after (exec .init (failing 0 0)) (fun t => (t.trace.getLast?, t.initDone, t.rst, t.dc, t.code, t.sub)) =
      some (some (.txn false [0x11#8] false), false, true, true, 1#8, 2#8) := by decide
/-- R170, U23: a failed INIT leaves the panel unknown, one that ends OK does not. -/
theorem test_init_failed_panel :
    after (exec .init (failing 0 0)) (fun t => t.panel.epoch) = some 1 ∧
    after (exec .init (running 2)) (fun t => (t.panel.epoch, t.panel.cur)) = some (0, some 0x29#8) := by decide
/-- V-IN2: the table's entry is sent before SLEEP_OUT, for a payload that selects RGB565. -/
theorem test_init_vin2 :
    after (exec .init { running 4 with cfg :=
      { Config.reference with initTable := [⟨0x3A#8, [7#8]⟩], rgb565 := [[7#8]] } })
      (fun t => t.trace.drop 4) =
      some [.txn false [0x3A#8] true, .txn true [7#8] true, .txn false [0x11#8] true, .wait .slpout 120,
        .txn false [0x29#8] true] := by decide

/-- Parameters whose table holds the given command bytes, each with the payload 7, which selects RGB565 and the
orientation. -/
def withTable (ops : List Byte) : Params :=
  { Config.reference with initTable := ops.map fun b => ⟨b, [7#8]⟩, rgb565 := [[7#8]], orientation := [[7#8]] }

/-- R101 (d), U13: a pixel-format or orientation payload that does not select what (d) asks is refused. -/
theorem test_init_selection :
    meetsR101 (withTable groupBytes) ∧ initTableOk { withTable groupBytes with rgb565 := [[8#8]] } = false ∧
    initTableOk { withTable groupBytes with orientation := [[8#8]] } = false := by decide

/-- R101 (c), U13: each missing group is refused; V-IN1 and V-IN3 give INIT on their tables. -/
theorem test_init_groups :
    groupBytes.all (fun b => !initTableOk (withTable (groupBytes.filter (· != b)))) = true ∧
    initTableOk Config.reference = true ∧ initTableOk { Config.reference with initTable := [⟨0x20#8, []⟩] } = true ∧
    initTableOk (withTable [0xC0#8]) = false := by decide
/-- V-IN5: a STATUS read during the second INIT shows BUSY 1 and INIT_DONE 0. -/
theorem test_init_vin5 :
    after (stepsFrom 2 { State.reset with
      initDone := true, host := [writeGo 0x04#8, .read 0x24 4], draws := { Draws.free with turns := [.host] } })
      State.reads = some [0x04000039#32] := by decide

/-- A running operation with a panel command still to come, so that the command run is not the last one. -/
def midInit (n : Nat) : State := { running n with pending := [⟨0x29#8, []⟩] }

/-- The events of a panel command. -/
def sent (i : Instr) (n : Nat) : Option (List Event × Bool) := after (exec i (midInit n)) fun t => (t.trace, t.busy)

theorem test_nop : sent (.nop []) 1 = some ([.txn false [0x00#8] true], true) := by decide
theorem test_sleepOut : sent .sleepOut 1 = some ([.txn false [0x11#8] true, .wait .slpout 120], true) := by decide
theorem test_displayInversionOff :
    sent (.displayInversionOff []) 1 = some ([.txn false [0x20#8] true], true) := by decide
theorem test_setGamma :
    sent (.setGamma [1]) 2 = some ([.txn false [0x26#8] true, .txn true [1] true], true) := by decide
theorem test_displayOn : sent .displayOn 1 = some ([.txn false [0x29#8] true], true) := by decide
theorem test_columnAddr_vwn2 :
    sent (.columnAddr 10#16 29#16) 2 = some ([.txn false [0x2A#8] true, .txn true [0x00, 0x0A, 0x00, 0x1D] true], true) := by
  decide
theorem test_pageAddr_vwn4 :
    sent (.pageAddr 319#16 319#16) 2 = some ([.txn false [0x2B#8] true, .txn true [0x01, 0x3F, 0x01, 0x3F] true], true) := by
  decide
theorem test_writeRam : sent .writeRam 1 = some ([.txn false [0x2C#8] true], true) := by decide
theorem test_memoryAccessControl :
    sent (.memoryAccessControl [8]) 2 = some ([.txn false [0x36#8] true, .txn true [8] true], true) := by decide
theorem test_pixelFormat :
    sent (.pixelFormat [5]) 2 = some ([.txn false [0x3A#8] true, .txn true [5] true], true) := by decide
theorem test_frameRateControl :
    sent (.frameRateControl [1, 2]) 2 = some ([.txn false [0xB1#8] true, .txn true [1, 2] true], true) := by decide
theorem test_displayFunctionControl :
    sent (.displayFunctionControl [1, 2]) 2 = some ([.txn false [0xB6#8] true, .txn true [1, 2] true], true) := by
  decide
theorem test_power1 : sent (.power1 [1]) 2 = some ([.txn false [0xC0#8] true, .txn true [1] true], true) := by decide
theorem test_power2 : sent (.power2 [1]) 2 = some ([.txn false [0xC1#8] true, .txn true [1] true], true) := by decide
theorem test_vcom1 : sent (.vcom1 [1]) 2 = some ([.txn false [0xC5#8] true, .txn true [1] true], true) := by decide
theorem test_vcom2 : sent (.vcom2 [1]) 2 = some ([.txn false [0xC7#8] true, .txn true [1] true], true) := by decide
theorem test_positiveGammaCorrection :
    sent (.positiveGammaCorrection [1]) 2 = some ([.txn false [0xE0#8] true, .txn true [1] true], true) := by decide
theorem test_negativeGammaCorrection :
    sent (.negativeGammaCorrection [1]) 2 = some ([.txn false [0xE1#8] true, .txn true [1] true], true) := by decide

/-! ## Fills, blit, sends: sections 2.1, 2.4 to 2.6 -/

/-- V-BO1, V-BO2. -/
theorem test_conv : conv 0xF800#16 = 0x00F8#16 ∧ conv 0x1234#16 = 0x3412#16 := by decide
/-- V-FA1: the first two pixels. -/
theorem test_fillAll_vfa1 :
    after (exec (.fillAll 0xF800#16) (running 0)) (fun t => (t.fbb.take 4, t.code)) =
      some ([(0, 0xF8#8), (1, 0x00#8), (2, 0xF8#8), (3, 0x00#8)], 0#8) := by decide +kernel
/-- V-FR1: pixels 241 and 242, high byte first. -/
theorem test_fillRegion_vfr1 :
    after (exec (.fillRegion 1#16 1#16 3#16 2#16 0x07E0#16) (running 0)) State.fbb
      = some [(482, 0x07#8), (483, 0xE0#8), (484, 0x07#8), (485, 0xE0#8)] := by decide
/-- V-FR8: INVERTED comes first. -/
theorem test_fillRegion_vfr8 :
    statusAfter (exec (.fillRegion 300#16 0#16 250#16 1#16 0) (running 0)) = some (2#8, 1#8, 0#32) ∧
    statusAfter (exec (.fillRegion 0#16 0#16 241#16 1#16 0) (running 0)) = some (2#8, 2#8, 0#32) ∧
    statusAfter (exec (.fillRegion 240#16 0#16 240#16 320#16 0) (running 0)) = some (0#8, 0#8, 0#32) := by decide
/-- V-BL1. -/
theorem test_blit_vbl1 :
    after (exec (.blit 5#16 0#16 2#16 1#16 0x2000#32)
      (withHost (running 0) [(0x2000, 0x00#8), (0x2001, 0xF8#8), (0x2002, 0xE0#8), (0x2003, 0x07#8)])) State.fbb
      = some [(10, 0xF8#8), (11, 0x00#8), (12, 0x07#8), (13, 0xE0#8)] := by decide
/-- V-BL3, V-BL6. -/
theorem test_blit_vbl3_vbl6 :
    statusAfter (exec (.blit 239#16 0#16 2#16 1#16 0x2000#32) (running 0)) = some (2#8, 2#8, 0#32) ∧
    statusAfter (exec (.blit 240#16 320#16 0#16 0#16 0x2000#32) (running 0)) = some (0#8, 0#8, 0#32) := by decide
/-- V-SR4: row-major packing. -/
theorem test_sendRegion_vsr4 :
    after (exec (.sendRegion 0#16 0#16 2#16 2#16) { running 6 with fbb :=
      [(0, 0x12#8), (1, 0x34#8), (2, 0x56#8), (3, 0x78#8), (480, 0x9A#8), (481, 0xBC#8), (482, 0xDE#8), (483, 0xF0#8)] })
      State.trace = some [.txn false [0x2A#8] true, .txn true [0, 0, 0, 1] true, .txn false [0x2B#8] true,
        .txn true [0, 0, 0, 1] true, .txn false [0x2C#8] true,
        .txn true [0x12, 0x34, 0x56, 0x78, 0x9A, 0xBC, 0xDE, 0xF0] true] := by decide +kernel
/-- V-SR11 and V-SR8. -/
theorem test_sendRegion_vsr11_vsr8 :
    after (exec (.sendRegion 0#16 0#16 2#16 2#16) (failing 2 0)) (fun t => (t.trace, t.code, t.sub, t.dc)) =
      some ([.txn false [0x2A#8] true, .txn true [0, 0, 0, 1] true, .txn false [0x2B#8] false], 1#8, 2#8, true) ∧
    statusAfter (exec (.sendRegion 0#16 0#16 32#16 32#16)
      { running 0 with cfg := { Config.reference with scratchCap := 1024 } }) = some (3#8, 0#8, 2048#32) := by decide
/-- V-SR5 to V-SR7. -/
theorem test_sendRegion_vsr5 :
    statusAfter (exec (.sendRegion 3#16 3#16 3#16 10#16) (running 0)) = some (2#8, 3#8, 0#32) ∧
    statusAfter (exec (.sendRegion 0#16 0#16 241#16 1#16) (running 0)) = some (2#8, 2#8, 0#32) ∧
    statusAfter (exec (.sendRegion 5#16 0#16 4#16 1#16) (running 0)) = some (2#8, 1#8, 0#32) := by decide
/-- SEND_ALL's window transactions, the last of them failing: V-WN1, and nothing after the failure. -/
theorem test_sendAll_window :
    after (exec .sendAll (failing 4 0)) (fun t => (t.trace, t.code, t.sub)) =
      some ([.txn false [0x2A#8] true, .txn true [0x00, 0x00, 0x00, 0xEF] true, .txn false [0x2B#8] true,
        .txn true [0x00, 0x00, 0x01, 0x3F] true, .txn false [0x2C#8] false], 1#8, 2#8) := by decide
/-- V-CP1 to V-CP8. -/
theorem test_full_plan :
    [4096, 4092, 3840, 3839, 8192, 32768, 153600].map nFull = [40, 40, 40, 48, 20, 5, 1] := by decide
/-- V-CP12, V-CP14, V-CP15. -/
theorem test_sub_plan :
    (subPlan 4096 2160).map Prod.snd = [4094, 226] ∧ (subPlan 4096 2048).map Prod.snd = [4094, 2] ∧
    (subPlan 4096 10000).map Prod.snd = [4094, 4094, 4094, 4094, 3624] ∧ (subPlan 3 2).map Prod.snd = [2, 2] := by
  decide

/-! ## Text: sections 2.7 and 2.8 -/

/-- V-CB8 to V-CB13, V-CB16. -/
theorem test_combine :
    combine 254#8 0xFFFF#16 = some 0xF7DE#16 ∧ combine 128#8 0xF800#16 = some 0x7800#16 ∧
    combine 128#8 0x07E0#16 = some 0x03E0#16 ∧ combine 100#8 0x1234#16 = some 0x00C7#16 ∧
    combine 128#8 0x0001#16 = some 0x0000#16 ∧ combine 200#8 0x0000#16 = some 0x31A6#16 := by decide

/-- The strings "A1" at `0x3000` and "12" at `0x3010`. -/
def textHost (s : State) : State := withHost s [(0x3000, 65#8), (0x3001, 49#8), (0x3010, 49#8), (0x3011, 50#8)]

/-- Row 5 of V-DT1 in the framebuffer's cells: pixels (8,5), (9,5) and (12,5); (10,5) and (11,5) are not written. -/
theorem test_drawText_vdt1 :
    after (exec (.drawText 10#16 5#16 0x3000#32 2#16 1#8 false 0xF800#16) (textHost (running 0)))
      (fun t => (t.fbb.take 6, t.fontReady)) =
      some ([(2416, 0xF8#8), (2417, 0x00#8), (2418, 0x78#8), (2419, 0x00#8), (2424, 0xF8#8), (2425, 0x00#8)], true) := by
  decide
/-- V-DT4: normalised digits; row 0 holds (18,0) and (22,0). -/
theorem test_drawText_vdt4 :
    after (exec (.drawText 20#16 0#16 0x3010#32 2#16 0#8 true 0x07E0#16) (textHost (running 0))) (fun t => t.fbb.take 4) =
      some [(36, 0x07#8), (37, 0xE0#8), (44, 0x01#8), (45, 0xE0#8)] := by decide
/-- V-TL1, V-TL2, V-TL4. -/
theorem test_text_width :
    (charInfos Config.fontTF false [65, 49]).map (textWidth · 1) = some 5 ∧
    (charInfos Config.fontTF true [65, 49]).map (textWidth · 1) = some 7 ∧
    (charInfos Config.fontTF true [49, 50]).map (fun ci => (textWidth ci 0, ci.map CharInfo.xoff)) = some (6, [1, 1]) := by
  decide

/-! ## The register interface: section 2.9 -/

/-- V-ST1. -/
theorem test_status_reset : statusWord State.reset = 0x00000038#32 := by decide
/-- V-ST3: a reserved opcode. -/
theorem test_reserved_vst3 :
    after (stepsFrom 4 { State.reset with host := [writeGo 0x05#8, .poll, .read 0x24 4] }) State.reads
      = some [0x05000638#32] := by decide
/-- R161: a `GO` without its argument word, and one before the last status was read, are refused; after the read it starts. -/
theorem test_host_duties :
    refusalOf (goWrite State.reset 0x10#32) = some (.argumentUnwritten 0x10#8) ∧
    refusalOf (goWrite { State.reset with statusUnread := true } 0x04#32) = some .statusUnread ∧
    after (stepsFrom 2 { State.reset with statusUnread := true, host := [.read 0x24 4, writeGo 0x04#8] })
      (fun t => (t.busy, t.statusUnread)) = some (true, true) := by decide
/-- R160: `W GO` then `R` has ended while the operation runs; `W GO` alone has not, and `W GO`, `POLL` has after the POLL. -/
theorem test_host_done :
    after (stepsFrom 2 { State.reset with
      host := [writeGo 0x05#8, .read 0x28 4], draws := { Draws.free with turns := [.host] } })
      (fun t => (decide t.hostDone, t.busy)) = some (true, true) ∧
    after (stepsFrom 1 { State.reset with host := [writeGo 0x05#8] }) (fun t => decide t.hostDone) = some false ∧
    after (stepsFrom 3 { State.reset with host := [writeGo 0x05#8, .poll] }) (fun t => decide t.hostDone) = some true := by
  decide
/-- V-ST10: a write while an operation runs changes nothing. -/
theorem test_write_busy_vst10 :
    after (hostWrite (running 0) 0x00 4 0x1234#32) (fun t => t.args[0]) = some 0#32 := by decide
/-- R18, U18, R166, U5: in reset a reserved offset reads 0 and STATUS any value. -/
theorem test_reads_in_reset :
    after (stepsFrom 2 { State.reset with
      resetIn := true, host := [.read 0x2C 4, .read 0x24 4], draws := { Draws.free with words := [7#32] } })
      State.reads = some [0#32, 7#32] := by decide
/-- R31, R47: above register space a write of any width is ignored, and the hole reads 0 while an operation runs. -/
theorem test_hole :
    after (hostWrite (running 0) 0x101 3 5#32) (fun t => t.args[0]) = some 0#32 ∧
    after (hostRead (running 0) 0x100 4) State.reads = some [0#32] := by decide
/-- V-BO6: a 16-bit window read of pixel 0 = `0x1234`. -/
theorem test_window_vbo6 :
    after (hostRead { State.reset with fbb := [(0, 0x12#8), (1, 0x34#8)] } 0x40000 2) State.reads = some [0x3412#32] := by
  decide
/-- R62: SEND_CMD_PAYLOAD needs `n ≥ 1`. -/
theorem test_pseudo :
    expandPseudo (.sendCmdPayload 0x2C#8 0x1000#32 0#32) = none ∧
    expandPseudo (.sendCmdPayload 0x2C#8 0x1000#32 1#32) = some [.sendCmd 0x2C#8, .xferBytes 0x1000#32 1#32] := by decide
/-- R166: a SEND_REGION abandoned in its third transaction: two events, and the page command's byte reached the panel. -/
theorem test_reset_abandons :
    after (hostTurn { running 6 with
      curOp := 0x20#8, args := args4 0 0x00020002 0 0, host := [.assertReset],
      draws := { Draws.free with bus := List.replicate 6 .ok, cuts := [⟨2, 1⟩] } })
      (fun t => (t.trace, t.panel.cur, t.resetIn)) =
      some ([.txn false [0x2A#8] true, .txn true [0, 0, 0, 1] true], some 0x2B#8, true) := by decide +kernel
/-- What withFetchWord places runs as the next step. -/
theorem test_fetch_word :
    after (step (State.reset.withFetchWord 96 0x000100010000000000000011)) (fun t => (t.busy, t.lastOpc, t.code))
      = some (false, 0x11#8, 0#8) := by decide

/-! ## Witnesses: a state and operands that meet a statement's hypotheses, one clause after the other -/

/-- The hypotheses of a statement about a next state. -/
theorem next_of_after {o : Host.Outcome State Fault Refusal} {p : State → Bool} (h : after o p = some true) :
    ∃ t, o = .next t ∧ p t = true := by
  cases o with
  | next t => exact ⟨t, rfl, by simpa [after] using h⟩
  | fault f => simp [after] at h
  | refused r => simp [after] at h

theorem witness_PanelWireFormIsUnique : decode (.panelCmd ⟨0x2A#8, [0, 0, 0, 0]⟩) = .ok (.columnAddr 0#16 0#16) := by decide
theorem witness_OpcodeAloneSelectsTheOperation :
    (0x00000104#32).extractLsb' 0 8 = (0x04#32).extractLsb' 0 8 ∧
    decode (.hostCmd 0x00000104#32 (args4 0 0 0 0)) = .ok .init := by decide
theorem witness_OpcodeTableOfHostOperations :
    decode (.hostCmd 0x30#32 (args4 0 0 0 0)) = .ok (.drawText 0#16 0#16 0#32 0#16 0#8 false 0#16) ∧
    (∀ n : Fin 8, n.val < 4 → (args4 0 0 0 0)[n] = (args4 0 0 0 0)[n]) := ⟨by decide, fun _ _ => rfl⟩
theorem witness_AssembledLinesRunTheirOperation :
    isHostOp (.drawText 0#16 0#16 0#32 0#16 0#8 false 0#16) = true ∧ State.reset.busy = false ∧
    State.reset.resetIn = false ∧ State.reset.pending = [] ∧ State.reset.statusUnread = false := by decide
theorem witness_RegisterReads : State.reset.resetIn = false ∧ 11 ≤ 11 ∧ 11 < 64 ∧ 11 ≤ 63 ∧ 63 < 64 := by decide
/-- The argument words of DRAW_TEXT written; the last of them not written; the last status unread. -/
theorem witness_IdleRegisterWrites :
    (State.reset.resetIn = false ∧ State.reset.busy = false ∧ 9 ≤ 9 ∧ 9 < 64 ∧ 9 ≤ 63 ∧ 63 < 64) ∧
    State.reset.statusUnread = false ∧ ({ State.reset with statusUnread := true } : State).statusUnread = true ∧
    decode (.hostCmd 0x30#32 State.reset.args) = .ok (.drawText 0#16 0#16 0#32 0#16 0#8 false 0#16) ∧
    (∀ n : Fin 8, n.val < (argWords (.drawText 0#16 0#16 0#32 0#16 0#8 false 0#16)).length →
      ({ State.reset with argsWritten := #v[true, true, true, true, false, false, false, false] } : State).argsWritten[n]
        = true) ∧
    ((3 : Fin 8).val < (argWords (.drawText 0#16 0#16 0#32 0#16 0#8 false 0#16)).length ∧
      ({ State.reset with argsWritten := #v[true, true, true, false, false, false, false, false] } : State).argsWritten[
        (3 : Fin 8)] = false) := by decide
theorem witness_BusyWritesAreIgnored : (running 0).busy = true ∧ (running 0).resetIn = false := by decide
/-- Across the framebuffer's end, the window's last byte, and the first address past the framebuffer. -/
theorem witness_FramebufferWindow :
    ((4 = 1 ∨ 4 = 2 ∨ 4 = 4) ∧ 153598 + 4 ≤ 0x40000 ∧ State.reset.busy = false) ∧
    ((1 = 1 ∨ 1 = 2 ∨ 1 = 4) ∧ 0x3FFFF + 1 ≤ 0x40000 ∧ (running 0).busy = true) ∧
    (153599 < 153600 ∧ ¬ 153600 < 153600) ∧ 1 ≤ 3 ∧ 3 < 4 := by decide
theorem witness_AccessesOutsideTheContract :
    (0xFE < 0x100 ∧ (4 ≠ 4 ∨ 0xFE % 4 ≠ 0)) ∧ (0xFC < 0x100 ∧ (2 ≠ 4 ∨ 0xFC % 4 ≠ 0)) ∧
    (0x100 ≤ 0x7FFFC ∧ 0x7FFFC + 4 ≤ 0x80000) ∧ (0x100 ≤ 0x7FFFD ∧ 0x80000 < 0x7FFFD + 4) ∧
    (0x100 ≤ 0x3FFFC ∧ (4 = 1 ∨ 4 = 2 ∨ 4 = 4) ∧ 0x3FFFC + 4 ≤ 0x40000) ∧
    (0x100 ≤ 0x3FFFF ∧ (2 = 1 ∨ 2 = 2 ∨ 2 = 4) ∧ 0x3FFFF < 0x40000 ∧ 0x40000 < 0x3FFFF + 2 ∧
      State.reset.busy = false ∧ (running 0).busy = true ∧ 2 ≤ 3 ∧ 3 < 4) ∧
    (0x100 ≤ 0x100 ∧ 3 ≠ 1 ∧ 3 ≠ 2 ∧ 3 ≠ 4) := by decide


/-- A running operation with opcode `opc` on the argument registers `a`. -/
def runningOp (opc : Byte) (a : Vector Word 8) : State := { running 0 with curOp := opc, args := a }

/-- Each first clause, and the bytes just below and just above the range each of the three operations names. -/
theorem witness_HostStoreChangesOneByte_unnamed :
    (decode (.hostCmd ((runningOp 0x01#8 (args4 0x1000 2 0 0)).curOp.setWidth 32)
        (runningOp 0x01#8 (args4 0x1000 2 0 0)).args) = .ok (.xferBytes 0x1000#32 2#32) ∧
      (0x0FFF#32).toNat < (0x1000#32).toNat ∧ (0x1000#32).toNat + (2#32).toNat ≤ (0x1002#32).toNat) ∧
    (decode (.hostCmd ((runningOp 0x12#8 (args4 0 0x00010001 0x1000 0)).curOp.setWidth 32)
        (runningOp 0x12#8 (args4 0 0x00010001 0x1000 0)).args) = .ok (.blit 0#16 0#16 1#16 1#16 0x1000#32) ∧
      (0x1000#32).toNat + 2 * (1#16).toNat * (1#16).toNat ≤ (0x1002#32).toNat) ∧
    (decode (.hostCmd ((runningOp 0x30#8 (args4 0 0x1000 1 0)).curOp.setWidth 32)
        (runningOp 0x30#8 (args4 0 0x1000 1 0)).args) = .ok (.drawText 0#16 0#16 0x1000#32 1#16 0#8 false 0#16) ∧
      (0x1000#32).toNat + (1#16).toNat ≤ (0x1001#32).toNat) ∧
    after (hostStore (runningOp 0x01#8 (args4 0x1000 2 0 0)) 0x1002#32 5#8) State.hmem = some [(0x1002, 5#8)] := by decide
theorem witness_HostStoreChangesOneByte :
    State.reset.busy = false ∧ ({ running 0 with resetIn := true } : State).resetIn = true ∧
    (running 0).busy = true ∧ (running 0).resetIn = false ∧
    (decode (.hostCmd ((runningOp 0x01#8 (args4 0x1000 2 0 0)).curOp.setWidth 32)
        (runningOp 0x01#8 (args4 0x1000 2 0 0)).args) = .ok (.xferBytes 0x1000#32 2#32) ∧
      (0x1000#32).toNat ≤ (0x1001#32).toNat ∧ (0x1001#32).toNat < (0x1000#32).toNat + (2#32).toNat) ∧
    (decode (.hostCmd ((runningOp 0x12#8 (args4 0 0x00010001 0x1000 0)).curOp.setWidth 32)
        (runningOp 0x12#8 (args4 0 0x00010001 0x1000 0)).args) = .ok (.blit 0#16 0#16 1#16 1#16 0x1000#32) ∧
      (0x1000#32).toNat ≤ (0x1001#32).toNat ∧
      (0x1001#32).toNat < (0x1000#32).toNat + 2 * (1#16).toNat * (1#16).toNat) ∧
    (decode (.hostCmd ((runningOp 0x30#8 (args4 0 0x1000 1 0)).curOp.setWidth 32)
        (runningOp 0x30#8 (args4 0 0x1000 1 0)).args) = .ok (.drawText 0#16 0#16 0x1000#32 1#16 0#8 false 0#16) ∧
      (0x1000#32).toNat ≤ (0x1000#32).toNat ∧ (0x1000#32).toNat < (0x1000#32).toNat + (1#16).toNat) := by decide
theorem witness_PollWaitsForIdle :
    ({ State.reset with host := [.poll] } : State).host = [.poll] ∧ State.reset.resetIn = false ∧
    State.reset.busy = false ∧ ({ running 0 with host := [.poll] } : State).host = [.poll] ∧
    (running 0).resetIn = false ∧ (running 0).busy = true := by decide
theorem witness_PlatformReset : after (assertReset State.reset) State.resetIn = some true := by decide
/-- A running XFER_BYTES of two bytes whose reset cuts it at `c`. -/
def cutXfer (c : Cut) : State :=
  { runningOp 0x01#8 (args4 0x1000 2 0 0) with
    host := [.assertReset], draws := { Draws.free with bus := [.ok], cuts := [c] } }

/-- A cut in its only transaction, one past it, cuts at INIT's line change and at its wait, and a step in reset. -/
theorem witness_ResetAbandonsTheOperation :
    ((cutXfer ⟨0, 1⟩).busy = true ∧ (cutXfer ⟨0, 1⟩).resetIn = false ∧ (cutXfer ⟨0, 1⟩).pending = [] ∧
      (cutXfer ⟨0, 1⟩).host = .assertReset :: [] ∧
      decode (.hostCmd ((cutXfer ⟨0, 1⟩).curOp.setWidth 32) (cutXfer ⟨0, 1⟩).args) = .ok (.xferBytes 0x1000#32 2#32)) ∧
    (∃ t, exec (.xferBytes 0x1000#32 2#32) { cutXfer ⟨0, 1⟩ with
      host := [], awaiting := false, draws := (drawCut (cutXfer ⟨0, 1⟩).draws).2 } = .next t ∧
      decide (t.trace.length = 1 ∧ (drawCut (cutXfer ⟨0, 1⟩).draws).1.events < t.trace.length ∧
        t.trace.length ≤ (drawCut (cutXfer ⟨1, 0⟩).draws).1.events) = true) ∧
    (∃ t, exec .init (running 2) = .next t ∧
      decide (t.trace[(⟨0, 0⟩ : Cut).events]? = some (.rstLine false) ∧
        t.trace[(⟨1, 0⟩ : Cut).events]? = some (.wait .rstLow 0)) = true) ∧
    (({ running 0 with resetIn := true, host := [.poll] } : State).host.head? ≠ some .releaseReset ∧
      after (step { running 0 with
        resetIn := true, host := [.poll], draws := { Draws.free with words := [1#32] } }) State.resetIn = some true) :=
  ⟨by decide, next_of_after (by decide), next_of_after (by decide), by decide⟩
theorem witness_PseudoOperationsExpand : 1 ≤ (1#32).toNat ∧ (0#32).toNat = 0 := by decide
/-- A running operation whose host has an access to make, the next turn drawn for `a`. -/
def drawn (a : Agent) (opc : Byte) : State :=
  { runningOp opc (args4 0 0 0 0) with host := [.read 0x24 4], draws := { Draws.free with turns := [a] } }

theorem witness_StepRunsTheDecodedInstruction :
    ((running 0).busy = true ∧ (running 0).resetIn = false ∧ hostReady (running 0) = false ∧ (running 0).pending = []) ∧
    decode (.hostCmd ((runningOp 0x04#8 (args4 0 0 0 0)).curOp.setWidth 32) (runningOp 0x04#8 (args4 0 0 0 0)).args)
      = .ok .init ∧
    decode (.hostCmd ((running 0).curOp.setWidth 32) (running 0).args) = .error (.reservedOpcode 0#8) ∧
    ((midInit 0).pending = [⟨0x29#8, []⟩] ∧ hostReady (midInit 0) = false ∧
      decode (.panelCmd ⟨0x29#8, []⟩) = .ok .displayOn ∧
      decode (.panelCmd ⟨0x5A#8, []⟩) = .error (.unknownPanelByte 0x5A#8)) ∧
    (hostReady (drawn .sequencer 0x04#8) = true ∧ (drawTurn (drawn .sequencer 0x04#8).draws).1 = .sequencer ∧
      (sequencerTurn (drawn .sequencer 0x04#8)).isSome = true) ∧
    (hostReady (drawn .host 0x04#8) = true ∧ (drawTurn (drawn .host 0x04#8).draws).1 = .host) := by decide
/-- The host only waits; the host has an access and the turn drawn is the sequencer's. -/
theorem witness_ReservedOpcodeEndsWithIllegalOp :
    ((running 0).busy = true ∧ (running 0).resetIn = false ∧ (running 0).pending = [] ∧
      (sequencerTurn (running 0)).isSome = true ∧
      (running 0).curOp ∉ [0x01#8, 0x02#8, 0x03#8, 0x04#8, 0x10#8, 0x11#8, 0x12#8, 0x20#8, 0x21#8, 0x30#8]) ∧
    (sequencerTurn (drawn .sequencer 0x05#8)).isSome = true ∧
    (drawn .sequencer 0x05#8).curOp ∉
      [0x01#8, 0x02#8, 0x03#8, 0x04#8, 0x10#8, 0x11#8, 0x12#8, 0x20#8, 0x21#8, 0x30#8] := by decide
theorem witness_IdleBlockDoesNothing :
    State.reset.busy = false ∧ State.reset.resetIn = false ∧ State.reset.host = [] := by decide
/-- One byte, and a whole transaction that ends at the last host byte. -/
theorem witness_XferBytesSendsTheRun :
    (running 1).dc = true ∧ 1 ≤ (1#32).toNat ∧ (4096#32).toNat ≤ (running 1).cfg.maxXfer ∧
    (0xFFFFF000#32).toNat + (4096#32).toNat ≤ 4294967296 := by decide
theorem witness_XferBytesErrors :
    (0#32).toNat = 0 ∧ ((4097#32).toNat ≠ 0 ∧ (running 0).cfg.maxXfer < (4097#32).toNat) ∧
    (1 ≤ (2#32).toNat ∧ (2#32).toNat ≤ (running 0).cfg.maxXfer ∧
      4294967296 < (0xFFFFFFFF#32).toNat + (2#32).toNat) := by decide
theorem witness_SendCmdSendsOneCommandByte : ∃ t, exec (.sendCmd 0x29#8) (running 1) = .next t := ⟨_, rfl⟩
theorem witness_SendDataSendsOneDataByte :
    1 ≤ (running 1).cfg.maxXfer ∧ ({ Config.reference with maxXfer := 0 } : Params).maxXfer = 0 := by decide
theorem witness_AnsweredActsAreAllIssued : (running 2).allOk [(false, [0x36#8]), (true, [8#8])].length := rfl
theorem witness_EveryTransactionHasWireForm : ∃ t, exec .writeRam (running 1) = .next t := ⟨_, rfl⟩
theorem witness_NoTransactionAfterAFailedOne :
    (∃ t, exec (.sendCmd 0x29#8) (failing 0 0) = .next t ∧ decide (t.trace = [.txn false [0x29#8] false]) = true) ∧
    isHostOp (.sendCmd 0x29#8) = true ∧ eventFailed (.txn false [0x29#8] false) = true :=
  ⟨next_of_after (by decide), rfl, rfl⟩
theorem witness_LinesRestAfterEveryOperation :
    (running 1).resting ∧ ∃ t, exec (.sendCmd 0x29#8) (running 1) = .next t := ⟨by decide, _, rfl⟩
theorem witness_PayloadCommandsSendCommandThenPayload : [1#8, 2#8].length ≤ (running 2).cfg.maxXfer := by decide
theorem witness_WindowCommandsSendTheirBounds : 4 ≤ ({ Config.reference with maxXfer := 4 } : Params).maxXfer := by decide
theorem witness_OversizePayloadEndsTheOperation :
    (running 1).nextOk = true ∧ ({ Config.reference with maxXfer := 3 } : Params).maxXfer < [1#8, 2#8, 3#8, 4#8].length ∧
    ({ Config.reference with maxXfer := 3 } : Params).maxXfer < 4 := by decide
theorem witness_PanelTakesTheWindow :
    4 ≤ (running 2).cfg.maxXfer ∧ (running 2).allOk 2 ∧ (∃ t, exec (.columnAddr 1#16 2#16) (running 2) = .next t) ∧
    (∃ t, exec (.pageAddr 1#16 2#16) (running 2) = .next t) ∧ ∃ t, exec .writeRam (running 2) = .next t :=
  ⟨by decide, rfl, ⟨_, rfl⟩, ⟨_, rfl⟩, ⟨_, rfl⟩⟩
theorem witness_InitReplaysTheTable :
    (running 2).rst = true ∧ initTableOk (running 2).cfg = true ∧
    initTableOk { Config.reference with initTable := [⟨0x11#8, []⟩] } = false ∧
    initTableOk (withTable groupBytes) = true ∧ initTableOk { withTable groupBytes with maxXfer := 0 } = false ∧
    initTableOk { withTable groupBytes with orientation := [] } = false ∧
    (0xC0#8 ∉ (withTable [0xC1#8, 0xC5#8]).initTable.map WireCmd.op ∧ 2 ≤ (withTable [0xC1#8, 0xC5#8]).initTable.length ∧
      { running 0 with cfg := withTable [0xC1#8, 0xC5#8] }.rst = true) := by decide
theorem witness_InitDoneMeansInitEndedOk :
    (running 2).rst = true ∧ (∃ t, exec .init (running 2) = .next t) ∧
    Instr.writeRam ≠ .init ∧ ∃ t, exec .writeRam (running 1) = .next t := ⟨rfl, ⟨_, rfl⟩, by decide, ⟨_, rfl⟩⟩
theorem witness_FillAllSetsEveryPixel : 76799 < 76800 ∧ 76800 ≤ 76800 := by decide
/-- The whole frame, and an empty rectangle at the right edge. -/
theorem witness_FillRegionIsLocal :
    ((0#16).toNat ≤ (240#16).toNat ∧ (0#16).toNat ≤ (320#16).toNat ∧ (240#16).toNat ≤ 240 ∧ (320#16).toNat ≤ 320) ∧
    ((240#16).toNat ≤ (240#16).toNat ∧ (320#16).toNat ≤ (320#16).toNat) := by decide
theorem witness_FillRegionErrors :
    ((240#16).toNat < (241#16).toNat ∨ (0#16).toNat < (0#16).toNat) ∧
    ((0#16).toNat ≤ (241#16).toNat ∧ (0#16).toNat ≤ (0#16).toNat ∧ (240 < (241#16).toNat ∨ 320 < (0#16).toNat)) := by decide
theorem witness_ConverterAndPixelLayout : 5 ≠ 2 * 3 ∧ 5 ≠ 2 * 3 + 1 := by decide
/-- A box that ends at the last pixel, its image at the last host bytes. -/
theorem witness_BlitIsLocal :
    (238#16).toNat + (2#16).toNat ≤ 240 ∧ (318#16).toNat + (2#16).toNat ≤ 320 ∧
    (0xFFFFFFF8#32).toNat + 2 * (2#16).toNat * (2#16).toNat ≤ 4294967296 ∧ 1 < (2#16).toNat ∧
    0 ∉ pix 238 318 240 320 := by decide
theorem witness_BlitErrors :
    (240 < (239#16).toNat + (2#16).toNat ∨ 320 < (0#16).toNat + (1#16).toNat) ∧
    ((238#16).toNat + (2#16).toNat ≤ 240 ∧ (319#16).toNat + (1#16).toNat ≤ 320 ∧
      4294967296 < (0xFFFFFFFD#32).toNat + 2 * (2#16).toNat * (1#16).toNat) := by decide
theorem witness_FullFrameChunkCountIsLeast :
    2 ≤ 2 ∧ 1 ≤ 76800 ∧ 76800 % 76800 = 0 ∧ 2 * 76800 / 76800 ≤ 2 := by decide
theorem witness_GreedyChunksCoverTheList : 3 ≤ 3 ∧ 1 ≤ 1 ∧ [0x12#8, 0x34#8].length = 2 * 1 := by decide
theorem witness_SendAllSendsWindowThenChunks :
    4 ≤ (running 45).cfg.maxXfer ∧ (running 45).cfg.xOff + 240 ≤ 65536 ∧ (running 45).cfg.yOff + 320 ≤ 65536 := by decide
theorem witness_SendRegionSendsPackedChunks :
    (239#16).toNat < (240#16).toNat ∧ (0#16).toNat < (320#16).toNat ∧ (240#16).toNat ≤ 240 ∧ (320#16).toNat ≤ 320 ∧
    ¬ ((239#16).toNat = 0 ∧ (0#16).toNat = 0 ∧ (240#16).toNat = 240 ∧ (320#16).toNat = 320) ∧
    4 ≤ (running 6).cfg.maxXfer ∧ (running 6).cfg.xOff + 240 ≤ 65536 ∧ (running 6).cfg.yOff + 320 ≤ 65536 ∧
    (running 6).cfg.allocDraw = false ∧ (drawAlloc { Draws.free with allocs := [false] }).1 = false ∧
    2 * (((240#16).toNat - (239#16).toNat) * ((320#16).toNat - (0#16).toNat)) ≤ (running 6).cfg.scratchCap := by decide
/-- The four clauses: inverted, outside, empty at the corner, and the two ways the scratch is not obtained. -/
theorem witness_SendRegionErrors_parameters :
    ((0#16).toNat < (32#16).toNat ∧ (32#16).toNat ≤ 240 ∧ (32#16).toNat ≤ 320) ∧
    ({ Config.reference with maxXfer := 2 } : Params).maxXfer < 3 ∧
    (({ Config.reference with maxXfer := 3 } : Params).maxXfer = 3 ∧
      ({ Config.reference with maxXfer := 3 } : Params).xOff + 240 ≤ 65536 ∧
      ({ Config.reference with maxXfer := 3 } : Params).yOff + 320 ≤ 65536 ∧
      2 * (((32#16).toNat - (0#16).toNat) * ((32#16).toNat - (0#16).toNat)) ≤
        ({ Config.reference with maxXfer := 3 } : Params).scratchCap ∧
      ({ Config.reference with maxXfer := 3 } : Params).allocDraw = false) ∧
    (drawAlloc { Draws.free with allocs := [false] }).1 = false ∧
    (3 ≤ Config.reference.maxXfer ∧ 65536 < ({ Config.reference with xOff := 65297 } : Params).xOff + 240 ∧
      65536 < ({ Config.reference with yOff := 65217 } : Params).yOff + 320) := by decide
theorem witness_SendRegionErrors :
    ((4#16).toNat < (5#16).toNat ∨ (0#16).toNat < (0#16).toNat) ∧
    ((0#16).toNat ≤ (241#16).toNat ∧ (0#16).toNat ≤ (320#16).toNat ∧ (240 < (241#16).toNat ∨ 320 < (320#16).toNat)) ∧
    ((240#16).toNat ≤ (240#16).toNat ∧ (0#16).toNat ≤ (320#16).toNat ∧ (240#16).toNat ≤ 240 ∧ (320#16).toNat ≤ 320 ∧
      ((240#16).toNat = (240#16).toNat ∨ (0#16).toNat = (320#16).toNat)) ∧
    ((0#16).toNat < (32#16).toNat ∧ (32#16).toNat ≤ 240 ∧ 3 ≤ Config.reference.maxXfer ∧
      Config.reference.xOff + 240 ≤ 65536 ∧ Config.reference.yOff + 320 ≤ 65536 ∧
      ({ Config.reference with scratchCap := 1024 } : Params).scratchCap <
        2 * (((32#16).toNat - (0#16).toNat) * ((32#16).toNat - (0#16).toNat)) ∧
      2 * (((32#16).toNat - (0#16).toNat) * ((32#16).toNat - (0#16).toNat)) ≤ Config.reference.scratchCap ∧
      ({ Config.reference with allocDraw := true } : Params).allocDraw = true ∧
      (drawAlloc { Draws.free with allocs := [true] }).1 = true) := by decide
/-- A 1x1 send that ends OK. -/
theorem witness_SendAccountsForEveryByte :
    ∃ t, exec (.sendRegion 5#16 7#16 6#16 8#16) (running 6) = .next t ∧ decide (t.code = 0#8) = true :=
  next_of_after (by decide)
theorem witness_CombinerBlendsChannels :
    (1#8 : Byte) ≠ 0#8 ∧ (1#8 : Byte) ≠ 255#8 ∧ (254#8 : Byte) ≠ 255#8 ∧ (0x0001#16 : Half) ≠ 0x0000#16 := by decide
theorem witness_ScaleEqualsMaskedProduct : 31 < 2 ^ 5 ∧ 255 ≤ 255 := by decide
theorem witness_DrawTextEarlyEnds :
    (running 0).cfg.maxChars < (33#16).toNat ∧ (0#16).toNat = 0 ∧
    (1 ≤ (32#16).toNat ∧ (32#16).toNat ≤ (running 0).cfg.maxChars ∧ (running 0).fontReady = false ∧
      (drawLoad { Draws.free with loads := [false] }).1 = false) := by decide

/-- The layout of "A1" in TF without normalisation (V-TL1). -/
def ciA1 : List CharInfo := [⟨65#8, 0, 3, 0, 3⟩, ⟨49#8, 3, 1, 0, 1⟩]

theorem witness_DrawTextBoundsErrors :
    (1 ≤ (2#16).toNat ∧ (2#16).toNat ≤ (textHost (running 0)).cfg.maxChars ∧
      ({ textHost (running 0) with fontReady := true } : State).fontReady = true ∧
      ((textHost (running 0)).fontReady = false ∧ (drawLoad (textHost (running 0)).draws).1 = true) ∧
      (0x3000#32).toNat + (2#16).toNat ≤ 4294967296 ∧ 4294967296 < (0xFFFFFFFF#32).toNat + (2#16).toNat) ∧
    fontWf { Config.fontTF with digitW := 0 } = false ∧ fontWf (textHost (running 0)).cfg.font = true ∧
    (1 < (2#16).toNat ∧ glyphOf Config.fontTF
      (hostByte (withHost (running 0) [(0x3000, 65#8), (0x3001, 51#8)]) ((0x3000#32).toNat + 1)) = none) ∧
    charInfos (textHost (running 0)).cfg.font false
      ((List.range' (0x3000#32).toNat (2#16).toNat).map (hostByte (textHost (running 0)))) = some ciA1 ∧
    textStart (1#16).toNat (textWidth ciA1 (1#8).toNat) < 0 ∧
    240 < textStart (238#16).toNat (textWidth ciA1 (1#8).toNat) + textWidth ciA1 (1#8).toNat ∧
    320 < (319#16).toNat + (textHost (running 0)).cfg.font.fh := by decide
/-- V-DT8's call with the load draw true, at the last place the text fits (V-DT13, V-DT15). -/
theorem witness_DrawTextPaintsItsGlyphs :
    1 ≤ (2#16).toNat ∧ (2#16).toNat ≤ (textHost (running 0)).cfg.maxChars ∧
    ((textHost (running 0)).fontReady = true ∨ (drawLoad (textHost (running 0)).draws).1 = true) ∧
    fontWf (textHost (running 0)).cfg.font = true ∧ (0x3000#32).toNat + (2#16).toNat ≤ 4294967296 ∧
    charInfos (textHost (running 0)).cfg.font false
      ((List.range' (0x3000#32).toNat (2#16).toNat).map (hostByte (textHost (running 0)))) = some ciA1 ∧
    (textWidth ciA1 (1#8).toNat / 2 : Nat) ≤ (237#16).toNat ∧
    (237#16).toNat - textWidth ciA1 (1#8).toNat / 2 + textWidth ciA1 (1#8).toNat ≤ 240 ∧
    (318#16).toNat + (textHost (running 0)).cfg.font.fh ≤ 320 ∧
    ciA1[1]? = some ⟨49#8, 3, 1, 0, 1⟩ ∧ 0 < 1 ∧ 1 < (textHost (running 0)).cfg.font.fh := by decide
theorem witness_ErrorsLeaveTheFramebuffer :
    isHostOp (.fillRegion 1#16 0#16 0#16 0#16 0#16) = true ∧
    (∃ t, exec (.fillRegion 1#16 0#16 0#16 0#16 0#16) (running 0) = .next t ∧ decide (t.code ∈ [2#8, 3#8, 5#8, 6#8]) = true) ∧
    (∃ t, exec (.drawText 0#16 0#16 0#32 1#16 0#8 false 0#16)
      { running 0 with draws := { Draws.free with loads := [false] } } = .next t ∧ decide (t.code = 5#8) = true) ∧
    (∃ t, exec (.sendCmd 0x29#8) (failing 0 0) = .next t ∧ decide (t.code = 1#8) = true) ∧
    (∃ t, exec (.sendRegion 0#16 0#16 2#16 2#16) (running 6) = .next t ∧ decide (t.code = 0#8) = true) ∧
    ∃ t, exec .sendAll (failing 0 0) = .next t ∧ decide (t.code = 1#8) = true :=
  ⟨rfl, next_of_after (by decide), next_of_after (by decide), next_of_after (by decide),
    next_of_after (by decide), next_of_after (by decide)⟩
theorem witness_OperationsEndWithListedStatus :
    isHostOp (.sendCmd 0x29#8) = true ∧ ∃ t, exec (.sendCmd 0x29#8) (running 1) = .next t := ⟨rfl, _, rfl⟩
/-- An operation that changes the framebuffer, in a state that holds it. -/
theorem witness_OperationsLeaveTheHostSide :
    (∃ t, exec (.fillRegion 0#16 0#16 1#16 1#16 0x1234#16) (running 0) = .next t ∧
      decide (t.fbb ≠ (running 0).fbb) = true) ∧
    ({ running 0 with fontReady := true } : State).fontReady = true ∧
    ∀ xc y str n sp norm color, Instr.sendAll ≠ .drawText xc y str n sp norm color :=
  ⟨next_of_after (by decide), rfl, by intros; simp⟩
/-- A running fill in the reset state. -/
theorem witness_EveryStepKeepsTheInvariant :
    (running 0).Inv ∧ ∃ t, step { running 0 with curOp := 0x11#8, args := args4 0 0x00010001 0x1234 0 } = .next t :=
  ⟨⟨⟨rfl, by decide, rfl, by decide, rfl, (Config.panelCursor 0).1.isLt⟩, by decide, by decide, by decide⟩, ⟨_, rfl⟩⟩
theorem witness_SentPixelsReachThePanel :
    (∃ t, exec (.sendRegion 5#16 7#16 6#16 8#16) (running 6) = .next t ∧ decide (t.code = 0#8) = true) ∧
    ((5#16).toNat ≤ 5 ∧ 5 < (6#16).toNat ∧ (7#16).toNat ≤ 7 ∧ 7 < (8#16).toNat) ∧ 65535 < 65536 :=
  ⟨next_of_after (by decide), by decide, by decide⟩

end Sys2Proof.Tests
end

section
/-! The sequencer's turn: what it runs for each fetched entry (`runSequencer_op` has the first case), and who has the turn
while an operation runs outside reset. Settles O17. -/

namespace Sys2Proof.Machine

/-! ## What the sequencer runs -/

/-- A reserved opcode ends the operation (R59). -/
theorem runSequencer_reserved {s : State} {e : DecodeError} (hp : s.pending = [])
    (hd : decode (.hostCmd (s.curOp.setWidth 32) s.args) = .error e) : runSequencer s = .next (illegalOp s) := by
  have hf : fetch s = .reserved := by simp only [fetch, hp, hd]
  rw [runSequencer, hf]

/-- The next panel command of an INIT under way (R102; log 17). -/
theorem runSequencer_panel {s : State} {c : WireCmd} {rest : List WireCmd} {i : Instr} (hp : s.pending = c :: rest)
    (hd : decode (.panelCmd c) = .ok i) : runSequencer s = afterPanel (exec i { s with pending := rest }) := by
  have hf : fetch s = .panel i := by simp only [fetch, hp, hd]
  simp only [runSequencer, hf, hp, List.tail_cons]

/-- A pending entry that is no panel command is refused (log 17). -/
theorem runSequencer_undecodable {s : State} {c : WireCmd} {rest : List WireCmd} {e : DecodeError}
    (hp : s.pending = c :: rest) (hd : decode (.panelCmd c) = .error e) :
    runSequencer s = .refused (.pendingUndecodable c) := by
  have hf : fetch s = .undecodable c := by simp only [fetch, hp, hd]
  rw [runSequencer, hf]

/-! ## Who has the turn -/

/-- The operation runs when the host only waits (R6). -/
theorem sequencerTurn_waiting {s : State} (hr : hostReady s = false) : sequencerTurn s = some s := by
  rw [sequencerTurn, if_pos hr]

/-- With a host access to make, the draw can give the sequencer the turn (log 18). -/
theorem sequencerTurn_drawn {s : State} (hr : hostReady s = true) (ha : (drawTurn s.draws).1 = .sequencer) :
    sequencerTurn s = some { s with draws := (drawTurn s.draws).2 } := by
  simp [sequencerTurn, hr, ha]

/-- The draw gives the host the turn (log 18). -/
theorem sequencerTurn_host {s : State} (hr : hostReady s = true) (ha : (drawTurn s.draws).1 = .host) :
    sequencerTurn s = none := by
  simp [sequencerTurn, hr, ha]

/-- On the host's drawn turn the step is the host's next line (R6, R19). -/
theorem step_host {s : State} (hb : s.busy = true) (h0 : s.resetIn = false) (hr : hostReady s = true)
    (ha : (drawTurn s.draws).1 = .host) : step s = hostTurn { s with draws := (drawTurn s.draws).2 } := by
  simp [step, nextTurn, hb, h0, hr, ha]

/-! ## The step on the sequencer's turn -/

section
variable {s u : State} (hb : s.busy = true) (h0 : s.resetIn = false) (hu : sequencerTurn s = some u)
include hb h0 hu

/-- With no panel command pending, the step is the operation `CUR_OP` names (R20, R55, R59). -/
theorem step_of_no_pending (hp : s.pending = []) :
    (∀ i, decode (.hostCmd (s.curOp.setWidth 32) s.args) = .ok i → step s = exec i u) ∧
    ∀ e, decode (.hostCmd (s.curOp.setWidth 32) s.args) = .error e → step s = .next (illegalOp u) := by
  obtain ⟨hframe, hstep⟩ := sequencerTurn_step hu
  rw [hstep hb h0]
  subst hframe
  exact ⟨fun i hd => runSequencer_op hp hd, fun e hd => runSequencer_reserved hp hd⟩

/-- With a panel command pending, the step is that command, or its refusal (R102; log 17). -/
theorem step_of_pending {c : WireCmd} {rest : List WireCmd} (hp : s.pending = c :: rest) :
    (∀ i, decode (.panelCmd c) = .ok i → step s = afterPanel (exec i { u with pending := rest })) ∧
    ∀ e, decode (.panelCmd c) = .error e → step s = .refused (.pendingUndecodable c) := by
  obtain ⟨hframe, hstep⟩ := sequencerTurn_step hu
  rw [hstep hb h0]
  subst hframe
  exact ⟨fun i hd => runSequencer_panel hp hd, fun e hd => runSequencer_undecodable hp hd⟩

end

/-- Settles O17: on the sequencer's turn by what is pending, and the turn by the host's readiness and the draw. -/
theorem stepRunsTheDecodedInstruction : Obligations.StepRunsTheDecodedInstruction := by
  intro s hb h0
  refine ⟨fun u hu => ⟨?noPending, ?pending⟩, sequencerTurn_waiting, sequencerTurn_drawn, ?host⟩
  case noPending => exact step_of_no_pending hb h0 hu
  case pending => exact fun c rest hp => step_of_pending hb h0 hu hp
  case host => exact fun hr ha => ⟨sequencerTurn_host hr ha, step_host hb h0 hr ha⟩

end Sys2Proof.Machine
end

section
/-! The register interface and the window, one rule per access: writes and reads of aligned words in register space, then
reads above it. Settles O8 to O13. -/

namespace Sys2Proof.Machine

/-! ## Register writes -/

/-- A write of an aligned word in register space is a register write (R18). -/
theorem hostWrite_word (s : State) (v : Word) {k : Nat} (hk : k < 64) :
    hostWrite s (4 * k) 4 v = regWrite s (4 * k) v := by
  rw [hostWrite, if_pos (by omega), if_pos (by simp [wordOk])]

/-- In reset and while an operation runs no register write has an effect (R19, R166). -/
theorem regWrite_ignored {s : State} (h : s.resetIn = true ∨ s.busy = true) (offset : Nat) (v : Word) :
    regWrite s offset v = .next s := by
  rw [regWrite, if_pos h]

/-- Offsets above `GO` ignore writes, whatever the block does (R16, R17, R18). -/
theorem regWrite_above_go (s : State) (v : Word) {offset : Nat} (h : 0x20 < offset) : regWrite s offset v = .next s := by
  unfold regWrite
  split
  · rfl
  · rw [dif_neg (by omega), if_neg (by omega)]

/-- A write that is neither to an argument register nor to `GO` is ignored in every state. -/
theorem hostWrite_above_go (s : State) (v : Word) {k : Nat} (h9 : 9 ≤ k) (hk : k < 64) :
    hostWrite s (4 * k) 4 v = .next s := by
  rw [hostWrite_word s v hk, regWrite_above_go s v (by omega)]

theorem hostWrite_ignored {s : State} (h : s.resetIn = true ∨ s.busy = true) (v : Word) {k : Nat} (hk : k < 64) :
    hostWrite s (4 * k) 4 v = .next s := by
  rw [hostWrite_word s v hk, regWrite_ignored h]

section
variable {s : State} (h0 : s.resetIn = false) (hb : s.busy = false)
include h0 hb

/-- The argument registers of an idle block (R14). -/
theorem hostWrite_arg (v : Word) {n : Nat} (hn : n < 8) :
    hostWrite s (4 * n) 4 v = .next { s with
      args := s.args.set n v hn, argsWritten := s.argsWritten.set n true hn } := by
  have hdiv : 4 * n / 4 = n := by omega
  rw [hostWrite_word s v (by omega), regWrite, if_neg (by simp [h0, hb]), dif_pos (by omega)]
  simp only [hdiv]

/-- `GO` of an idle block (R15). -/
theorem hostWrite_go (v : Word) : hostWrite s 0x20 4 v = goWrite s v := by
  rw [show hostWrite s 0x20 4 v = regWrite s 0x20 v from hostWrite_word s v (k := 8) (by decide), regWrite,
    if_neg (by simp [h0, hb]), dif_neg (by decide), if_pos rfl]

end

/-- `GO` starts the operation when the host has done its duties (R161). -/
theorem goWrite_starts {s : State} {v : Word} (hu : s.statusUnread = false) (ha : argumentsWritten s v = true) :
    goWrite s v = .next (s.startOp v) := by
  simp [goWrite, hu, ha]

theorem goWrite_statusUnread {s : State} (v : Word) (hu : s.statusUnread = true) :
    goWrite s v = .refused .statusUnread := by
  rw [goWrite, if_pos hu]

theorem goWrite_argumentUnwritten {s : State} {v : Word} (hu : s.statusUnread = false)
    (ha : argumentsWritten s v = false) : goWrite s v = .refused (.argumentUnwritten (v.extractLsb' 0 8)) := by
  simp [goWrite, hu, ha]

/-- Some argument word of the operation is unwritten. -/
theorem argumentsWritten_eq_false {s : State} {v : Word} {i : Instr} (hd : decode (.hostCmd v s.args) = .ok i) {n : Fin 8}
    (hn : n.val < (argWords i).length) (hw : s.argsWritten[n] = false) : argumentsWritten s v = false := by
  rw [Bool.eq_false_iff]
  intro ha
  have := (argumentsWritten_iff s v).mp ha i hd n hn
  simp [hw] at this

/-- INIT_DONE falls when the `GO` write starts INIT (R171; log 3). -/
theorem startOp_initDone_ite (s : State) (v : Word) :
    (s.startOp v).initDone = if v.extractLsb' 0 8 = 0x04#8 then false else s.initDone := by
  rw [State.startOp_initDone]
  split <;> simp [*]

/-- Settles O10: each register's write rule on an idle block. -/
theorem idleRegisterWrites : Obligations.IdleRegisterWrites := by
  intro s v h0 hb
  refine ⟨fun n => hostWrite_arg h0 hb v n.isLt, fun hu ha => ?starts, fun hu => ?unread,
    fun hu ⟨i, hd, n, hn, hw⟩ => ?unwritten, fun k h9 hk => hostWrite_above_go s v h9 hk⟩
  case starts =>
    rw [hostWrite_go h0 hb, goWrite_starts hu ((argumentsWritten_iff s v).mpr ha), ← startOp_initDone_ite]
    rfl
  case unread => rw [hostWrite_go h0 hb, goWrite_statusUnread v hu]
  case unwritten => rw [hostWrite_go h0 hb, goWrite_argumentUnwritten hu (argumentsWritten_eq_false hd hn hw)]

/-! ## Register reads -/

/-- A read that the contract allows inside the map: its value joins the values read (R18, R31, R46). -/
theorem hostRead_next {s : State} {offset width : Nat} (ha : accessOk offset width = true)
    (he : offset + width ≤ BLOCK_END) :
    hostRead s offset width = .next { s with
      draws := (readValue s offset width).2, reads := s.reads ++ [(readValue s offset width).1],
      statusUnread := s.statusUnread && !showsStatus s offset } := by
  rw [hostRead, if_neg (by simp [ha]), if_neg (by omega)]

theorem accessOk_word {k : Nat} (hk : k < 64) : accessOk (4 * k) 4 = true := by
  rw [accessOk, if_pos (by omega)]
  simp [wordOk]

/-- A read of a register other than `STATUS` draws nothing and shows no status (R14, R15, R17, R18). -/
theorem hostRead_reg (s : State) {k : Nat} (hk : k < 64) (h9 : k ≠ 9) :
    hostRead s (4 * k) 4 = .next { s with reads := s.reads ++ [regRead s (4 * k)] } := by
  have hne : 4 * k ≠ 0x24 := by omega
  have hv : readValue s (4 * k) 4 = (regRead s (4 * k), s.draws) := by
    rw [readValue, if_pos (by omega), if_neg (fun h => hne h.2)]
  rw [hostRead_next (accessOk_word hk) (by simp only [BLOCK_END]; omega), hv]
  simp [showsStatus, hne]

/-- `STATUS` outside reset (R16); on an idle block the last status has been shown (R151; log 32). -/
theorem hostRead_status {s : State} (h0 : s.resetIn = false) :
    hostRead s 0x24 4 = .next { s with
      reads := s.reads ++ [statusWord s], statusUnread := s.statusUnread && s.busy } := by
  have hv : readValue s 0x24 4 = (statusWord s, s.draws) := by simp [readValue, regRead, h0]
  rw [hostRead_next (by decide) (by decide), hv]
  simp [showsStatus, h0]

/-- `STATUS` in reset is a free value (R166, U5). -/
theorem hostRead_status_reset {s : State} (h0 : s.resetIn = true) :
    hostRead s 0x24 4 = .next { s with
      reads := s.reads ++ [(drawWord s.draws).1], draws := (drawWord s.draws).2 } := by
  have hv : readValue s 0x24 4 = drawWord s.draws := by simp [readValue, h0]
  rw [hostRead_next (by decide) (by decide), hv]
  simp [showsStatus, h0]

theorem regRead_arg (s : State) (n : Fin 8) : regRead s (4 * n.val) = s.args[n] := by
  have hdiv : 4 * n.val / 4 = n.val := by omega
  rw [regRead, dif_pos (by omega)]
  simp only [hdiv, Fin.getElem_fin]

theorem regRead_reserved (s : State) {k : Nat} (h11 : 11 ≤ k) : regRead s (4 * k) = 0#32 := by
  rw [regRead, dif_neg (by omega), if_neg (by omega), if_neg (by omega)]

/-- `ERR_INFO` (R17). -/
theorem hostRead_errInfo (s : State) : hostRead s 0x28 4 = .next { s with reads := s.reads ++ [s.errInfo] } :=
  hostRead_reg s (k := 10) (by decide) (by decide)

/-- Settles O9: each register's read rule. -/
theorem registerReads : Obligations.RegisterReads := by
  intro s
  refine ⟨fun n => ?arg, hostRead_reg s (k := 8) (by decide) (by decide), hostRead_status, hostRead_errInfo s,
    fun k h11 hk => ?reserved⟩
  case arg => rw [hostRead_reg s (by omega) (by omega), regRead_arg]
  case reserved => rw [hostRead_reg s hk (by omega), regRead_reserved s h11]

/-- Settles O11: while an operation runs register writes are ignored, and the reads are those of any state outside reset. -/
theorem busyWritesAreIgnored : Obligations.BusyWritesAreIgnored := by
  intro s v hb
  refine ⟨fun n => hostWrite_ignored (.inr hb) v (by omega), hostWrite_ignored (.inr hb) v (k := 8) (by decide),
    fun h0 => ⟨?_, hostRead_errInfo s⟩⟩
  rw [hostRead_status h0, hb, Bool.and_true]

/-! ## The STATUS word -/

/-- The fields of `STATUS` above its six flags (R16). -/
theorem statusWord_above_flags (s : State) (k w : Nat) :
    (statusWord s).extractLsb' (k + 6) w = (s.lastOpc ++ s.sub ++ s.code ++ 0#2).extractLsb' k w := by
  have above : ∀ (n j : Nat) (a : BitVec n) (b : Bool),
      (a ++ BitVec.ofBool b).extractLsb' (j + 1) w = a.extractLsb' j w := by
    intro n j a b
    rw [Nat.add_comm j 1]
    exact extract_append_high a (BitVec.ofBool b)
  unfold statusWord
  rw [above _ (k + 5), above _ (k + 4), above _ (k + 3), above _ (k + 2), above _ (k + 1), above _ k]

/-- The reserved bits and the three status bytes (R16). -/
theorem statusWord_fields (s : State) :
    (statusWord s).extractLsb' 6 2 = 0#2 ∧ (statusWord s).extractLsb' 8 8 = s.code ∧
    (statusWord s).extractLsb' 16 8 = s.sub ∧ (statusWord s).extractLsb' 24 8 = s.lastOpc := by
  refine ⟨?_, ?_, ?_, ?_⟩
  · rw [statusWord_above_flags s 0, extract_append_low _ _ (by decide), extract_whole]
  · rw [statusWord_above_flags s 2]
    exact (extract_append_high (k := 0) _ 0#2).trans ((extract_append_low _ s.code (by decide)).trans (extract_whole _))
  · rw [statusWord_above_flags s 10]
    exact (extract_append_high (k := 8) _ 0#2).trans ((extract_append_high (k := 0) _ s.code).trans
      ((extract_append_low _ s.sub (by decide)).trans (extract_whole _)))
  · rw [statusWord_above_flags s 18]
    exact (extract_append_high (k := 16) _ 0#2).trans ((extract_append_high (k := 8) _ s.code).trans
      ((extract_append_high (k := 0) s.lastOpc s.sub).trans (extract_whole _)))

/-- Settles O8: the flags, the fields above them, and the write rule above `GO`. -/
theorem statusWordLayout : Obligations.StatusWordLayout := by
  refine ⟨fun s => ?_, by decide, fun s v => hostWrite_above_go s v (k := 9) (by decide) (by decide)⟩
  obtain ⟨hinit, hfont, hdc, hrst, hcs⟩ := statusWord_bits s
  exact ⟨statusWord_busy s, hinit, hfont, hdc, hrst, hcs, statusWord_fields s⟩

/-! ## The hole and the window -/

/-- Writes above register space are ignored in every width (R31, R47). -/
theorem hostWrite_map (s : State) (v : Word) {offset width : Nat} (h : 0x100 ≤ offset)
    (he : offset + width ≤ BLOCK_END) : hostWrite s offset width v = .next s := by
  rw [hostWrite, if_neg (by omega), if_neg (by omega)]

section
variable {offset width : Nat} (h : 0x100 ≤ offset) (hw : width = 1 ∨ width = 2 ∨ width = 4)
include h hw

theorem accessOk_map : accessOk offset width = true := by
  rw [accessOk, if_neg (by omega)]
  rcases hw with rfl | rfl | rfl <;> rfl

/-- A read of the hole or the window: its value and its draws (R31, R47). -/
theorem hostRead_map (s : State) (he : offset + width ≤ BLOCK_END) :
    hostRead s offset width = .next { s with
      reads := s.reads ++ [(readValue s offset width).1], draws := (readValue s offset width).2 } := by
  have hne : offset ≠ 0x24 := by omega
  rw [hostRead_next (accessOk_map h hw) he]
  simp [showsStatus, hne]

omit hw in
/-- A draw is taken for a framebuffer byte read while an operation runs, and for nothing else (R31, U4; log 21). -/
theorem readValue_map_draws (s : State) :
    (readValue s offset width).2 =
      if s.busy ∧ touchesFrame offset width then (drawWord s.draws).2 else s.draws := by
  rw [readValue, if_neg (by omega)]
  split <;> rfl

omit hw in
/-- Byte `k` of a read of the hole or the window: each byte by its own rule, the draw's byte where it is unspecified. -/
theorem readValue_map_byte (s : State) {k : Nat} (hk : k < width) (h4 : k < 4) :
    (readValue s offset width).1.extractLsb' (8 * k) 8 =
      mapByte s ((drawWord s.draws).1.extractLsb' (8 * k) 8) (offset + k) := by
  rw [readValue, if_neg (by omega)]
  split
  · rw [windowRead_byte _ _ _ _ _ h4, if_pos hk]
  · rename_i hfree
    rw [windowRead_byte _ _ _ _ _ h4, if_pos hk]
    simp only [mapByte, windowByte]
    split
    · rfl
    · split
      · rename_i hhole hframe
        have ht : touchesFrame offset width = true := by
          simp only [touchesFrame, FBWIN_BASE, Config.FB_BYTES, Bool.and_eq_true, decide_eq_true_eq] at *
          omega
        rw [if_neg fun hb => hfree ⟨hb, ht⟩, if_neg fun hb => hfree ⟨hb, ht⟩]
      · rfl

omit hw in
/-- The bytes past the width are 0. -/
theorem readValue_map_rest (s : State) {k : Nat} (hk : width ≤ k) (h4 : k < 4) :
    (readValue s offset width).1.extractLsb' (8 * k) 8 = 0#8 := by
  rw [readValue, if_neg (by omega)]
  split <;> rw [windowRead_byte _ _ _ _ _ h4, if_neg (by omega)]

end

/-- A word whose four bytes are 0. -/
theorem word_eq_zero {w : Word} (h : ∀ k < 4, w.extractLsb' (8 * k) 8 = 0#8) : w = 0#32 := by
  apply BitVec.eq_of_getLsbD_eq
  intro i hi
  have hbit := congrArg (BitVec.getLsbD · (i % 8)) (h (i / 8) (by omega))
  have hmod : i % 8 < 8 := Nat.mod_lt i (by decide)
  simpa [hmod, Nat.div_add_mod] using hbit

/-- Settles O12: the window's bytes by the rules of a read above register space. -/
theorem framebufferWindow : Obligations.FramebufferWindow := by
  intro s a width v hw he
  have hreg : 0x100 ≤ 0x40000 + a := by omega
  have hend : 0x40000 + a + width ≤ BLOCK_END := by simp only [BLOCK_END]; omega
  have hframe : touchesFrame (0x40000 + a) width = true ↔ a < 153600 := by
    simp only [touchesFrame, FBWIN_BASE, Config.FB_BYTES, Bool.and_eq_true, decide_eq_true_eq]
    omega
  have hbyte : ∀ free k, mapByte s free (0x40000 + a + k) = windowByte s free (a + k) := by
    intro free k
    have hoff : 0x40000 + a + k - FBWIN_BASE = a + k := by simp only [FBWIN_BASE]; omega
    rw [mapByte, if_neg (by simp only [FBWIN_BASE]; omega), hoff]
  refine ⟨hostWrite_map s v hreg hend, _, _, hostRead_map hreg hw s hend, fun hb => ⟨?idleDraws, fun k hk => ?idleByte⟩,
    fun hb => ⟨?busyDraws, fun k hk => ?busyByte⟩, fun k hk h4 => readValue_map_rest hreg s hk h4⟩
  case idleDraws => rw [readValue_map_draws hreg, hb, if_neg (by simp)]
  case idleByte =>
    rw [readValue_map_byte hreg s hk (by omega), hbyte, windowByte, hb]
    rfl
  case busyDraws => simp only [readValue_map_draws hreg, hb, hframe, true_and]
  case busyByte =>
    rw [readValue_map_byte hreg s hk (by omega), hbyte, windowByte, hb]
    rfl

/-- Nothing in the hole but zeros (R47). -/
theorem readValue_hole (s : State) {offset width : Nat} (h : 0x100 ≤ offset) (he : offset + width ≤ FBWIN_BASE) :
    readValue s offset width = (0#32, s.draws) := by
  have hframe : touchesFrame offset width = false := by
    rw [touchesFrame, Bool.and_eq_false_iff]
    exact .inl (decide_eq_false (by omega))
  refine Prod.ext (word_eq_zero fun k h4 => ?_) ?_
  · by_cases hk : k < width
    · rw [readValue_map_byte h s hk h4, mapByte, if_pos (by omega)]
    · exact readValue_map_rest h s (by omega) h4
  · rw [readValue_map_draws h, hframe, if_neg (by simp)]

/-- A read across the hole's end, each byte by its own rule (log 21). -/
theorem hostRead_straddle (s : State) {offset width : Nat} (h : 0x100 ≤ offset) (hw : width = 1 ∨ width = 2 ∨ width = 4)
    (ho : offset < 0x40000) (he : 0x40000 < offset + width) :
    ∃ w, hostRead s offset width = .next { s with
        reads := s.reads ++ [w], draws := if s.busy then (drawWord s.draws).2 else s.draws } ∧
      (∀ k, k < width → w.extractLsb' (8 * k) 8 =
        if offset + k < 0x40000 then 0#8
        else if s.busy then (drawWord s.draws).1.extractLsb' (8 * k) 8 else fbByte s (offset + k - 0x40000)) ∧
      ∀ k, width ≤ k → k < 4 → w.extractLsb' (8 * k) 8 = 0#8 := by
  have hframe : touchesFrame offset width = true := by
    simp only [touchesFrame, FBWIN_BASE, Config.FB_BYTES, Bool.and_eq_true, decide_eq_true_eq]
    omega
  refine ⟨_, ?_, fun k hk => ?_, fun k hk h4 => readValue_map_rest h s hk h4⟩
  · rw [hostRead_map h hw s (by simp only [BLOCK_END]; omega), readValue_map_draws h, hframe]
    simp only [and_true]
  · rw [readValue_map_byte h s hk (by omega), mapByte, windowByte]
    simp only [FBWIN_BASE, Config.FB_BYTES, show offset + k - 0x40000 < 153600 by omega, if_true]

section
variable (s : State) {offset width : Nat}

/-- A register access of another width or alignment (R18, R44). -/
theorem registerAccess_refused (v : Word) (h : offset < 0x100) (hf : width ≠ 4 ∨ offset % 4 ≠ 0) :
    hostWrite s offset width v = .refused (.accessForm offset width) ∧
    hostRead s offset width = .refused (.accessForm offset width) := by
  have hword : wordOk offset width = false := by
    rw [wordOk, Bool.and_eq_false_iff]
    exact hf.imp decide_eq_false decide_eq_false
  have haccess : accessOk offset width = false := by rw [accessOk, if_pos h, hword]
  exact ⟨by rw [hostWrite, if_pos h, if_neg (by simp [hword])], by rw [hostRead, if_pos haccess]⟩

/-- A write past the block's map (log 21). -/
theorem hostWrite_outside (v : Word) (h : 0x100 ≤ offset) (he : BLOCK_END < offset + width) :
    hostWrite s offset width v = .fault (.outsideBlock offset) := by
  rw [hostWrite, if_neg (by omega), if_pos he]

/-- A read past the block's map (log 21). -/
theorem hostRead_outside (h : 0x100 ≤ offset) (hw : width = 1 ∨ width = 2 ∨ width = 4)
    (he : BLOCK_END < offset + width) : hostRead s offset width = .fault (.outsideBlock offset) := by
  rw [hostRead, if_neg (by simp [accessOk_map h hw]), if_pos he]

/-- A read above register space in a width no rule gives (log 21). -/
theorem hostRead_width (h : 0x100 ≤ offset) (h1 : width ≠ 1) (h2 : width ≠ 2) (h4 : width ≠ 4) :
    hostRead s offset width = .refused (.accessForm offset width) := by
  have haccess : accessOk offset width = false := by
    rw [accessOk, if_neg (by omega)]
    simp [h1, h2, h4]
  rw [hostRead, if_pos haccess]

end

/-- Settles O13: one rule for each kind of access. -/
theorem accessesOutsideTheContract : Obligations.AccessesOutsideTheContract := by
  intro s off width v
  refine ⟨registerAccess_refused s v, hostWrite_map s v, hostWrite_outside s v, fun h hw he => ?hole, hostRead_straddle s,
    hostRead_outside s, hostRead_width s⟩
  case hole => rw [hostRead_map h hw s (by simp only [BLOCK_END]; omega), readValue_hole s h he]

end Sys2Proof.Machine
end

section
/-! The reset's values and its edges: R34's table, and a block in reset. Settles O7 and O16. -/

namespace Sys2Proof.Machine

/-- Settles O7: nothing is written at reset, so every unspecified byte reads as its draw. -/
theorem resetLeavesTheTableValues : Obligations.ResetLeavesTheTableValues := by
  refine ⟨fun n => ?_, rfl, rfl, rfl, rfl, rfl, rfl, rfl, rfl, rfl, rfl, rfl, rfl, fun a => rfl, fun a => rfl, rfl, rfl⟩
  exact Vector.getElem_replicate n.isLt

/-- The step that takes the release of an asserted reset (R166). -/
theorem step_releaseReset {s : State} (rest : List HostOp) (h : s.resetIn = true) :
    step { s with host := .releaseReset :: rest } =
      .next ({ s with host := rest, awaiting := false } : State).blockReset := by
  rw [step, nextTurn_reset (s := { s with host := .releaseReset :: rest }) h]
  simp [hostTurn, hostAct, releaseReset, h]

/-- Settles O16: writes are ignored in reset, `STATUS` is drawn, and the release gives the reset values. -/
theorem platformReset : Obligations.PlatformReset := by
  intro s rest h
  exact ⟨fun n v => hostWrite_ignored (.inl h) v (by omega),
    fun v => hostWrite_ignored (.inl h) v (k := 8) (by decide),
    hostRead_status_reset h, _, step_releaseReset rest h, rfl⟩

end Sys2Proof.Machine
end

section
/-! The lines of an operation mnemonic, run on an idle block: the argument writes leave the operation's words in the
argument registers, and the `GO` write starts it. Settles O6. -/

namespace Sys2Proof.Machine

/-! ## What the operation reads -/

/-- The argument registers hold the words `ws` from `ARG[n]` up, the places that `argLines n ws` writes. -/
def HoldsFrom (a : Vector Word 8) : Nat → List Word → Prop
  | _, [] => True
  | n, w :: ws => a[n]? = some w ∧ HoldsFrom a (n + 1) ws

/-- A host operation's opcode on its own argument words, whatever the other registers hold (R56, R57, R58). -/
theorem decodeHost_of_holds {i : Instr} {a : Vector Word 8} (hi : isHostOp i = true) (ha : HoldsFrom a 0 (argWords i)) :
    decodeHost (opcodeOf i) a = .ok i := by
  cases i with
  | init => rfl
  | sendAll => rfl
  | drawText xc y str n sp norm color =>
    obtain ⟨hn, hsp, hnorm⟩ := text_word_fields norm sp n
    simp only [HoldsFrom, argWords, Nat.reduceAdd, Nat.reduceLT, Vector.getElem?_eq_getElem, Option.some.injEq] at ha
    simp only [decodeHost, opcodeOf, ha, loHalf_packYX, hiHalf_packYX, loHalf_setWidth, hn, hsp, hnorm]
    rfl
  | xferBytes | sendCmd | sendData | fillAll | fillRegion | blit | sendRegion =>
    simp only [HoldsFrom, argWords, Nat.reduceAdd, Nat.reduceLT, Vector.getElem?_eq_getElem, Option.some.injEq] at ha
    simp only [decodeHost, opcodeOf, ha, loHalf_packYX, hiHalf_packYX, loHalf_setWidth, byte_of_word]
    rfl
  | _ => cases hi

theorem argWords_length_le (i : Instr) : (argWords i).length ≤ 8 := by
  cases i <;> simp [argWords]

/-! ## The argument writes -/

/-- On an idle block the host has the turn (R6). -/
theorem step_idle {s : State} (hb : s.busy = false) : step s = hostTurn s := by
  rw [step, nextTurn, if_pos (.inr hb)]

theorem stepsFrom_succ {s t : State} (h : step s = .next t) (m : Nat) : stepsFrom (m + 1) s = stepsFrom m t := by
  rw [stepsFrom, h]

/-- From `s` to `t` the words `ws` were written from `ARG[n]` up, and nothing else but the host's queue changed. -/
structure ArgsStored (n : Nat) (ws : List Word) (s t : State) : Prop where
  frame : t = { s with args := t.args, argsWritten := t.argsWritten, host := t.host, awaiting := t.awaiting }
  below : ∀ k < n, t.args[k]? = s.args[k]? ∧ t.argsWritten[k]? = s.argsWritten[k]?
  holds : HoldsFrom t.args n ws
  written : ∀ k, n ≤ k → k < n + ws.length → t.argsWritten[k]? = some true

theorem ArgsStored.fields {n : Nat} {ws : List Word} {s t : State} (h : ArgsStored n ws s t) :
    t.busy = s.busy ∧ t.resetIn = s.resetIn ∧ t.pending = s.pending ∧ t.statusUnread = s.statusUnread ∧
    t.fbb = s.fbb ∧ t.hmem = s.hmem ∧ t.trace = s.trace := by
  rw [h.frame]
  exact ⟨rfl, rfl, rfl, rfl, rfl, rfl, rfl⟩

/-- One argument line on an idle block (R14). -/
theorem step_writeArg {s : State} {n : Nat} {w : Word} {rest : List HostOp} (h0 : s.resetIn = false)
    (hb : s.busy = false) (hn : n < 8) (hh : s.host = writeArg n w :: rest) :
    step s = .next { s with
      host := rest, awaiting := false, args := s.args.set n w hn, argsWritten := s.argsWritten.set n true hn } := by
  rw [step_idle hb, hostTurn, hh]
  exact hostWrite_arg (s := { s with host := rest, awaiting := false }) h0 hb w hn

/-- The argument lines run to their end, one step each (R61). -/
theorem argLines_run (ws : List Word) (rest : List HostOp) :
    ∀ (n : Nat) (s : State), n + ws.length ≤ 8 → s.resetIn = false → s.busy = false →
      s.host = argLines n ws ++ rest →
      ∃ t, ArgsStored n ws s t ∧ t.host = rest ∧ ∀ m, stepsFrom (ws.length + m) s = stepsFrom m t := by
  induction ws with
  | nil =>
    intro n s _ _ _ hh
    exact ⟨s, ⟨rfl, fun _ _ => ⟨rfl, rfl⟩, trivial, fun k h1 h2 => absurd h2 (by simpa using h1)⟩, hh,
      fun m => by rw [List.length_nil, Nat.zero_add]⟩
  | cons w ws ih =>
    intro n s hlen h0 hb hh
    rw [List.length_cons] at hlen
    have hn : n < 8 := by omega
    have hstep := step_writeArg (rest := argLines (n + 1) ws ++ rest) h0 hb hn hh
    obtain ⟨t, ht, hrest, hrun⟩ := ih (n + 1)
      { s with
        host := argLines (n + 1) ws ++ rest, awaiting := false,
        args := s.args.set n w hn, argsWritten := s.argsWritten.set n true hn } (by omega) h0 hb rfl
    obtain ⟨hargs, hwritten⟩ := ht.below n (by omega)
    refine ⟨t, ⟨ht.frame, fun k hk => ?below, ⟨?word, ht.holds⟩, fun k h1 h2 => ?written⟩, hrest, fun m => ?run⟩
    case below =>
      obtain ⟨ha, hw⟩ := ht.below k (by omega)
      have hne : n ≠ k := by omega
      exact ⟨ha.trans (by simp [hne]), hw.trans (by simp [hne])⟩
    case word => rw [hargs]; simp
    case written =>
      rw [List.length_cons] at h2
      by_cases hk : k = n
      · subst hk; rw [hwritten]; simp
      · exact ht.written k (by omega) (by omega)
    case run => rw [← hrun m, List.length_cons, Nat.add_right_comm]; exact stepsFrom_succ hstep _

/-! ## The `GO` write -/

/-- After the argument lines every word of the operation counts as written (R161). -/
theorem ArgsStored.argumentsWritten {i : Instr} {s t : State} (h : ArgsStored 0 (argWords i) s t) {v : Word}
    (hd : decode (.hostCmd v t.args) = .ok i) : argumentsWritten t v = true := by
  refine (argumentsWritten_iff t v).mpr fun j hj n hn => ?_
  obtain rfl : i = j := Except.ok.inj (hd.symm.trans hj)
  have := h.written n.val (Nat.zero_le _) (by omega)
  rw [Vector.getElem?_eq_getElem n.isLt, Option.some.injEq] at this
  exact this

/-- The `GO` line on an idle block whose host has done its duties (R15, R161). -/
theorem step_writeGo {s : State} {opc : Byte} {rest : List HostOp} (h0 : s.resetIn = false) (hb : s.busy = false)
    (hu : s.statusUnread = false) (ha : argumentsWritten s (opc.setWidth 32) = true)
    (hh : s.host = writeGo opc :: rest) :
    step s = .next (({ s with host := rest, awaiting := false } : State).startOp (opc.setWidth 32)) := by
  rw [step_idle hb, hostTurn, hh]
  refine (hostWrite_go (s := { s with host := rest, awaiting := false }) h0 hb _).trans ?_
  exact goWrite_starts (s := { s with host := rest, awaiting := false }) hu ha

/-- A started operation is the next step while the host polls (R55; log 3, log 18). -/
theorem step_of_polling {i : Instr} {s : State} {rest : List HostOp} (hb : s.busy = true) (h0 : s.resetIn = false)
    (hp : s.pending = []) (hh : s.host = .poll :: rest)
    (hd : decode (.hostCmd (s.curOp.setWidth 32) s.args) = .ok i) : step s = exec i s := by
  have hr : hostReady s = false := by rw [hostReady, hh]
  obtain ⟨hop, -⟩ := step_of_no_pending hb h0 (sequencerTurn_waiting hr) hp
  exact hop i hd

/-- Settles O6: the argument lines, the `GO` line, and the step after them. -/
theorem assembledLinesRunTheirOperation : Obligations.AssembledLinesRunTheirOperation := by
  intro i s hi hb h0 hp hu
  have hlines : assemble i = argLines 0 (argWords i) ++ [writeGo (opcodeOf i), .poll] := by rw [assemble, if_pos hi]
  obtain ⟨t, hst, hhost, hrun⟩ := argLines_run (argWords i) [writeGo (opcodeOf i), .poll] 0
    { s with host := assemble i } (by simpa using argWords_length_le i) h0 hb hlines
  obtain ⟨fb, f0, fp, fu, hfbb, hhmem, htrace⟩ := hst.fields
  have hdecode : decode (.hostCmd ((opcodeOf i).setWidth 32) t.args) = .ok i := by
    rw [decode, byte_of_word, decodeHost_of_holds hi hst.holds]
  have hstep := step_writeGo (f0.trans h0) (fb.trans hb) (fu.trans hu) (hst.argumentsWritten hdecode) hhost
  refine ⟨_, (hrun 1).trans (stepsFrom_succ hstep 0), rfl, rfl, hfbb, hhmem, htrace,
    step_of_polling rfl (f0.trans h0) (fp.trans hp) rfl ?_⟩
  simpa using hdecode

end Sys2Proof.Machine
end

section
/-! What every instruction leaves unchanged and how it leaves the lines, by its ending (`exec_cases`). Settles O27, O34 and
O55. -/

namespace Sys2Proof.Machine

/-! ## The frame of an instruction -/

/-- Every field that no instruction writes agrees in the two states (R14, R20, R22, R23, R39, R41). -/
def InstrFrame (s t : State) : Prop :=
  t = { s with
    busy := t.busy, initDone := t.initDone, fontReady := t.fontReady, code := t.code, sub := t.sub, errInfo := t.errInfo,
    dc := t.dc, cs := t.cs, rst := t.rst, inflight := t.inflight, fbb := t.fbb, scr := t.scr, scrHeld := t.scrHeld,
    ci := t.ci, trace := t.trace, panel := t.panel, pending := t.pending, draws := t.draws }

theorem InstrFrame.trans {s t u : State} (h : InstrFrame s t) (g : InstrFrame t u) : InstrFrame s u := by
  unfold InstrFrame at *
  rw [h] at g
  exact g

/-- From `s` to `t` no pixel was stored and no font loaded: the frame holds, and resting lines and the observer's form are
kept. -/
structure Unpainted (s t : State) : Prop where
  frame : InstrFrame s t
  fontReady : t.fontReady = s.fontReady
  fbb : t.fbb = s.fbb
  lines : s.resting → t.resting
  panel : s.panel.Ok → t.panel.Ok

theorem Unpainted.trans {s t u : State} (h : Unpainted s t) (g : Unpainted t u) : Unpainted s u where
  frame := h.frame.trans g.frame
  fontReady := g.fontReady.trans h.fontReady
  fbb := g.fbb.trans h.fbb
  lines := fun hs => g.lines (h.lines hs)
  panel := fun hs => g.panel (h.panel hs)

theorem Issues.instrFrame {s : State} {r : Ran} (h : Issues s r) : InstrFrame s r.2 := by
  have hf := h.frame
  unfold InstrFrame
  rw [hf]

theorem Issues.resting {s : State} {r : Ran} (h : Issues s r) (hs : s.resting) : r.2.resting := by
  obtain ⟨hdc, hcs, hrst, hin⟩ := hs
  obtain ⟨hdc', hcs', hin'⟩ := h.quiet ⟨hdc, hcs, hin⟩
  refine ⟨hdc', hcs', ?_, hin'⟩
  rw [h.frame]
  exact hrst

/-- A procedure over the bus paints nothing. -/
theorem Issues.unpainted {s : State} {r : Ran} (h : Issues s r) : Unpainted s r.2 where
  frame := h.instrFrame
  fontReady := by rw [h.frame]
  fbb := by rw [h.frame]
  lines := h.resting
  panel := h.panel

theorem endWith_unpainted (r : Ran) : Unpainted r.2 (endWith r) := by
  obtain ⟨_ | e, t⟩ := r <;> exact ⟨rfl, rfl, rfl, id, id⟩

theorem goOn_unpainted (r : Ran) : Unpainted r.2 (goOn r) := by
  obtain ⟨_ | e, t⟩ := r
  · exact ⟨rfl, rfl, rfl, id, id⟩
  · exact ⟨rfl, rfl, rfl, id, fun _ => Panel.unknown_ok _⟩

theorem endInit_unpainted (r : Ran) : Unpainted r.2 (endInit r) := by
  obtain ⟨_ | e, t⟩ := r
  · exact ⟨rfl, rfl, rfl, id, id⟩
  · exact ⟨rfl, rfl, rfl, id, fun _ => Panel.unknown_ok _⟩

/-- INIT's reset pulse ends with `RST` at 1 (R102). -/
theorem resetPulse_unpainted (s : State) : Unpainted s (resetPulse s) := by
  obtain ⟨new, h, -⟩ := resetPulse_spec s
  rw [h]
  exact ⟨rfl, rfl, rfl, fun ⟨hdc, hcs, _, hin⟩ => ⟨hdc, hcs, rfl, hin⟩, id⟩

/-- INIT as a whole (R102). -/
theorem init_unpainted (s : State) (cs : List WireCmd) : Unpainted s (endInit (emitAll cs (resetPulse s))) :=
  ((resetPulse_unpainted s).trans (emitAll_issues cs _).unpainted).trans (endInit_unpainted _)

/-- An instruction paints nothing and loads no font, or it changes the framebuffer, the font flag and the draws and ends
with a status (R150). -/
theorem exec_unpainted_or_ends {i : Instr} {s t : State} (h : exec i s = .next t) :
    Unpainted s t ∨ ∃ (m : Mem) (f : Bool) (d : Draws) (c u : Byte) (w : Word),
      t = ({ s with fbb := m, fontReady := f, draws := d } : State).endOp c u w ∧ FontStep i s f ∧
      (s.fbOk → State.fbOk { s with fbb := m }) ∧ (m = s.fbb ∨ Paints i) := by
  cases exec_cases h with
  | early e f d _ _ _ hf _ ht => exact .inr ⟨s.fbb, f, d, e.code, e.sub, e.info, ht, hf, id, .inl rfl⟩
  | painted m f d _ hp hf hm ht => exact .inr ⟨m, f, d, _, _, _, ht, hf, hm, .inr hp⟩
  | bus r _ _ _ hr ht => exact .inl (ht ▸ hr.unpainted.trans (endWith_unpainted r))
  | init _ _ ht => exact .inl (ht ▸ init_unpainted s _)
  | panel r _ hr _ ht => exact .inl (ht ▸ hr.unpainted.trans (goOn_unpainted r))

/-- No instruction writes outside the frame. -/
theorem exec_frame {i : Instr} {s t : State} (h : exec i s = .next t) : InstrFrame s t := by
  rcases exec_unpainted_or_ends h with hu | ⟨m, f, d, c, u, w, rfl, -⟩
  · exact hu.frame
  · rfl

/-- The font flag rises in DRAW_TEXT only, and never falls (R22). -/
theorem exec_fontStep {i : Instr} {s t : State} (h : exec i s = .next t) : FontStep i s t.fontReady := by
  rcases exec_unpainted_or_ends h with hu | ⟨m, f, d, c, u, w, rfl, hf, -⟩
  · rw [hu.fontReady]; exact fontStep_same i s
  · exact hf

/-- Only the painting instructions change the framebuffer (R48, R122). -/
theorem exec_fbb {i : Instr} {s t : State} (h : exec i s = .next t) : t.fbb = s.fbb ∨ Paints i := by
  rcases exec_unpainted_or_ends h with hu | ⟨m, f, d, c, u, w, rfl, -, -, hm⟩
  · exact .inl hu.fbb
  · exact hm

/-- Every instruction leaves resting lines at rest (R24, R25, R78). -/
theorem exec_resting {i : Instr} {s t : State} (hs : s.resting) (h : exec i s = .next t) : t.resting := by
  rcases exec_unpainted_or_ends h with hu | ⟨m, f, d, c, u, w, rfl, -⟩
  · exact hu.lines hs
  · exact hs

/-- Settles O27: each ending of an instruction keeps the lines at rest. -/
theorem linesRestAfterEveryOperation : Obligations.LinesRestAfterEveryOperation :=
  fun _ _ _ => exec_resting

/-- Settles O55: the frame of an instruction, the font flag's step and who paints. -/
theorem operationsLeaveTheHostSide : Obligations.OperationsLeaveTheHostSide := by
  intro i s t h
  obtain ⟨hup, hother⟩ := exec_fontStep h
  have hfb : t.fbb ≠ s.fbb → Paints i := (exec_fbb h).resolve_left
  have hf := exec_frame h
  unfold InstrFrame at hf
  rw [hf]
  exact ⟨rfl, rfl, rfl, rfl, rfl, rfl, rfl, rfl, rfl, rfl, rfl, rfl, rfl, hup, hother, hfb⟩

/-! ## INIT_DONE -/

theorem endWith_initDone (r : Ran) : (endWith r).initDone = r.2.initDone := by
  obtain ⟨_ | e, t⟩ := r <;> rfl

theorem goOn_initDone (r : Ran) : (goOn r).initDone = r.2.initDone := by
  obtain ⟨_ | e, t⟩ := r <;> rfl

/-- The only error of a run of acts is BUS_FAIL (R79). -/
theorem runActs_error (acts : List Act) :
    ∀ s : State, (runActs acts s).1 = none ∨ (runActs acts s).1 = some errBusFail := by
  induction acts with
  | nil => exact fun _ => .inl rfl
  | cons x acts ih =>
    intro s
    cases x with
    | mark e => exact ih _
    | txn dc L =>
      simp only [runActs]
      split
      · exact ih _
      · exact .inr rfl

/-- After a transaction `DC` is at 1 (R78). -/
theorem runActs_dc (acts : List Act) :
    ∀ s : State, s.dc = true ∨ (∃ dc L, Act.txn dc L ∈ acts) → (runActs acts s).2.dc = true := by
  induction acts with
  | nil => rintro s (h | ⟨dc, L, h⟩); exacts [h, absurd h List.not_mem_nil]
  | cons x acts ih =>
    intro s h
    cases x with
    | mark e => exact ih _ (h.imp_right fun ⟨dc, L, hm⟩ => ⟨dc, L, by simpa using hm⟩)
    | txn dc L =>
      simp only [runActs]
      split
      · exact ih _ (.inl rfl)
      · rfl

/-- INIT's commands fit their transactions when its check passes (R101 (b)). -/
theorem initCommands_fit {p : Params} (h : initTableOk p = true) :
    ∀ c ∈ initCommands p, c.payload.length ≤ p.maxXfer := by
  intro c hc
  rcases List.mem_append.mp hc with hc | hc
  · exact (initTableOk_entry h hc).2.1
  · simp only [List.mem_cons, List.not_mem_nil, or_false] at hc
    rcases hc with rfl | rfl <;> exact Nat.zero_le _

/-- Every INIT sends SLEEP_OUT's command byte at least (R102). -/
theorem initCommands_sends (p q : Params) : ∃ dc L, Act.txn dc L ∈ (initCommands p).flatMap (initCommandActs q) :=
  ⟨false, [0x11#8], List.mem_flatMap.mpr
    ⟨⟨0x11#8, []⟩, by simp [initCommands], by simp [initCommandActs, commandActs]⟩⟩

/-- The run of INIT after its pulse ends OK or with BUS_FAIL, with `DC` at 1, no earlier epoch of the panel, and every field
but those of its transactions as the pulse left it (R102). -/
theorem initRun_cases {s : State} (h : initTableOk s.cfg = true) :
    ∃ r : Ran, emitAll (initCommands s.cfg) (resetPulse s) = r ∧ (r.1 = none ∨ r.1 = some errBusFail) ∧ r.2.dc = true ∧
      r.2.rst = true ∧ r.2.initDone = false ∧ s.panel.epoch ≤ r.2.panel.epoch := by
  obtain ⟨new, hp, -⟩ := resetPulse_spec s
  have hcfg : (resetPulse s).cfg = s.cfg := by rw [hp]
  obtain ⟨p, hr⟩ := emitAll_eq (initCommands s.cfg) (resetPulse s) (by rw [hcfg]; exact initCommands_fit h)
  generalize hacts : (initCommands s.cfg).flatMap (initCommandActs (resetPulse s).cfg) = acts at hr
  have hdc : (runActs acts (resetPulse s)).2.dc = true :=
    runActs_dc acts _ (.inr (hacts ▸ initCommands_sends _ _))
  have hbus := runActs_busOnly acts (resetPulse s)
  have hepoch := runActs_epoch acts (resetPulse s)
  refine ⟨_, hr, runActs_error acts _, hdc, ?_, ?_, ?_⟩
  · show (runActs acts (resetPulse s)).2.rst = true; rw [hbus, hp]
  · show (runActs acts (resetPulse s)).2.initDone = false; rw [hbus, hp]
  · rw [hp] at hepoch ⊢; exact hepoch

/-- Instructions other than INIT leave INIT_DONE (R21). -/
theorem exec_initDone {i : Instr} {s t : State} (hi : i ≠ .init) (h : exec i s = .next t) : t.initDone = s.initDone := by
  cases exec_cases h with
  | early e f d _ _ _ _ _ ht => rw [ht]; rfl
  | painted m f d _ _ _ _ ht => rw [ht]; rfl
  | bus r _ _ _ hr ht => rw [ht, endWith_initDone, hr.frame]
  | init hi' _ _ => exact absurd hi' hi
  | panel r _ hr _ ht => rw [ht, goOn_initDone, hr.frame]

/-- How INIT ends (R21, R102, R170): OK with INIT_DONE, or BUS_FAIL without it and the panel unknown. -/
theorem exec_init_cases {s t : State} (h : exec .init s = .next t) :
    t.rst = true ∧ t.dc = true ∧
    ((t.initDone = true ∧ t.code = 0#8 ∧ t.sub = 0#8) ∨ (t.initDone = false ∧ t.code = 1#8 ∧ t.sub = 2#8 ∧
        ∃ k, s.panel.epoch < k ∧ t.panel = Panel.unknown k)) := by
  cases exec_cases h with
  | init _ hok ht =>
    obtain ⟨⟨e, u⟩, hr, herr, hdc, hrst, hdone, hepoch⟩ := initRun_cases hok
    rw [hr] at ht
    subst ht
    rcases herr with he | he <;> cases he
    · exact ⟨hrst, hdc, .inl ⟨rfl, rfl, rfl⟩⟩
    · exact ⟨hrst, hdc, .inr ⟨hdone, rfl, rfl, _, Nat.lt_succ_of_le hepoch, rfl⟩⟩
  | early _ _ _ _ hn => exact absurd rfl hn
  | painted _ _ _ _ hp => obtain ⟨c, hp⟩ := hp; simp at hp
  | bus _ _ hn => exact absurd rfl hn
  | panel _ hi => cases hi

/-- Settles O34: the two ends of INIT, and INIT_DONE's frame over the other instructions. -/
theorem initDoneMeansInitEndedOk : Obligations.InitDoneMeansInitEndedOk := by
  refine ⟨fun s t _ h => ?_, fun i s t => exec_initDone⟩
  obtain ⟨hrst, hdc, hend⟩ := exec_init_cases h
  have hfb : t.fbb = s.fbb := (exec_fbb h).resolve_right fun ⟨c, hp⟩ => by simp at hp
  exact ⟨hrst, hdc, hfb, (exec_fontStep h).other (by simp), hend⟩

end Sys2Proof.Machine
end

section
/-! The invariant of the machine between steps: every instruction, the sequencer's turn and every host line keep it.
Settles O56 and O57. -/

namespace Sys2Proof.Machine

/-! ## How an operation closes -/

/-- The third and fourth part of the invariant: nothing is held outside an operation, and the status is a listed one. -/
abbrev State.closed (s : State) : Prop := s.released ∧ s.statusOk

/-- An error value of R143. -/
structure Err.Listed (e : Err) : Prop where
  pair : (e.code, e.sub) ∈ statusPairs
  info : e.code ≠ CODE_RESOURCE → e.info = 0#32

theorem Early.toListed {e : Err} (h : Early e) : e.Listed := ⟨h.listed, h.info⟩

theorem Issues.listed {s : State} {e : Err} {t : State} (h : Issues s (some e, t)) : e.Listed := by
  rcases h.errors e rfl with rfl | rfl | rfl <;> exact ⟨by decide, by decide⟩

theorem listed_illegalOp : errIllegalOp.Listed := ⟨by decide, by decide⟩

/-- `CODE` and `SUB` at 0 are a listed pair (R143). -/
theorem okPair_mem : (CODE_OK, 0#8) ∈ statusPairs := by decide

theorem finishOk_closed (s : State) : s.finishOk.closed := ⟨⟨rfl, rfl, rfl⟩, okPair_mem, fun _ => rfl⟩

theorem raiseErr_closed {e : Err} (he : e.Listed) (s : State) : (s.raiseErr e).closed :=
  ⟨⟨rfl, rfl, rfl⟩, he.pair, he.info⟩

theorem failInit_closed {e : Err} (he : e.Listed) (s : State) : (s.failInit e).closed := raiseErr_closed he _

theorem Issues.endWith_closed {s : State} {r : Ran} (h : Issues s r) : (endWith r).closed := by
  obtain ⟨_ | e, t⟩ := r
  · exact finishOk_closed t
  · exact raiseErr_closed h.listed t

theorem Issues.endInit_closed {s : State} {r : Ran} (h : Issues s r) : (endInit r).closed := by
  obtain ⟨_ | e, t⟩ := r
  · exact finishOk_closed _
  · exact failInit_closed h.listed t

/-- A panel command inside INIT goes on as the operation stood, or ends it (log 17). -/
theorem Issues.goOn_closed {s : State} {r : Ran} (h : Issues s r) (hk : KeepsScratch s r) (hs : s.closed) :
    (goOn r).closed := by
  obtain ⟨_ | e, t⟩ := r
  · obtain ⟨⟨hheld, hscr, hci⟩, hst⟩ := hs
    obtain ⟨kscr, kheld⟩ := hk
    have hf : t = _ := h.frame
    refine ⟨⟨kheld.trans hheld, kscr.trans hscr, ?_⟩, ?_⟩ <;> rw [goOn_none, hf] <;> assumption
  · exact failInit_closed h.listed t

/-- Every instruction leaves the block closed (R28, R30, R143, R150). -/
theorem exec_closed {i : Instr} {s t : State} (hs : s.closed) (h : exec i s = .next t) : t.closed := by
  cases exec_cases h with
  | early e f d _ _ he _ _ ht => exact ht ▸ raiseErr_closed he.toListed _
  | painted m f d _ _ _ _ ht => exact ht ▸ finishOk_closed _
  | bus r _ _ _ hr ht => exact ht ▸ hr.endWith_closed
  | init _ _ ht => exact ht ▸ (emitAll_issues _ _).endInit_closed
  | panel r _ hr hk ht => exact ht ▸ hr.goOn_closed hk hs

/-! ## The memories -/

/-- Every instruction keeps the memories canonical (R27, R39, R162). -/
theorem exec_memoriesOk {i : Instr} {s t : State} (hs : s.memoriesOk) (h : exec i s = .next t) : t.memoriesOk := by
  obtain ⟨hfb, hfk, hm, hmk, hp⟩ := hs
  rcases exec_unpainted_or_ends h with hu | ⟨m, f, d, c, u, w, rfl, -, hpaint, -⟩
  · have hmem : t.hmem = s.hmem := by have hf := hu.frame; unfold InstrFrame at hf; rw [hf]
    exact ⟨hu.fbb ▸ hfb, hu.fbb ▸ hfk, hmem ▸ hm, hmem ▸ hmk, hu.panel hp⟩
  · obtain ⟨hfb', hfk'⟩ := hpaint ⟨hfb, hfk⟩
    exact ⟨hfb', hfk', hm, hmk, hp⟩

/-! ## The sequencer's turn -/

theorem exec_inv {i : Instr} {s t : State} (hs : s.Inv) (h : exec i s = .next t) : t.Inv := by
  obtain ⟨hmem, hrest, hclosed⟩ := hs
  exact ⟨exec_memoriesOk hmem h, exec_resting hrest h, exec_closed hclosed h⟩

theorem raiseErr_inv {e : Err} (he : e.Listed) {s : State} (hs : s.Inv) : (s.raiseErr e).Inv := by
  obtain ⟨hmem, hrest, -⟩ := hs
  exact ⟨hmem, hrest, raiseErr_closed he s⟩

theorem settle_inv {s : State} (hs : s.Inv) : (settle s).Inv := by
  obtain ⟨hmem, hrest, -⟩ := id hs
  unfold settle
  split
  · split <;> exact ⟨hmem, hrest, finishOk_closed _⟩
  · exact hs

theorem afterPanel_next {o : Host.Outcome State Fault Refusal} {t : State} (h : afterPanel o = .next t) :
    ∃ u, o = .next u ∧ t = settle u := by
  cases o with
  | next u => injection h with h; exact ⟨u, rfl, h.symm⟩
  | fault f => cases h
  | refused r => cases h

theorem runSequencer_inv {s t : State} (hs : s.Inv) (h : runSequencer s = .next t) : t.Inv := by
  unfold runSequencer at h
  split at h
  · exact exec_inv hs h
  · injection h with h
    exact h ▸ raiseErr_inv listed_illegalOp hs
  · obtain ⟨u, hu, rfl⟩ := afterPanel_next h
    exact settle_inv (exec_inv (s := { s with pending := s.pending.tail }) hs hu)
  · cases h

/-! ## The host's turn -/

theorem hostWrite_inv {s t : State} {offset width : Nat} {v : Word} (hs : s.Inv)
    (h : hostWrite s offset width v = .next t) : t.Inv := by
  obtain ⟨hmem, hrest, hrel, -⟩ := id hs
  rcases hostWrite_cases h with rfl | ⟨n, hn, rfl⟩ | ⟨-, -, rfl⟩
  · exact hs
  · exact hs
  · exact ⟨hmem, hrest, hrel, okPair_mem, fun _ => rfl⟩

theorem hostRead_inv {s t : State} {offset width : Nat} (hs : s.Inv) (h : hostRead s offset width = .next t) : t.Inv := by
  rw [hostRead_frame h]
  exact hs

theorem hostPoll_inv {s : State} (rest : List HostOp) (hs : s.Inv) : (hostPoll s rest).Inv := by
  rw [hostPoll_frame]
  exact hs

/-- A store puts one byte at a word address (R39). -/
theorem hostStore_inv {s t : State} {addr : Word} {b : Byte} (hs : s.Inv) (h : hostStore s addr b = .next t) : t.Inv := by
  obtain ⟨⟨hfb, hfk, hm, hmk, hp⟩, hrest⟩ := hs
  have hkeys : ∀ c ∈ Memory.set s.hmem addr.toNat b, c.1 < Config.HMEM_SIZE :=
    Memory.overlay_mem _ (by simpa using addr.isLt) s.hmem hmk
  unfold hostStore at h
  split at h
  · cases h
  · injection h with h
    exact h ▸ ⟨⟨hfb, hfk, Memory.set_wf hm _ _, hkeys, hp⟩, hrest⟩

/-- An abandoned operation changes the trace, the observer and the draws (R166). -/
theorem abandon_inv {s t : State} (cut : Cut) (hs : s.Inv) (ht : t.Inv) : (s.abandon t cut).Inv := by
  obtain ⟨⟨hfb, hfk, hm, hmk, hp⟩, hrest⟩ := hs
  obtain ⟨⟨-, -, -, -, hpt⟩, -⟩ := ht
  have hpanel := State.abandon_panel_ok cut hp hpt
  rw [State.abandon_frame]
  exact ⟨⟨hfb, hfk, hm, hmk, hpanel⟩, hrest⟩

theorem assertReset_inv {s t : State} (hs : s.Inv) (h : assertReset s = .next t) : t.Inv := by
  rcases assertReset_cases h with ⟨-, rfl⟩ | ⟨-, -, u, hu, rfl⟩
  · exact hs
  · exact abandon_inv (t := u) _ hs (runSequencer_inv (s := { s with draws := (drawCut s.draws).2 }) hs hu)

/-- Settles O57: nothing is listed at reset, and the lines and the status are R34's. -/
theorem resetMeetsTheInvariant : Obligations.ResetMeetsTheInvariant :=
  ⟨⟨rfl, by decide, rfl, by decide, Panel.unknown_ok 0⟩, by decide, by decide, by decide⟩

/-- The release gives the block its reset values and keeps host memory (R166). -/
theorem releaseReset_inv {s : State} (hs : s.Inv) : (releaseReset s).Inv := by
  obtain ⟨⟨-, -, hm, hmk, -⟩, -⟩ := id hs
  obtain ⟨⟨hfb, hfk, -⟩, hrest⟩ := resetMeetsTheInvariant
  unfold releaseReset
  split
  · exact ⟨⟨hfb, hfk, hm, hmk, Panel.unknown_ok _⟩, hrest⟩
  · exact hs

/-- The host's line taken off its queue is no part of the invariant. -/
theorem hostAct_inv {op : HostOp} {rest : List HostOp} {s t : State} (hs : s.Inv) (h : hostAct op rest s = .next t) :
    t.Inv := by
  cases op with
  | write offset width v => exact hostWrite_inv (s := { s with host := rest, awaiting := false }) hs h
  | read offset width => exact hostRead_inv (s := { s with host := rest, awaiting := false }) hs h
  | poll => injection h with h; exact h ▸ hostPoll_inv rest hs
  | store addr b => exact hostStore_inv (s := { s with host := rest, awaiting := false }) hs h
  | assertReset => exact assertReset_inv (s := { s with host := rest, awaiting := false }) hs h
  | releaseReset => injection h with h; exact h ▸ releaseReset_inv (s := { s with host := rest, awaiting := false }) hs

theorem hostTurn_inv {s t : State} (hs : s.Inv) (h : hostTurn s = .next t) : t.Inv := by
  unfold hostTurn at h
  split at h
  · injection h with h; exact h ▸ hs
  · exact hostAct_inv hs h

/-! ## The step -/

/-- Choosing whose turn it is takes a draw at most (R6; log 18). -/
theorem nextTurn_frame (s : State) : (nextTurn s).2 = { s with draws := (nextTurn s).2.draws } := by
  unfold nextTurn
  split
  · rfl
  · split <;> rfl

theorem nextTurn_inv {s : State} (hs : s.Inv) : (nextTurn s).2.Inv := by
  rw [nextTurn_frame]
  exact hs

/-- Settles O56: by whose turn it is. -/
theorem everyStepKeepsTheInvariant : Obligations.EveryStepKeepsTheInvariant := by
  intro s t hs h
  unfold step at h
  split at h
  · exact hostTurn_inv (nextTurn_inv hs) h
  · exact runSequencer_inv (nextTurn_inv hs) h

end Sys2Proof.Machine
end

section
/-! Host memory: what a store by the host changes, and the bytes of it that a running operation names. Settles O14. -/

namespace Sys2Proof.Machine

/-- Host byte `a` is an operand of the operation (R175). -/
def NamesHostByte : Instr → Nat → Prop
  | .xferBytes src len, a => src.toNat ≤ a ∧ a < src.toNat + len.toNat
  | .blit _ _ iw ih src, a => src.toNat ≤ a ∧ a < src.toNat + 2 * iw.toNat * ih.toNat
  | .drawText _ _ str n _ _ _, a => str.toNat ≤ a ∧ a < str.toNat + n.toNat
  | _, _ => False

/-- The range a running operation names, by what `CUR_OP` decodes to on the argument registers. -/
theorem mem_namedRange_iff (s : State) (a : Nat) :
    ((namedRange s).1 ≤ a ∧ a < (namedRange s).1 + (namedRange s).2) ↔
      ∃ i, decode (.hostCmd (s.curOp.setWidth 32) s.args) = .ok i ∧ NamesHostByte i a := by
  have hdecode : decode (.hostCmd (s.curOp.setWidth 32) s.args) = decodeHost s.curOp s.args := by
    rw [decode, byte_of_word]
  rw [namedRange, hdecode]
  cases decodeHost s.curOp s.args with
  | error e => simp
  | ok i =>
    simp only [Except.ok.injEq, exists_eq_left']
    cases i with
    | xferBytes | blit | drawText => rfl
    | _ => simp [NamesHostByte]

/-- An operation names a byte while it runs outside reset (R166, R175). -/
theorem namesByte_iff (s : State) (a : Nat) :
    namesByte s a = true ↔ (s.busy = true ∧ s.resetIn = false) ∧
      ∃ i, decode (.hostCmd (s.curOp.setWidth 32) s.args) = .ok i ∧ NamesHostByte i a := by
  rw [← mem_namedRange_iff]
  simp only [namesByte, Bool.and_eq_true, Bool.not_eq_true', decide_eq_true_eq, and_assoc]

/-- Host memory after a write of one cell. -/
theorem hostByte_set (s : State) (a : Nat) (b : Byte) (q : Nat) :
    hostByte { s with hmem := Memory.set s.hmem a b } q = if q = a then b else hostByte s q := by
  rw [hostByte, Memory.get?_set]
  split <;> rfl

/-- A store to a byte that no running operation names goes through (R39, R53). -/
theorem storesOneByte_of_not_named {s : State} {addr : Word} (b : Byte) (h : ¬ namesByte s addr.toNat = true) :
    StoresOneByte s addr b :=
  ⟨_, by rw [hostStore, if_neg h], by rw [hostByte_set, if_pos rfl], fun a ha => by rw [hostByte_set, if_neg ha]⟩

/-- A store to a byte that the running operation names is refused (R161, R175; log 28). -/
theorem hostStore_named {s : State} {addr : Word} {i : Instr} (b : Byte) (hb : s.busy = true) (h0 : s.resetIn = false)
    (hd : decode (.hostCmd (s.curOp.setWidth 32) s.args) = .ok i) (hn : NamesHostByte i addr.toNat) :
    hostStore s addr b = .refused (.hostMemoryChanged addr.toNat) := by
  rw [hostStore, if_pos ((namesByte_iff s _).mpr ⟨⟨hb, h0⟩, i, hd, hn⟩)]

/-- Settles O14: whether the byte is named decides the store, and three operations name bytes. -/
theorem hostStoreChangesOneByte : Obligations.HostStoreChangesOneByte := by
  intro s addr b
  refine ⟨fun hidle => storesOneByte_of_not_named b fun hn => ?idle,
    fun hxfer hblit htext => storesOneByte_of_not_named b fun hn => ?unnamed,
    fun hb h0 => ⟨fun _ _ hd hlo hhi => hostStore_named b hb h0 hd ⟨hlo, hhi⟩,
      fun _ _ _ _ _ hd hlo hhi => hostStore_named b hb h0 hd ⟨hlo, hhi⟩,
      fun _ _ _ _ _ _ _ hd hlo hhi => hostStore_named b hb h0 hd ⟨hlo, hhi⟩⟩⟩
  case idle =>
    obtain ⟨⟨hb, h0⟩, -⟩ := (namesByte_iff s _).mp hn
    simp [hb, h0] at hidle
  case unnamed =>
    obtain ⟨-, i, hd, hi⟩ := (namesByte_iff s _).mp hn
    cases i with
    | xferBytes src len => obtain ⟨hlo, hhi⟩ := hi; have := hxfer _ _ hd; omega
    | blit x y iw ih src => obtain ⟨hlo, hhi⟩ := hi; have := hblit _ _ _ _ _ hd; omega
    | drawText xc y str n sp norm color => obtain ⟨hlo, hhi⟩ := hi; have := htext _ _ _ _ _ _ _ hd; omega
    | _ => exact hi

end Sys2Proof.Machine
end

section
/-! The byte-order converter and the bytes of one stored pixel. Settles O39. -/

namespace Sys2Proof.Machine

@[simp] theorem hi8_conv (c : Half) : hi8 (conv c) = lo8 c := hi8_joinHalf _ _

@[simp] theorem lo8_conv (c : Half) : lo8 (conv c) = hi8 c := lo8_joinHalf _ _

/-- The converter is its own inverse (R41). -/
@[simp] theorem conv_conv (c : Half) : conv (conv c) = c := by
  rw [conv, lo8_conv, hi8_conv, joinHalf_hi8_lo8]

/-- The native word of a pixel is its colour's bytes swapped (R40, R41). -/
theorem nativePixel_eq_conv (s : State) (i : Nat) : nativePixel s i = conv (loadPixel s i) := by
  rw [conv, loadPixel, hi8_joinHalf, lo8_joinHalf, nativePixel]

/-- A lookup in a memory of one cell. -/
theorem Memory.get?_singleton {β : Type} (a : Nat) (b : β) (q : Nat) :
    Memory.get? [(a, b)] q = if q = a then some b else none := Memory.get?_set [] a b q

/-- The framebuffer bytes after the store of one pixel (R40). -/
theorem fbByte_storePixel (s : State) (i : Nat) (c : Half) (a : Nat) :
    fbByte (s.storePixels [(i, c)]) a =
      if a = 2 * i then hi8 c else if a = 2 * i + 1 then lo8 c else fbByte s a := by
  obtain ⟨q, rfl | rfl⟩ := Nat.even_or_odd' a
  · rw [(fbByte_storePixels rfl s q).1, Memory.get?_singleton]
    by_cases hq : q = i
    · simp [hq]
    · simp [hq, show 2 * q ≠ 2 * i + 1 by omega]
  · rw [(fbByte_storePixels rfl s q).2, Memory.get?_singleton]
    by_cases hq : q = i
    · simp [hq]
    · simp [hq, show 2 * q + 1 ≠ 2 * i by omega]

/-- Settles O39: the converter's laws, and the bytes and both readings of a stored pixel. -/
theorem converterAndPixelLayout : Obligations.ConverterAndPixelLayout := by
  refine ⟨fun c => ⟨conv_conv c, hi8_conv c, lo8_conv c⟩, by decide, by decide, fun s i c => ?_⟩
  have hload : loadPixel (s.storePixels [(i, c)]) i = c := by
    rw [loadPixel_storePixels rfl, Memory.get?_singleton, if_pos rfl, Option.getD_some]
  refine ⟨?high, ?low, hload, by rw [nativePixel_eq_conv, hload], fun a hhi hlo => ?other⟩
  case high => rw [fbByte_storePixel, if_pos rfl]
  case low => rw [fbByte_storePixel, if_neg (by omega), if_pos rfl]
  case other => rw [fbByte_storePixel, if_neg hhi, if_neg hlo]

end Sys2Proof.Machine
end

section
/-! The two decoders turned around: a host operation reads back from its opcode and its argument words, a panel command from
its byte and payload, and nothing else decodes. Settles O1 to O5. -/

namespace Sys2Proof.Machine

/-! ## Panel commands -/

/-- Two window bounds read back from their four bytes (R65). -/
theorem decodeBounds_boundBytes (make : Half → Half → Instr) (op : Byte) (start stop : Half) :
    decodeBounds make op (boundBytes start stop) = .ok (make start stop) := by
  rw [boundBytes, decodeBounds, joinHalf_hi8_lo8, joinHalf_hi8_lo8]

/-- A payload that decodes as two bounds is the bytes of those bounds (R65). -/
theorem decodeBounds_ok {make : Half → Half → Instr} {op : Byte} {P : List Byte} {i : Instr}
    (h : decodeBounds make op P = .ok i) : ∃ start stop, P = boundBytes start stop ∧ i = make start stop := by
  unfold decodeBounds at h
  split at h
  · rename_i p0 p1 p2 p3
    cases h
    exact ⟨joinHalf p0 p1, joinHalf p2 p3, by simp [boundBytes], rfl⟩
  · cases h

/-- A command without a payload of its own decodes bare only (R81, R84, R87). -/
theorem decodeBare_ok {i j : Instr} {op : Byte} {P : List Byte} (h : decodeBare i op P = .ok j) : P = [] ∧ j = i := by
  cases P with
  | nil => cases h; exact ⟨rfl, rfl⟩
  | cons b P => cases h

/-- A panel command's byte and payload read back (R63, R65, R66, R68). -/
theorem decodePanel_of_instr {i : Instr} (hi : isHostOp i = false) : decodePanel ⟨opcodeOf i, payloadOf i⟩ = .ok i := by
  cases i with
  | columnAddr start stop => exact decodeBounds_boundBytes .columnAddr 0x2A#8 start stop
  | pageAddr start stop => exact decodeBounds_boundBytes .pageAddr 0x2B#8 start stop
  | xferBytes | sendCmd | sendData | init | fillAll | fillRegion | blit | sendRegion | sendAll | drawText => cases hi
  | _ => rfl

/-- The command bytes of the eighteen panel commands (R66). -/
def panelBytes : List Byte :=
  [0x00#8, 0x11#8, 0x20#8, 0x26#8, 0x29#8, 0x2A#8, 0x2B#8, 0x2C#8, 0x36#8, 0x3A#8, 0xB1#8, 0xB6#8, 0xC0#8, 0xC1#8,
   0xC5#8, 0xC7#8, 0xE0#8, 0xE1#8]

/-- Every other byte is no panel command (R67). -/
theorem decodePanel_unknown {c : WireCmd} (h : c.op ∉ panelBytes) : decodePanel c = .error (.unknownPanelByte c.op) := by
  simp only [panelBytes, List.mem_cons, List.not_mem_nil, or_false, not_or] at h
  simp only [decodePanel, h, if_false]

/-- What decodes on the wire is the byte and the payload of a panel command (R66). -/
theorem decodePanel_ok {c : WireCmd} {i : Instr} (h : decodePanel c = .ok i) :
    isHostOp i = false ∧ c = ⟨opcodeOf i, payloadOf i⟩ := by
  by_cases hop : c.op ∈ panelBytes
  · obtain ⟨op, P⟩ := c
    simp only [panelBytes, List.mem_cons, List.not_mem_nil, or_false] at hop
    rcases hop with rfl | rfl | rfl | rfl | rfl | rfl | rfl | rfl | rfl | rfl | rfl | rfl | rfl | rfl | rfl | rfl |
      rfl | rfl
    -- the commands of any payload, then those of none, then those of two bounds
    any_goals (cases h; exact ⟨rfl, rfl⟩)
    any_goals (obtain ⟨rfl, rfl⟩ := decodeBare_ok h; exact ⟨rfl, rfl⟩)
    all_goals (obtain ⟨start, stop, rfl, rfl⟩ := decodeBounds_ok h; exact ⟨rfl, rfl⟩)
  · rw [decodePanel_unknown hop] at h
    cases h

/-- Settles O2: a wire form that decodes is the byte and the payload of what it decodes to. -/
theorem panelWireFormIsUnique : Obligations.PanelWireFormIsUnique := by
  intro c i h
  obtain ⟨hi, rfl⟩ := decodePanel_ok h
  rw [encode, if_neg (by simp [hi])]

/-! ## Host operations -/

/-- The opcodes of the ten host operations (R56). -/
def hostOpcodes : List Byte := [0x01#8, 0x02#8, 0x03#8, 0x04#8, 0x10#8, 0x11#8, 0x12#8, 0x20#8, 0x21#8, 0x30#8]

/-- Each opcode with the number of argument words its operation reads (R56, R57). -/
def hostOpcodeArity : List (Byte × Nat) :=
  [(0x01#8, 2), (0x02#8, 1), (0x03#8, 1), (0x04#8, 0), (0x10#8, 1), (0x11#8, 3), (0x12#8, 3), (0x20#8, 2),
   (0x21#8, 0), (0x30#8, 4)]

theorem opcodeOf_arity_mem {i : Instr} (hi : isHostOp i = true) :
    (opcodeOf i, (argWords i).length) ∈ hostOpcodeArity := by
  cases i with
  | xferBytes | sendCmd | sendData | init | fillAll | fillRegion | blit | sendRegion | sendAll | drawText =>
    simp [opcodeOf, argWords, hostOpcodeArity]
  | _ => cases hi

/-- The register file that `argVector` builds holds its words (R61). -/
theorem holdsFrom_argVector {ws : List Word} (hw : ws.length ≤ 8) :
    ∀ (vs : List Word) (n : Nat), ws.drop n = vs → HoldsFrom (argVector ws) n vs := by
  intro vs
  induction vs with
  | nil => exact fun _ _ => trivial
  | cons v vs ih =>
    intro n hn
    have hv : ws[n]? = some v := by rw [← List.head?_drop, hn, List.head?_cons]
    have hlt : n < 8 := by have := (List.getElem?_eq_some_iff.mp hv).1; omega
    refine ⟨by simp [argVector, hlt, hv], ih (n + 1) ?_⟩
    rw [← List.tail_drop, hn, List.tail_cons]

/-- Every other opcode is reserved (R56, R59). -/
theorem decodeHost_reserved {opc : Byte} (h : opc ∉ hostOpcodes) (a : Vector Word 8) :
    decodeHost opc a = .error (.reservedOpcode opc) := by
  simp only [hostOpcodes, List.mem_cons, List.not_mem_nil, or_false, not_or] at h
  simp only [decodeHost, h, if_false]

/-- A listed opcode selects an operation, whatever the arguments hold (R55, R56). -/
theorem decodeHost_of_mem {opc : Byte} (h : opc ∈ hostOpcodes) (a : Vector Word 8) : ∃ i, decodeHost opc a = .ok i := by
  simp only [hostOpcodes, List.mem_cons, List.not_mem_nil, or_false] at h
  rcases h with rfl | rfl | rfl | rfl | rfl | rfl | rfl | rfl | rfl | rfl <;> exact ⟨_, rfl⟩

theorem mem_of_decodeHost {opc : Byte} {a : Vector Word 8} {i : Instr} (h : decodeHost opc a = .ok i) :
    opc ∈ hostOpcodes := by
  by_contra hop
  rw [decodeHost_reserved hop] at h
  cases h

/-- What an opcode selects is a host operation of that opcode, and it reads its own argument words only (R55, R56, R57). -/
theorem decodeHost_ok {opc : Byte} {a : Vector Word 8} {i : Instr} (h : decodeHost opc a = .ok i) :
    isHostOp i = true ∧ opcodeOf i = opc ∧
    ∀ a' : Vector Word 8, (∀ n : Fin 8, n.val < (argWords i).length → a'[n] = a[n]) → decodeHost opc a' = .ok i := by
  have hop := mem_of_decodeHost h
  simp only [hostOpcodes, List.mem_cons, List.not_mem_nil, or_false] at hop
  rcases hop with rfl | rfl | rfl | rfl | rfl | rfl | rfl | rfl | rfl | rfl
  all_goals
    cases h
    refine ⟨rfl, rfl, fun a' ha => ?_⟩
    have hread : ∀ n (hn : n < 8), n < (argWords _).length → a'[n] = a[n] := fun n hn => ha ⟨n, hn⟩
    simp [decodeHost, argWords, hread]

/-- Settles O3: the decoder reads no other bit of `GO`, and a listed opcode decodes on any arguments. -/
theorem opcodeAloneSelectsTheOperation : Obligations.OpcodeAloneSelectsTheOperation := by
  intro go go' a a' hgo
  simp only [decode, hgo, true_and]
  intro i hi
  obtain ⟨-, hopc, -⟩ := decodeHost_ok hi
  obtain ⟨j, hj⟩ := decodeHost_of_mem (mem_of_decodeHost hi) a'
  obtain ⟨hhost, hopc', -⟩ := decodeHost_ok hj
  exact ⟨j, hj, hopc'.trans hopc.symm, hhost⟩

/-- Settles O4: by what a listed opcode selects, and that every other one is reserved. -/
theorem opcodeTableOfHostOperations : Obligations.OpcodeTableOfHostOperations := by
  refine ⟨fun go a => ⟨fun ⟨i, hi⟩ => mem_of_decodeHost hi, fun h => decodeHost_of_mem h a⟩, fun go a i hi => ?_⟩
  obtain ⟨hhost, hopc, hreads⟩ := decodeHost_ok hi
  exact ⟨hopc, opcodeOf_arity_mem hhost, hreads⟩

/-! ## Both formats -/

/-- Settles O1: a host operation by its argument registers, a panel command by its byte and payload. -/
theorem decodeOfEncodeIsTheInstruction : Obligations.DecodeOfEncodeIsTheInstruction := by
  intro i
  cases hi : isHostOp i with
  | true =>
    rw [encode, if_pos hi, decode, byte_of_word]
    exact decodeHost_of_holds hi (holdsFrom_argVector (argWords_length_le i) _ 0 List.drop_zero)
  | false =>
    rw [encode, if_neg (by simp [hi]), decode]
    exact decodePanel_of_instr hi

/-- Settles O5: three words of each format, evaluated. -/
theorem sampleWordsDecode : Obligations.SampleWordsDecode :=
  ⟨by decide, by decide, by decide, by decide, by decide, by decide⟩

end Sys2Proof.Machine
end

section
/-! A waiting host and a reserved opcode, on the rules of the turn. Settles O15 and O18. -/

namespace Sys2Proof.Machine

/-- A POLL line is no access to make: the turn is the sequencer's (R60; log 18). -/
theorem step_polling {s : State} {rest : List HostOp} (hh : s.host = .poll :: rest) (hb : s.busy = true)
    (h0 : s.resetIn = false) : step s = runSequencer s := by
  have hr : hostReady s = false := by rw [hostReady, hh]
  obtain ⟨-, hstep⟩ := sequencerTurn_step (sequencerTurn_waiting hr)
  exact hstep hb h0

/-- A host turn at a POLL line is one reading of it (R60). -/
theorem hostTurn_poll {s : State} {rest : List HostOp} (hh : s.host = .poll :: rest) :
    hostTurn s = .next (hostPoll s rest) := by
  rw [hostTurn, hh]
  rfl

/-- Settles O15: an idle block gives the host the turn, a busy one gives a waiting host none. -/
theorem pollWaitsForIdle : Obligations.PollWaitsForIdle := by
  intro s rest hh h0
  refine ⟨fun hb => ?idle, fun hb => ⟨step_polling hh hb h0, fun t ht => ?busy⟩⟩
  case idle => rw [step_idle hb, hostTurn_poll hh, hostPoll_eq s rest h0, if_neg (by simp [hb])]
  case busy =>
    rw [hostTurn_poll hh, hostPoll_eq s rest h0, if_pos hb] at ht
    cases ht
    rfl

/-- Whose turn it is does not depend on the argument registers (R6). -/
theorem sequencerTurn_args {s u : State} (h : sequencerTurn s = some u) (a : Vector Word 8) :
    sequencerTurn { s with args := a } = some { u with args := a } := by
  cases hr : hostReady s with
  | false =>
    obtain rfl := Option.some.inj ((sequencerTurn_waiting hr).symm.trans h)
    exact sequencerTurn_waiting (s := { s with args := a }) hr
  | true =>
    cases ha : (drawTurn s.draws).1 with
    | host => rw [sequencerTurn_host hr ha] at h; cases h
    | sequencer =>
      obtain rfl := Option.some.inj ((sequencerTurn_drawn hr ha).symm.trans h)
      exact sequencerTurn_drawn (s := { s with args := a }) hr ha

/-- Settles O18: the turn's draw is taken, and the operation ends. -/
theorem reservedOpcodeEndsWithIllegalOp : Obligations.ReservedOpcodeEndsWithIllegalOp := by
  intro s u hb h0 hp hu hop
  refine ⟨illegalOp u, fun a => ?step, ?fields⟩
  case step =>
    obtain ⟨-, hreserved⟩ := step_of_no_pending (s := { s with args := a }) hb h0 (sequencerTurn_args hu a) hp
    refine hreserved (.reservedOpcode s.curOp) ?_
    rw [decode, byte_of_word]
    exact decodeHost_reserved hop a
  case fields =>
    obtain ⟨rfl, -⟩ := sequencerTurn_step hu
    exact ⟨rfl, rfl, rfl, rfl, rfl, rfl, rfl, rfl, rfl, rfl, rfl, rfl, rfl, rfl, rfl, rfl, rfl, rfl, rfl⟩

end Sys2Proof.Machine
end

section
/-! What an instruction adds to the trace, by its ending (`exec_cases`). Settles O25. -/

namespace Sys2Proof.Machine

/-- From `s` to `t` the trace grew at its end only, by events of wire form (R29, R63). -/
def AddsWireForm (s t : State) : Prop :=
  ∃ new, t.trace = s.trace ++ new ∧ ∀ e ∈ new, eventFormOk s.cfg.maxXfer e = true

theorem AddsWireForm.of_trace {s t : State} (h : t.trace = s.trace) : AddsWireForm s t :=
  ⟨[], by rw [h, List.append_nil], by simp⟩

theorem AddsWireForm.trans {s t u : State} (hc : t.cfg = s.cfg) (h : AddsWireForm s t) (g : AddsWireForm t u) :
    AddsWireForm s u := by
  obtain ⟨new, ht, hform⟩ := h
  obtain ⟨new', hu, hform'⟩ := g
  rw [hc] at hform'
  refine ⟨new ++ new', by rw [hu, ht, List.append_assoc], fun e he => ?_⟩
  rcases List.mem_append.mp he with he | he
  · exact hform e he
  · exact hform' e he

/-- A procedure over the bus issues transactions of wire form. -/
theorem Issues.addsWireForm {s : State} {r : Ran} (h : Issues s r) : AddsWireForm s r.2 := by
  obtain ⟨new, ht, hev⟩ := h.events
  exact ⟨new, ht, hev.form⟩

/-- The reset pulse of INIT issues no transaction (R102). -/
theorem resetPulse_addsWireForm (s : State) : AddsWireForm s (resetPulse s) := by
  obtain ⟨new, h, hform⟩ := resetPulse_spec s
  exact ⟨new, by rw [h], fun e he => (hform e he).1⟩

theorem resetPulse_cfg (s : State) : (resetPulse s).cfg = s.cfg := by
  obtain ⟨new, h, -⟩ := resetPulse_spec s
  rw [h]

/-! An operation's end adds no event (R150). -/

theorem endWith_trace (r : Ran) : (endWith r).trace = r.2.trace := by
  obtain ⟨_ | e, t⟩ := r <;> rfl

theorem goOn_trace (r : Ran) : (goOn r).trace = r.2.trace := by
  obtain ⟨_ | e, t⟩ := r <;> rfl

theorem endInit_trace (r : Ran) : (endInit r).trace = r.2.trace := by
  obtain ⟨_ | e, t⟩ := r <;> rfl

/-- Settles O25: each ending of an instruction adds events of wire form only. -/
theorem everyTransactionHasWireForm : Obligations.EveryTransactionHasWireForm := by
  intro i s t h
  show AddsWireForm s t
  cases exec_cases h with
  | early e f d _ _ _ _ _ ht => exact .of_trace (ht ▸ rfl)
  | painted m f d _ _ _ _ ht => exact .of_trace (ht ▸ rfl)
  | bus r _ _ _ hr ht => exact hr.addsWireForm.trans hr.cfg (.of_trace (ht ▸ endWith_trace r))
  | panel r _ hr _ ht => exact hr.addsWireForm.trans hr.cfg (.of_trace (ht ▸ goOn_trace r))
  | init _ _ ht =>
    have hr := emitAll_issues (initCommands s.cfg) (resetPulse s)
    exact (resetPulse_addsWireForm s).trans (resetPulse_cfg s)
      (hr.addsWireForm.trans hr.cfg (.of_trace (ht ▸ endInit_trace _)))

end Sys2Proof.Machine
end

section
/-! The panel commands of an `INIT_TABLE` entry as their acts. Settles O28. -/

namespace Sys2Proof.Machine

/-- A command other than SLEEP_OUT has no wait of its own (R81, R102). -/
theorem initCommandActs_of_ne {c : WireCmd} (h : c.op ≠ 0x11#8) (p : Params) :
    initCommandActs p c = commandActs c.op c.payload := by
  rw [initCommandActs, if_neg h, List.append_nil]

/-- A command other than SLEEP_OUT, with a payload of one transaction at most, is its acts inside INIT too (R63, R68). -/
theorem emitCommand_eq_commandActs {op : Byte} {P : List Byte} {s : State} (hP : P.length ≤ s.cfg.maxXfer)
    (hop : op ≠ 0x11#8) : emitCommand ⟨op, P⟩ s = runActs (commandActs op P) s := by
  rw [emitCommand_eq _ _ hP, initCommandActs_of_ne hop]

/-- Settles O28: each of the thirteen is the command INIT would send. -/
theorem payloadCommandsSendCommandThenPayload : Obligations.PayloadCommandsSendCommandThenPayload := by
  intro P s hP
  have hsent : ∀ op : Byte, op ≠ 0x11#8 →
      (.next (goOn (emitCommand ⟨op, P⟩ s)) : Host.Outcome State Fault Refusal) =
        .next (goOn (runActs (commandActs op P) s)) :=
    fun op hop => by rw [emitCommand_eq_commandActs hP hop]
  exact ⟨hsent 0x00#8 (by decide), hsent 0x20#8 (by decide), hsent 0x26#8 (by decide), hsent 0x36#8 (by decide),
    hsent 0x3A#8 (by decide), hsent 0xB1#8 (by decide), hsent 0xB6#8 (by decide), hsent 0xC0#8 (by decide),
    hsent 0xC1#8 (by decide), hsent 0xC5#8 (by decide), hsent 0xC7#8 (by decide), hsent 0xE0#8 (by decide),
    hsent 0xE1#8 (by decide)⟩

end Sys2Proof.Machine
end

section
/-! The pseudo-operations, and the whole frame as a rectangle. Settles O60. -/

namespace Sys2Proof.Machine

/-- FILL_REGION of the whole frame is FILL_ALL (R108). -/
theorem execFillRegion_full (c : Half) (s : State) :
    execFillRegion 0#16 0#16 240#16 320#16 c s = execFillAll c s := by
  have hcheck : checkRect 0 0 240 320 = none := by decide
  simp only [execFillRegion, BitVec.toNat_ofNat, Nat.reducePow, Nat.reduceMod, hcheck]
  rw [execFillAll, ← pix_full]

/-- SEND_REGION of the whole frame is SEND_ALL (R119, R120). -/
theorem execSendRegion_full (s : State) : execSendRegion 0#16 0#16 240#16 320#16 s = execSendAll s := by
  have hcheck : checkSendRect 0 0 240 320 = none := by decide
  have hfull : isFullFrame 0 0 240 320 = true := by decide
  simp only [execSendRegion, BitVec.toNat_ofNat, Nat.reducePow, Nat.reduceMod, hcheck, hfull, if_true]
  rw [execSendAll]

/-- Settles O60: the expansions as written, and the two equivalences over the whole frame. -/
theorem pseudoOperationsExpand : Obligations.PseudoOperationsExpand := by
  refine ⟨rfl, fun c s => ⟨_, rfl, rfl, execFillRegion_full c s⟩, fun s => ⟨_, rfl, rfl, execSendRegion_full s⟩,
    fun op addr n => ⟨fun hn => ?some, fun hn => ?none⟩⟩
  case some => rw [expandPseudo, if_pos hn]
  case none => rw [expandPseudo, if_neg (by omega)]

end Sys2Proof.Machine
end

section
/-! The transport operations of the host as single bus transactions, with their errors, and the end of a run of
transactions that the bus answers OK. Settles O20 to O24. -/

namespace Sys2Proof.Machine

/-! ## XFER_BYTES -/

/-- `MemRead` is the host bytes in ascending address order (R39). -/
theorem memRead_eq_map (s : State) (addr n : Nat) : memRead s addr n = (List.range' addr n).map (hostByte s) :=
  Memory.run_eq_map _ n addr s.hmem

theorem hostRangeOk_iff (addr n : Nat) : hostRangeOk addr n = true ↔ addr + n ≤ 4294967296 :=
  decide_eq_true_iff

section
variable {addr len : Word} {s : State}

theorem execXferBytes_empty (h : len.toNat = 0) : execXferBytes addr len s = .next (s.raiseErr errZeroLength) := by
  rw [execXferBytes, if_pos h]

theorem execXferBytes_oversize (h0 : len.toNat ≠ 0) (h1 : s.cfg.maxXfer < len.toNat) :
    execXferBytes addr len s = .next (s.raiseErr errOversize) := by
  rw [execXferBytes, if_neg h0, if_pos h1]

/-- With a length it may send, XFER_BYTES is its transaction, or is refused where the run passes the end of host memory
(R39, R73; log 27). -/
theorem execXferBytes_of_length (h0 : len.toNat ≠ 0) (h1 : len.toNat ≤ s.cfg.maxXfer) :
    execXferBytes addr len s =
      if hostRangeOk addr.toNat len.toNat then
        .next (endWith (busResult (busTxn true (memRead s addr.toNat len.toNat) s)))
      else .refused (.hostRange addr.toNat len.toNat) := by
  rw [execXferBytes, if_neg h0, if_neg (Nat.not_lt.mpr h1)]

end

/-- Settles O20: the run passes the three checks, and its transaction is one act. -/
theorem xferBytesSendsTheRun : Obligations.XferBytesSendsTheRun := by
  intro addr len s hdc h0 h1 hrange
  have hsent := execXferBytes_of_length (addr := addr) (Nat.one_le_iff_ne_zero.mp h0) h1
  rw [if_pos ((hostRangeOk_iff _ _).mpr hrange), busTxn_data_eq _ s hdc, memRead_eq_map] at hsent
  exact hsent

/-- Settles O21: one check fails in each clause. -/
theorem xferBytesErrors : Obligations.XferBytesErrors := by
  refine fun addr len s => ⟨execXferBytes_empty, execXferBytes_oversize, fun h0 h1 hrange => ?_⟩
  have hout : ¬ hostRangeOk addr.toNat len.toNat = true := by rw [hostRangeOk_iff]; exact Nat.not_le.mpr hrange
  exact (execXferBytes_of_length (Nat.one_le_iff_ne_zero.mp h0) h1).trans (if_neg hout)

/-! ## SEND_CMD and SEND_DATA -/

theorem endWith_dc (r : Ran) : (endWith r).dc = r.2.dc := by
  obtain ⟨_ | e, t⟩ := r <;> rfl

theorem endWith_busy (r : Ran) : (endWith r).busy = false := by
  obtain ⟨_ | e, t⟩ := r <;> rfl

/-- SEND_CMD is one command transaction (R74, R77). -/
theorem execSendCmd_eq (b : Byte) (s : State) : execSendCmd b s = .next (endWith (runActs [.txn false [b]] s)) := by
  rw [execSendCmd, txCmd_eq]

/-- Settles O22: a run with a transaction leaves `DC` at 1, and every end of an operation leaves `BUSY` at 0. -/
theorem sendCmdSendsOneCommandByte : Obligations.SendCmdSendsOneCommandByte := by
  refine fun b s => ⟨execSendCmd_eq b s, fun t ht => ?_⟩
  cases (execSendCmd_eq b s).symm.trans ht
  have hdc : (runActs [.txn false [b]] s).2.dc = true := runActs_dc _ s (.inr ⟨false, [b], by simp⟩)
  exact ⟨(endWith_dc _).trans hdc, endWith_busy _⟩

/-- `TxData` sends nothing of a list over the ceiling (R76). -/
theorem txData_oversize {L : List Byte} {s : State} (h : s.cfg.maxXfer < L.length) :
    txData L s = (some errOversize, s) := by
  rw [txData, if_neg (Nat.ne_zero_of_lt h), if_pos h]

/-- Settles O23: one byte fits every ceiling but 0. -/
theorem sendDataSendsOneDataByte : Obligations.SendDataSendsOneDataByte := by
  refine fun b s => ⟨fun h => ?sent, fun h => ?oversize⟩
  case sent =>
    show execSendData b s = _
    rw [execSendData, txData_eq [b] s (by simp) h]
  case oversize =>
    show execSendData b s = .next (s.raiseErr errOversize)
    rw [execSendData, txData_oversize (by rw [h]; exact Nat.one_pos), endWith_some, State.raiseErr_eq]

/-! ## A run of answered transactions -/

/-- When the bus's next answers are OK, the first of them is, and it leaves the others (log 5). -/
theorem State.allOk.uncons {s : State} {n : Nat} (h : s.allOk (n + 1)) :
    s.nextOk = true ∧ ∀ dc L, (s.afterTxn dc L).allOk n := by
  simp only [State.allOk, List.replicate_succ] at h
  cases hbus : s.draws.bus with
  | nil => simp [hbus] at h
  | cons a rest =>
    simp only [hbus, List.take_succ_cons, List.cons.injEq] at h
    obtain ⟨rfl, hrest⟩ := h
    have hdraw : drawBus s.draws = (.ok, { s.draws with bus := rest }) := by rw [drawBus, hbus]
    exact ⟨by rw [State.nextOk, hdraw, answerOk_ok], fun dc L => by simpa [State.allOk, State.afterTxn, hdraw]⟩

/-- Transactions answered OK report no error and put their events into the trace, in order (R29, R72). -/
theorem runActs_txns_of_allOk (L : List (Bool × List Byte)) : ∀ s : State, s.allOk L.length →
    (runActs (L.map fun x => .txn x.1 x.2) s).1 = none ∧
    (runActs (L.map fun x => .txn x.1 x.2) s).2.trace = s.trace ++ L.map fun x => .txn x.1 x.2 true := by
  induction L with
  | nil => exact fun s _ => ⟨rfl, (List.append_nil _).symm⟩
  | cons x L ih =>
    intro s h
    obtain ⟨hok, hrest⟩ := h.uncons
    obtain ⟨hnone, htrace⟩ := ih (s.afterTxn x.1 x.2) (hrest x.1 x.2)
    simp only [List.map_cons, runActs, hok, if_true]
    refine ⟨hnone, htrace.trans ?_⟩
    rw [State.afterTxn, hok, List.append_assoc, List.singleton_append]

/-- Settles O24: by induction over the transactions; the frame is that of any run of acts. -/
theorem answeredActsAreAllIssued : Obligations.AnsweredActsAreAllIssued := by
  intro L s h
  obtain ⟨hnone, htrace⟩ := runActs_txns_of_allOk L s h
  exact ⟨hnone, htrace, runActs_busOnly _ s⟩

end Sys2Proof.Machine
end

section
/-! A failed transaction and the end of the operation that issued it, by the operation's ending (`exec_cases`).
Settles O26. -/

namespace Sys2Proof.Machine

/-- Events that are no failed transaction may stand before those of a procedure. -/
theorem EventsOk.prepend {n : Nat} {e : Option Err} {pre new : List Event}
    (hpre : ∀ x ∈ pre, eventFormOk n x = true ∧ eventFailed x = false) (h : EventsOk n e new) :
    EventsOk n e (pre ++ new) where
  form x hx := (List.mem_append.mp hx).elim (fun hx => (hpre x hx).1) (h.form x)
  early x hx := by
    by_cases hnew : new = []
    · rw [hnew, List.append_nil] at hx
      exact (hpre x (List.mem_of_mem_dropLast hx)).2
    · rw [List.dropLast_append_of_ne_nil hnew] at hx
      exact (List.mem_append.mp hx).elim (fun hx => (hpre x hx).2) (h.early x)
  failed := by
    rw [← h.failed]
    constructor
    · rintro ⟨x, hx, hf⟩
      rcases List.mem_append.mp hx with hx | hx
      · exact absurd hf (by rw [(hpre x hx).2]; decide)
      · exact ⟨x, hx, hf⟩
    · rintro ⟨x, hx, hf⟩
      exact ⟨x, List.mem_append_right _ hx, hf⟩

/-- `CODE` and `SUB` say PROTOCOL/BUS_FAIL (R143). -/
abbrev State.busFailed (s : State) : Prop := s.code = 1#8 ∧ s.sub = 2#8

/-- From `s` the instruction added the events `new`, its last procedure returned `e`, and the status at `t` says so where
that is BUS_FAIL; a host operation's status says BUS_FAIL in no other case. -/
structure Reports (i : Instr) (s t : State) (e : Option Err) (new : List Event) : Prop where
  trace : t.trace = s.trace ++ new
  events : EventsOk s.cfg.maxXfer e new
  failed : e = some errBusFail → t.busFailed ∧ t.busy = false
  only : isHostOp i = true → t.busFailed → e = some errBusFail

/-- An instruction without a bus event that does not report BUS_FAIL. -/
theorem Reports.silent {i : Instr} {s t : State} (ht : t.trace = s.trace) (hb : ¬ t.busFailed) :
    Reports i s t none [] :=
  ⟨by rw [ht, List.append_nil], EventsOk.nil (by simp), by simp, fun _ h => absurd h hb⟩

/-- The only error of a procedure over the bus whose code and subcause are BUS_FAIL's is BUS_FAIL (R143). -/
theorem Issues.eq_busFail {s t : State} {e : Err} (h : Issues s (some e, t)) (hc : e.code = 1#8 ∧ e.sub = 2#8) :
    e = errBusFail := by
  rcases h.errors e rfl with rfl | rfl | rfl
  · rfl
  · exact absurd hc (by decide)
  · exact absurd hc (by decide)

/-- What the three ends of an instruction have in common (R149, R150): no event is added, and an error becomes the status
of an idle block. -/
structure RaisesError (fin : Ran → State) : Prop where
  trace : ∀ r, (fin r).trace = r.2.trace
  error : ∀ e u, (fin (some e, u)).code = e.code ∧ (fin (some e, u)).sub = e.sub ∧ (fin (some e, u)).busy = false

theorem endWith_raisesError : RaisesError endWith := ⟨endWith_trace, fun _ _ => ⟨rfl, rfl, rfl⟩⟩
theorem goOn_raisesError : RaisesError goOn := ⟨goOn_trace, fun _ _ => ⟨rfl, rfl, rfl⟩⟩
theorem endInit_raisesError : RaisesError endInit := ⟨endInit_trace, fun _ _ => ⟨rfl, rfl, rfl⟩⟩

/-- An instruction that, after events `pre` that are no failed transaction, ends as a procedure over the bus returned: the
status is that procedure's error, and `CODE_OK` after a host operation without one. -/
theorem Issues.reports {fin : Ran → State} {i : Instr} {s u : State} {r : Ran} {pre : List Event}
    (hr : Issues u r) (hfin : RaisesError fin)
    (hok : isHostOp i = true → ∀ v, (fin (none, v)).code = CODE_OK) (hcfg : u.cfg = s.cfg)
    (hu : u.trace = s.trace ++ pre)
    (hpre : ∀ x ∈ pre, eventFormOk s.cfg.maxXfer x = true ∧ eventFailed x = false) :
    ∃ e new, Reports i s (fin r) e new := by
  obtain ⟨new, htrace, hev⟩ := hr.events
  rw [hcfg] at hev
  refine ⟨r.1, pre ++ new, ?trace, hev.prepend hpre, ?failed, ?only⟩
  case trace => rw [hfin.trace, htrace, hu, List.append_assoc]
  case failed =>
    intro he
    obtain ⟨_, v⟩ := r
    cases he
    obtain ⟨hcode, hsub, hbusy⟩ := hfin.error errBusFail v
    exact ⟨⟨hcode, hsub⟩, hbusy⟩
  case only =>
    intro hi hb
    obtain ⟨_ | e, v⟩ := r
    · exact absurd ((hok hi v).symm.trans hb.1) (by decide)
    · obtain ⟨hcode, hsub, -⟩ := hfin.error e v
      exact congrArg some (hr.eq_busFail ⟨hcode.symm.trans hb.1, hsub.symm.trans hb.2⟩)

/-- Every instruction reports its bus failure, and only that (R79, R150). -/
theorem exec_reports {i : Instr} {s t : State} (h : exec i s = .next t) : ∃ e new, Reports i s t e new := by
  cases exec_cases h with
  | early e f d _ _ he _ _ ht => exact ⟨none, [], .silent (ht ▸ rfl) (ht ▸ he.notBusFail)⟩
  | painted m f d _ _ _ _ ht =>
    have hcode : t.code = CODE_OK := ht ▸ rfl
    exact ⟨none, [], .silent (ht ▸ rfl) fun hb => absurd (hcode.symm.trans hb.1) (by decide)⟩
  | bus r _ _ _ hr ht =>
    exact ht ▸ hr.reports endWith_raisesError (fun _ _ => rfl) rfl (List.append_nil _).symm (by simp)
  | panel r hi hr _ ht =>
    exact ht ▸ hr.reports goOn_raisesError (fun hh => absurd hh (by simp [hi])) rfl (List.append_nil _).symm (by simp)
  | init _ _ ht =>
    obtain ⟨pulse, hpulse, hquiet⟩ := resetPulse_spec s
    exact ht ▸ (emitAll_issues (initCommands s.cfg) (resetPulse s)).reports endInit_raisesError (fun _ _ => rfl)
      (resetPulse_cfg s) (by rw [hpulse]) hquiet

/-- Settles O26: a failed transaction stands among the events exactly when the operation's last procedure returned
BUS_FAIL. -/
theorem noTransactionAfterAFailedOne : Obligations.NoTransactionAfterAFailedOne := by
  intro i s t h
  obtain ⟨e, new, hr⟩ := exec_reports h
  refine ⟨new, hr.trace, hr.events.early, fun hx => ?_, fun hi hnone hb => ?_⟩
  · obtain ⟨⟨hcode, hsub⟩, hbusy⟩ := hr.failed (hr.events.failed.mp hx)
    exact ⟨hcode, hsub, hbusy⟩
  · obtain ⟨x, hx, hf⟩ := hr.events.failed.mpr (hr.only hi hb)
    exact absurd hf (by rw [hnone x hx]; decide)

end Sys2Proof.Machine
end

section
/-! A panel command whose payload is over the ceiling. Settles O31. -/

namespace Sys2Proof.Machine

/-- After its command byte, answered OK, a payload over the ceiling is not sent (R63, R76; log 11). -/
theorem sendCommand_oversize {op : Byte} {P : List Byte} {s : State} (hok : s.nextOk = true)
    (hP : s.cfg.maxXfer < P.length) : sendCommand op P s = (some errOversize, s.afterTxn false [op]) := by
  have hcmd : runActs [.txn false [op]] s = (none, s.afterTxn false [op]) := by simp only [runActs, hok, if_true]
  rw [sendCommand, txCmd_eq, hcmd, Ran.andThen_none, if_pos (Nat.zero_lt_of_lt hP)]
  exact txData_oversize hP

theorem emitCommand_oversize {op : Byte} {P : List Byte} {s : State} (hok : s.nextOk = true)
    (hP : s.cfg.maxXfer < P.length) : emitCommand ⟨op, P⟩ s = (some errOversize, s.afterTxn false [op]) := by
  rw [emitCommand, sendCommand_oversize hok hP, Ran.andThen_some]

/-- Settles O31: each of the thirteen is the command INIT would send, and a window command's payload has four bytes. -/
theorem oversizePayloadEndsTheOperation : Obligations.OversizePayloadEndsTheOperation := by
  refine fun s hok => ⟨fun P hP => ?payload, fun u => ⟨rfl, rfl, rfl, rfl, rfl⟩, fun start stop hP => ?window⟩
  case payload =>
    have hends : ∀ op : Byte, (.next (goOn (emitCommand ⟨op, P⟩ s)) : Host.Outcome State Fault Refusal) =
        .next ((s.afterTxn false [op]).failInit errOversize) :=
      fun op => by rw [emitCommand_oversize hok hP, goOn_some]
    exact ⟨hends 0x00#8, hends 0x20#8, hends 0x26#8, hends 0x36#8, hends 0x3A#8, hends 0xB1#8, hends 0xB6#8,
      hends 0xC0#8, hends 0xC1#8, hends 0xC5#8, hends 0xC7#8, hends 0xE0#8, hends 0xE1#8⟩
  case window =>
    have hends : ∀ op : Byte, (.next (goOn (sendBounds op start stop s)) : Host.Outcome State Fault Refusal) =
        .next ((s.afterTxn false [op]).failInit errOversize) :=
      fun op => by rw [sendBounds_short op start stop s hP, hok, if_pos rfl, goOn_some]
    exact ⟨hends 0x2A#8, hends 0x2B#8⟩

end Sys2Proof.Machine
end

section
/-! The panel commands without an entry's payload as their acts: the bare commands and the two window commands. Settles O29
and O30. -/

namespace Sys2Proof.Machine

/-- A command without a payload is its command byte, inside INIT with SLEEP_OUT's wait after it (R81, R84). -/
theorem emitCommand_bare (op : Byte) (s : State) : emitCommand ⟨op, []⟩ s = runActs (initCommandActs s.cfg ⟨op, []⟩) s :=
  emitCommand_eq _ _ (Nat.zero_le _)

/-- Settles O29: each is the acts of a command without a payload, and SLEEP_OUT alone has a wait. -/
theorem bareCommandsSendOneByte : Obligations.BareCommandsSendOneByte := by
  refine fun s => ⟨?sleepOut, ?displayOn, ?writeRam⟩
  case sleepOut => show execSleepOut s = _; rw [execSleepOut, emitCommand_bare]; rfl
  case displayOn => show execDisplayOn s = _; rw [execDisplayOn, emitCommand_bare]; rfl
  case writeRam => show execWriteRam s = _; rw [execWriteRam, sendCommand_eq _ _ _ (Nat.zero_le _)]; rfl

/-- A window command, where its four bytes fit one transaction, is its command byte and the two bounds (R65, R85, R86). -/
theorem sendBounds_eq (op : Byte) (start stop : Half) {s : State} (h : 4 ≤ s.cfg.maxXfer) :
    sendBounds op start stop s = runActs [.txn false [op], .txn true (boundBytes start stop)] s :=
  sendCommand_eq op (boundBytes start stop) s h

/-- Settles O30: the payload of each is its two bounds, four bytes. -/
theorem windowCommandsSendTheirBounds : Obligations.WindowCommandsSendTheirBounds := by
  refine fun start stop s h => ⟨?column, ?page⟩
  case column => show execColumnAddr start stop s = _; rw [execColumnAddr, sendBounds_eq _ _ _ h, boundBytes]
  case page => show execPageAddr start stop s = _; rw [execPageAddr, sendBounds_eq _ _ _ h, boundBytes]

end Sys2Proof.Machine
end

section
/-! What the observer holds after transactions that the bus answers OK. Settles O32. -/

namespace Sys2Proof.Machine

/-- Fewer answers of the bus are OK where more are. -/
theorem State.allOk.mono {s : State} {m n : Nat} (h : s.allOk n) (hm : m ≤ n) : s.allOk m := by
  have htake := congrArg (List.take m) h
  rwa [List.take_take, List.take_replicate, Nat.min_eq_left hm] at htake

/-- A transaction answered OK delivers all its bytes to the panel (R163). -/
theorem State.afterTxn_panel_of_ok {s : State} (h : s.nextOk = true) (dc : Bool) (L : List Byte) :
    (s.afterTxn dc L).panel = s.panel.receive dc L := by
  rw [State.nextOk] at h
  rw [State.afterTxn]
  cases ha : (drawBus s.draws).1 with
  | ok => rfl
  | fail n => rw [ha] at h; cases h

/-- After transactions answered OK the panel has received each of them, in order (R163). -/
theorem runActs_txns_panel (L : List (Bool × List Byte)) : ∀ s : State, s.allOk L.length →
    (runActs (L.map fun x => .txn x.1 x.2) s).2.panel = L.foldl (fun p x => p.receive x.1 x.2) s.panel := by
  induction L with
  | nil => exact fun _ _ => rfl
  | cons x L ih =>
    intro s h
    obtain ⟨hok, hrest⟩ := h.uncons
    have hpanel := ih (s.afterTxn x.1 x.2) (hrest x.1 x.2)
    rw [State.afterTxn_panel_of_ok hok] at hpanel
    simp only [List.map_cons, runActs, hok, if_true, List.foldl_cons, hpanel]

/-- A panel command whose transactions are answered OK leaves the panel as they left it (R149, R163; log 17). -/
theorem goOn_txns_panel (L : List (Bool × List Byte)) {s : State} (h : s.allOk L.length) :
    (goOn (runActs (L.map fun x => .txn x.1 x.2) s)).panel = L.foldl (fun p x => p.receive x.1 x.2) s.panel := by
  have hnone := (runActs_txns_of_allOk L s h).1
  have hpanel := runActs_txns_panel L s h
  generalize runActs (L.map fun x => .txn x.1 x.2) s = r at hnone hpanel ⊢
  obtain ⟨e, u⟩ := r
  cases hnone
  exact hpanel

/-- A window command answered OK: the panel has received its byte and its two bounds. -/
theorem goOn_bounds_panel (op : Byte) (start stop : Half) {s : State} (h : s.allOk 2) :
    (goOn (runActs [.txn false [op], .txn true [hi8 start, lo8 start, hi8 stop, lo8 stop]] s)).panel =
      (s.panel.receive false [op]).receive true (boundBytes start stop) :=
  goOn_txns_panel [(false, [op]), (true, boundBytes start stop)] h

/-- Settles O32: the panel has received what the command sent, and reads both bounds back from their bytes. -/
theorem panelTakesTheWindow : Obligations.PanelTakesTheWindow := by
  refine fun start stop s t hfit hok => ⟨fun ht => ?column, fun ht => ?page, fun ht => ?writeRam⟩
  case column =>
    cases (windowCommandsSendTheirBounds start stop s hfit).1.symm.trans ht
    simp only [goOn_bounds_panel _ _ _ hok, Panel.receive_column, joinHalf_hi8_lo8, and_self]
  case page =>
    cases (windowCommandsSendTheirBounds start stop s hfit).2.symm.trans ht
    simp only [goOn_bounds_panel _ _ _ hok, Panel.receive_page, joinHalf_hi8_lo8, and_self]
  case writeRam =>
    cases (bareCommandsSendOneByte s).2.2.symm.trans ht
    have hpanel : (goOn (runActs [.txn false [0x2C#8]] s)).panel = s.panel.receive false [0x2C#8] :=
      goOn_txns_panel [(false, [0x2C#8])] (hok.mono (Nat.le_succ 1))
    simp only [hpanel, Panel.receive_writeRam, and_self]

end Sys2Proof.Machine
end

section
/-! INIT as its acts: the reset pulse, then the commands of the table, SLEEP_OUT and DISPLAY_ON. Settles O33. -/

namespace Sys2Proof.Machine

/-- The reset pulse with its two waits, as `initActs` begins (R102). -/
def pulseActs (p : Params) : List Act :=
  [.mark (.rstLine false), .mark (.wait .rstLow p.tRstLow), .mark (.rstLine true), .mark (.wait .rstSettle p.tRstSettle)]

/-- With RST released, the reset pulse is four events and leaves RST released (R24, R102). -/
theorem runActs_pulseActs {s : State} (h : s.rst = true) :
    runActs (pulseActs s.cfg) { s with initDone := false } = (none, resetPulse s) := by
  cases s
  cases h
  simp [pulseActs, runActs, resetPulse, State.setRst, State.log, State.waitFor]

/-- No table entry that INIT's check lets pass is SLEEP_OUT (R101 (a)), so none has a wait. -/
theorem initCommandActs_of_mem {p : Params} (h : initTableOk p = true) {c : WireCmd} (hc : c ∈ p.initTable) :
    initCommandActs p c = commandActs c.op c.payload := by
  have hbyte : tableByteOk c.op = true := (initTableOk_entry h hc).1
  refine initCommandActs_of_ne (fun hop => ?_) p
  rw [hop] at hbyte
  exact absurd hbyte (by decide)

/-- After the pulse, the acts of INIT are those of its commands, one after the other (R102). -/
theorem initActs_eq {p : Params} (h : initTableOk p = true) :
    initActs p = pulseActs p ++ (initCommands p).flatMap (initCommandActs p) := by
  have htable : p.initTable.flatMap (initCommandActs p) = p.initTable.flatMap fun c => commandActs c.op c.payload := by
    rw [List.flatMap_def, List.flatMap_def, List.map_congr_left fun c hc => initCommandActs_of_mem h hc]
  rw [initCommands, List.flatMap_append, htable]
  simp [initActs, pulseActs, initCommandActs]

/-- INIT's end drops what is still pending (R150; log 8). -/
theorem endInit_setPending (r : Ran) (cs : List WireCmd) : endInit (r.1, r.2.setPending cs) = endInit r := by
  obtain ⟨_ | e, s⟩ := r <;> rfl

/-- INIT with RST released and a table that passes its check is its acts, from a state with INIT_DONE cleared (R102). -/
theorem execInit_eq {s : State} (hrst : s.rst = true) (hok : initTableOk s.cfg = true) :
    execInit s = .next (endInit (runActs (initActs s.cfg) { s with initDone := false })) := by
  obtain ⟨cs, hsent⟩ := emitAll_eq (initCommands s.cfg) (resetPulse s)
    (by rw [resetPulse_cfg]; exact initCommands_fit hok)
  rw [execInit, if_pos hok, hsent, endInit_setPending, resetPulse_cfg, initActs_eq hok, runActs_append,
    runActs_pulseActs hrst, Ran.andThen_none]

/-- INIT is refused where its check fails (U13). -/
theorem execInit_refused {s : State} (h : initTableOk s.cfg = false) : execInit s = .refused .initTableIllFormed := by
  rw [execInit, h, if_neg Bool.false_ne_true]

/-- Settles O33: the check decides, and a table of two or more entries without a group of R101 (c) fails it. -/
theorem initReplaysTheTable : Obligations.InitReplaysTheTable :=
  fun _ hrst => ⟨execInit_eq hrst, execInit_refused,
    fun _ hb hmissing hlen => execInit_refused (initTableOk_eq_false hb hmissing hlen)⟩

end Sys2Proof.Machine
end

section
/-! The fill operations: when the check of a rectangle passes and which error it reports, and the framebuffer bytes after a
fill. Settles O35 to O38. -/

namespace Sys2Proof.Machine

/-- Inverted bounds are reported whether or not the rectangle is also outside (R103). -/
theorem checkRect_inverted {x1 y1 x2 y2 : Nat} (h : x2 < x1 ∨ y2 < y1) : checkRect x1 y1 x2 y2 = some errInverted := by
  rw [checkRect, if_pos h]

/-- Ordered bounds with an end outside the frame (R103). -/
theorem checkRect_outOfBounds {x1 y1 x2 y2 : Nat} (hx : x1 ≤ x2) (hy : y1 ≤ y2) (h : Config.W < x2 ∨ Config.H < y2) :
    checkRect x1 y1 x2 y2 = some errOutOfBounds := by
  rw [checkRect, if_neg (by omega), if_pos h]

/-- Ordered bounds inside the frame pass, an empty rectangle too (R103). -/
theorem checkRect_inside {x1 y1 x2 y2 : Nat} (hx : x1 ≤ x2) (hy : y1 ≤ y2) (hW : x2 ≤ Config.W) (hH : y2 ≤ Config.H) :
    checkRect x1 y1 x2 y2 = none := by
  rw [checkRect, if_neg (by omega), if_neg (by omega)]

section
variable {x1 y1 x2 y2 : Half}

/-- A fill whose check reports an error ends with it before any write (R106). -/
theorem execFillRegion_error {e : Err} (h : checkRect x1.toNat y1.toNat x2.toNat y2.toNat = some e) (color : Half)
    (s : State) : execFillRegion x1 y1 x2 y2 color s = .next (s.raiseErr e) := by
  rw [execFillRegion, h]

/-- A fill whose check passes stores the colour at every pixel of the rectangle (R106). -/
theorem execFillRegion_ok (h : checkRect x1.toNat y1.toNat x2.toNat y2.toNat = none) (color : Half) (s : State) :
    execFillRegion x1 y1 x2 y2 color s =
      .next (s.storePixels ((pix x1.toNat y1.toNat x2.toNat y2.toNat).map fun i => (i, color))).finishOk := by
  rw [execFillRegion, h]

end

/-- The framebuffer bytes after one colour is stored at rising pixels: the colour's at each of them, high byte first, and
what stood there at every other (R40). -/
theorem fbByte_storePixels_const {L : List Nat} {color : Half} (h : Memory.wf (L.map fun i => (i, color)) = true)
    (s : State) (i : Nat) :
    fbByte (s.storePixels (L.map fun i => (i, color))) (2 * i) = (if i ∈ L then hi8 color else fbByte s (2 * i)) ∧
    fbByte (s.storePixels (L.map fun i => (i, color))) (2 * i + 1) =
      (if i ∈ L then lo8 color else fbByte s (2 * i + 1)) := by
  rw [(fbByte_storePixels h s i).1, (fbByte_storePixels h s i).2, get?_map_const L color h]
  split
  · exact ⟨rfl, rfl⟩
  · exact ⟨rfl, rfl⟩

/-- Settles O36: the check passes, and the rectangle's pixels rise. -/
theorem fillRegionIsLocal : Obligations.FillRegionIsLocal := by
  intro x1 y1 x2 y2 color s hx hy hW hH
  exact ⟨_, execFillRegion_ok (checkRect_inside hx hy hW hH) color s, fbByte_storePixels_const (pix_map_wf hW color) s⟩

/-- Settles O37: the check reports the error, inverted bounds first. -/
theorem fillRegionErrors : Obligations.FillRegionErrors := fun _ _ _ _ color s =>
  ⟨fun h => execFillRegion_error (checkRect_inverted h) color s,
    fun hx hy h => execFillRegion_error (checkRect_outOfBounds hx hy h) color s⟩

/-- Settles O38: the rectangle of the whole frame passes the check and is every pixel in order. -/
theorem fillAllEqualsFullFillRegion : Obligations.FillAllEqualsFullFillRegion :=
  fun c s => (execFillRegion_full c s).symm

/-- The pixels of the whole frame (R104, R108). -/
theorem mem_pix_full (i : Nat) : i ∈ pix 0 0 Config.W Config.H ↔ i < Config.NPIX := by
  rw [pix_full, List.mem_range]

/-- Settles O35: FILL_ALL is the fill of the whole frame, whose pixels are those below `NPIX`. -/
theorem fillAllSetsEveryPixel : Obligations.FillAllSetsEveryPixel := by
  intro color s
  obtain ⟨m, hexec, hbytes⟩ := fillRegionIsLocal 0#16 0#16 240#16 320#16 color s (Nat.zero_le _) (Nat.zero_le _)
    (Nat.le_refl _) (Nat.le_refl _)
  refine ⟨m, (fillAllEqualsFullFillRegion color s).trans hexec, fun i => ⟨fun hi => ?inside, fun hi => ?past⟩⟩
  case inside =>
    have hmem : i ∈ pix 0 0 Config.W Config.H := (mem_pix_full i).mpr hi
    have hhigh : fbByte { s with fbb := m } (2 * i) = hi8 color := (hbytes i).1.trans (if_pos hmem)
    have hlow : fbByte { s with fbb := m } (2 * i + 1) = lo8 color := (hbytes i).2.trans (if_pos hmem)
    exact ⟨hhigh, hlow, by rw [nativePixel, hhigh, hlow, conv]⟩
  case past =>
    have hmem : i ∉ pix 0 0 Config.W Config.H := fun h => Nat.not_lt.mpr hi ((mem_pix_full i).mp h)
    exact ⟨(hbytes i).1.trans (if_neg hmem), (hbytes i).2.trans (if_neg hmem)⟩

end Sys2Proof.Machine
end

section
/-! The chunk plans: the least chunk count of a full-frame send, and the greedy cut of a packed list. Settles O42 and O43. -/

namespace Sys2Proof.Machine

/-! ## The full-frame plan -/

/-- What the search of `nFull` asks of a count `n`: it divides the frame and its chunks fit the ceiling `m` (R116). -/
def fitsFrame (m n : Nat) : Bool := decide (Config.NPIX % n = 0) && decide (2 * Config.NPIX / n ≤ m)

theorem fitsFrame_iff {m n : Nat} : fitsFrame m n = true ↔ Config.NPIX % n = 0 ∧ 2 * Config.NPIX / n ≤ m := by
  simp [fitsFrame]

theorem nFull_eq_find (m : Nat) : nFull m = ((List.range' 1 Config.NPIX).find? (fitsFrame m)).getD 1 := rfl

/-- `N_FULL` is the first count that fits. -/
theorem nFull_eq {m n : Nat} (hfits : fitsFrame m n = true) (hn : 1 ≤ n ∧ n < 1 + Config.NPIX)
    (hfirst : ∀ j < n, 1 ≤ j → fitsFrame m j = false) : nFull m = n := by
  have hfound : (List.range' 1 Config.NPIX).find? (fitsFrame m) = some n :=
    List.find?_range'_eq_some.mpr ⟨hfits, List.mem_range'_1.mpr hn, fun j h1 hj => by rw [hfirst j hj h1]; rfl⟩
  rw [nFull_eq_find, hfound, Option.getD_some]

/-- From a ceiling of one pixel up some count fits, one pixel a chunk at the latest, and `N_FULL` is the least. -/
theorem nFull_spec {m : Nat} (hm : 2 ≤ m) :
    1 ≤ nFull m ∧ Config.NPIX % nFull m = 0 ∧ 2 * Config.NPIX / nFull m ≤ m ∧
      ∀ n, 1 ≤ n → fitsFrame m n = true → nFull m ≤ n := by
  have hlast : ((List.range' 1 Config.NPIX).find? (fitsFrame m)).isSome = true :=
    List.find?_isSome.mpr
      ⟨Config.NPIX, List.mem_range'_1.mpr (by decide), fitsFrame_iff.mpr ⟨by decide, by simpa using hm⟩⟩
  obtain ⟨n, hn⟩ := Option.isSome_iff_exists.mp hlast
  obtain ⟨hfits, hrange, hfirst⟩ := List.find?_range'_eq_some.mp hn
  obtain ⟨hdvd, hfit⟩ := fitsFrame_iff.mp hfits
  rw [nFull_eq_find, hn, Option.getD_some]
  refine ⟨(List.mem_range'_1.mp hrange).1, hdvd, hfit, fun j h1 hj => Nat.not_lt.mp fun hlt => ?_⟩
  simpa [hj] using hfirst j h1 hlt

/-- Settles O42: `N_FULL` is the first fit, and each of the four values is one. -/
theorem fullFrameChunkCountIsLeast : Obligations.FullFrameChunkCountIsLeast := by
  refine ⟨fun m hm => ?least, nFull_eq (by decide) (by decide) (by decide), nFull_eq (by decide) (by decide) (by decide),
    nFull_eq (by decide) (by decide) (by decide), nFull_eq (by decide) (by decide) (by decide)⟩
  obtain ⟨hpos, hdvd, hfit, hleast⟩ := nFull_spec hm
  exact ⟨hpos, hdvd, hfit, fun n h1 hn hle => hleast n h1 (fitsFrame_iff.mpr ⟨hn, hle⟩)⟩

/-! ## The greedy cut -/

/-- Chunk `k` of the greedy cut exists exactly when the list reaches past its start (R117). -/
theorem lt_ceilDiv_iff {a b k : Nat} (hb : 0 < b) : k < ceilDiv a b ↔ k * b < a := by
  rw [Nat.mul_comm]
  exact lt_iff_lt_of_le_iff_le (ceilDiv_le_iff_le_mul hb)

/-- Counting in pixels or in bytes gives the same number of chunks. -/
theorem ceilDiv_two_mul {p q : Nat} (hq : 0 < q) : ceilDiv (2 * p) (2 * q) = ceilDiv p q := by
  refine eq_of_forall_lt_iff fun k => ?_
  rw [lt_ceilDiv_iff (by omega), lt_ceilDiv_iff hq, Nat.mul_left_comm]
  omega

theorem greedyChunks_length (L : List Byte) (size : Nat) : (greedyChunks L size).length = ceilDiv L.length size := by
  simp [greedyChunks]

/-- Consecutive slices of one size join to the start of the list. -/
theorem flatten_slices (L : List Byte) (size n : Nat) :
    ((List.range n).map fun k => (L.drop (k * size)).take size).flatten = L.take (n * size) := by
  induction n with
  | zero => simp
  | succ n ih => rw [List.range_succ, List.map_append, List.flatten_append, ih, Nat.succ_mul, List.take_add]; simp

/-- The greedy cut loses no byte (R117). -/
theorem greedyChunks_flatten (L : List Byte) {size : Nat} (h : 0 < size) : (greedyChunks L size).flatten = L := by
  rw [greedyChunks, flatten_slices]
  exact List.take_of_length_le (Nat.not_lt.mp fun hlt => (lt_irrefl _) ((lt_ceilDiv_iff h).mpr hlt))

/-- A chunk of the greedy cut starts inside the list and runs to its full size or to the end of the list. -/
theorem mem_greedyChunks {L C : List Byte} {size : Nat} (h : 0 < size) (hC : C ∈ greedyChunks L size) :
    ∃ k, k * size < L.length ∧ C.length = min size (L.length - k * size) := by
  obtain ⟨k, hk, rfl⟩ := List.mem_map.mp hC
  exact ⟨k, (lt_ceilDiv_iff h).mp (List.mem_range.mp hk), by simp⟩

/-- Every chunk of the greedy cut but the last has the full size (R117). -/
theorem length_of_mem_dropLast_greedyChunks {L C : List Byte} {size : Nat} (h : 0 < size)
    (hC : C ∈ (greedyChunks L size).dropLast) : C.length = size := by
  rw [greedyChunks, ← List.map_dropLast, List.dropLast_eq_take, List.length_range, List.take_range] at hC
  obtain ⟨k, hk, rfl⟩ := List.mem_map.mp hC
  have hk : k < min (ceilDiv L.length size - 1) (ceilDiv L.length size) := List.mem_range.mp hk
  have hnext : (k + 1) * size < L.length := (lt_ceilDiv_iff h).mp (by omega)
  rw [Nat.succ_mul] at hnext
  rw [List.length_take, List.length_drop]
  omega

/-- Settles O43: the cut of a list of whole pixels at a size of `PMAX` pixels, which is under the ceiling. -/
theorem greedyChunksCoverTheList : Obligations.GreedyChunksCoverTheList := by
  intro m L p hm hp hL
  have hq : 0 < (m - 1) / 2 := by omega
  have hsize : 0 < 2 * ((m - 1) / 2) := by omega
  refine ⟨greedyChunks_flatten L hsize, ?count, fun C hC => ?chunk, fun C => length_of_mem_dropLast_greedyChunks hsize⟩
  case count => rw [greedyChunks_length, hL, ceilDiv_two_mul hq, ceilDiv]
  case chunk =>
    obtain ⟨k, hk, hlen⟩ := mem_greedyChunks hsize hC
    rw [hL, Nat.mul_left_comm] at hk hlen
    omega

end Sys2Proof.Machine
end

section
/-! The two sends: when the check of a send rectangle passes, what a send that passes its checks does, and how it ends where
it does not. Settles O44, O45 and O46. -/

namespace Sys2Proof.Machine

/-! ## The check of a send rectangle -/

theorem checkSendRect_inverted {x1 y1 x2 y2 : Nat} (h : x2 < x1 ∨ y2 < y1) :
    checkSendRect x1 y1 x2 y2 = some errInverted := by
  rw [checkSendRect, checkRect_inverted h]

theorem checkSendRect_outOfBounds {x1 y1 x2 y2 : Nat} (hx : x1 ≤ x2) (hy : y1 ≤ y2) (h : Config.W < x2 ∨ Config.H < y2) :
    checkSendRect x1 y1 x2 y2 = some errOutOfBounds := by
  rw [checkSendRect, checkRect_outOfBounds hx hy h]

/-- A rectangle inside the frame without a pixel (R110). -/
theorem checkSendRect_empty {x1 y1 x2 y2 : Nat} (hx : x1 ≤ x2) (hy : y1 ≤ y2) (hW : x2 ≤ Config.W) (hH : y2 ≤ Config.H)
    (h : x1 = x2 ∨ y1 = y2) : checkSendRect x1 y1 x2 y2 = some errEmpty := by
  rw [checkSendRect, checkRect_inside hx hy hW hH]
  exact if_pos h

/-- The check passes a rectangle inside the frame that holds a pixel (R110). -/
theorem checkSendRect_inside {x1 y1 x2 y2 : Nat} (hx : x1 < x2) (hy : y1 < y2) (hW : x2 ≤ Config.W) (hH : y2 ≤ Config.H) :
    checkSendRect x1 y1 x2 y2 = none := by
  rw [checkSendRect, checkRect_inside hx.le hy.le hW hH]
  exact if_neg (by omega)

theorem offsetsOk_iff (p : Params) : offsetsOk p = true ↔ p.xOff + 240 ≤ 65536 ∧ p.yOff + 320 ≤ 65536 := by
  rw [offsetsOk, Bool.and_eq_true, decide_eq_true_eq, decide_eq_true_eq]

theorem isFullFrame_iff (x1 y1 x2 y2 : Nat) :
    isFullFrame x1 y1 x2 y2 = true ↔ x1 = 0 ∧ y1 = 0 ∧ x2 = 240 ∧ y2 = 320 := by
  simp [isFullFrame, and_assoc]

/-! ## What the parameters decide -/

/-- With parameters it can use, SEND_ALL is the full-frame send (R120). -/
theorem execSendAll_eq {s : State} (hm : 3 ≤ s.cfg.maxXfer) (ho : offsetsOk s.cfg = true) :
    execSendAll s = .next (endWith (sendFull s)) := by
  rw [execSendAll, if_neg (by omega), if_pos ho]

theorem execSendAll_ceilingTooSmall {s : State} (hm : s.cfg.maxXfer < 3) : execSendAll s = .refused .ceilingTooSmall := by
  rw [execSendAll, if_pos hm]

theorem execSendAll_offsetTooLarge {s : State} (hm : 3 ≤ s.cfg.maxXfer) (ho : ¬ offsetsOk s.cfg = true) :
    execSendAll s = .refused .offsetTooLarge := by
  rw [execSendAll, if_neg (by omega), if_neg ho]

section
variable {x1 y1 x2 y2 : Half} {s : State}

/-- A rectangle that fails its check ends the send before any bus event (R110). -/
theorem execSendRegion_error {e : Err} (h : checkSendRect x1.toNat y1.toNat x2.toNat y2.toNat = some e) :
    execSendRegion x1 y1 x2 y2 s = .next (s.raiseErr e) := by
  rw [execSendRegion, h]

variable (h : checkSendRect x1.toNat y1.toNat x2.toNat y2.toNat = none)
include h

theorem execSendRegion_ceilingTooSmall (hm : s.cfg.maxXfer < 3) :
    execSendRegion x1 y1 x2 y2 s = .refused .ceilingTooSmall := by
  rw [execSendRegion, h]
  exact if_pos hm

theorem execSendRegion_offsetTooLarge (hm : 3 ≤ s.cfg.maxXfer) (ho : ¬ offsetsOk s.cfg = true) :
    execSendRegion x1 y1 x2 y2 s = .refused .offsetTooLarge := by
  rw [execSendRegion, h]
  exact (if_neg (by omega)).trans (if_neg ho)

/-- With parameters it can use, SEND_REGION of a strict sub-region is the sub-region send (R112, R119). -/
theorem execSendRegion_sub (hm : 3 ≤ s.cfg.maxXfer) (ho : offsetsOk s.cfg = true)
    (hstrict : ¬ isFullFrame x1.toNat y1.toNat x2.toNat y2.toNat = true) :
    execSendRegion x1 y1 x2 y2 s = .next (endWith (sendSub x1.toNat y1.toNat x2.toNat y2.toNat s)) := by
  rw [execSendRegion, h]
  exact (if_neg (by omega)).trans ((if_pos ho).trans (by rw [if_neg hstrict]))

end

/-! ## The window pair and the chunks -/

/-- Both sends from the window pair on: chunks read from a memory that the bus does not change, each of a length that fits,
are one data transaction each after the window's five (R99, R118). -/
theorem windowPair_sendChunks_eq {src : State → Nat → Nat → List Byte} {chunks : List (List Byte)} {x1 y1 x2 y2 : Nat}
    (s : State) (hm : 4 ≤ s.cfg.maxXfer) (hsrc : ∀ t, BusOnly s t → src t = src s) (plan : Nat → List (Nat × Nat))
    (hchunks : (plan s.cfg.maxXfer).map (fun c => src s c.1 c.2) = chunks)
    (hsize : ∀ C ∈ chunks, 1 ≤ C.length ∧ C.length ≤ s.cfg.maxXfer) :
    ((windowPair x1 y1 x2 y2 s).andThen fun t => sendChunks src (plan t.cfg.maxXfer) t) =
      runActs (windowActs s.cfg x1 y1 x2 y2 ++ chunkActs chunks) s := by
  rw [windowPair_eq _ _ _ _ s hm, runActs_append]
  refine Ran.andThen_congr fun _ => ?_
  have hbus := runActs_busOnly (windowActs s.cfg x1 y1 x2 y2) s
  generalize (runActs (windowActs s.cfg x1 y1 x2 y2) s).2 = t at hbus
  have hcfg : t.cfg = s.cfg := by rw [hbus]
  have hread : ∀ u, BusOnly t u → src u = src t := fun u hu => by
    rw [hsrc t hbus]
    exact hsrc u (by rw [BusOnly] at hu hbus ⊢; rw [hu, hbus])
  rw [hcfg, sendChunks_eq src _ t (fun u hu c _ => by rw [hread u hu]) fun c hc => ?_, hsrc t hbus, hchunks]
  rw [hcfg, hsrc t hbus, ← List.length_pos_iff]
  exact hsize _ (hchunks ▸ List.mem_map_of_mem hc)

/-! ## The full-frame send -/

theorem fbRun_eq_map (s : State) (a n : Nat) : fbRun s a n = (List.range' a n).map (fbByte s) :=
  Memory.run_eq_map _ n a s.fbb

/-- The bus does not change what a read of the framebuffer returns. -/
theorem fbRun_busOnly {s t : State} (h : BusOnly s t) : fbRun t = fbRun s := by rw [h]; rfl

/-- The chunks that the full-frame plan reads (R116). -/
theorem fullPlan_chunks (s : State) (m : Nat) :
    (fullPlan m).map (fun c => fbRun s c.1 c.2) = fullChunks s (nFull m) := by
  simp [fullPlan, fullChunks, fbRun_eq_map]

/-- A chunk of the full-frame plan is not empty and fits the ceiling (R116). -/
theorem fullChunk_size {s : State} {m : Nat} {C : List Byte} (hm : 2 ≤ m) (hC : C ∈ fullChunks s (nFull m)) :
    1 ≤ C.length ∧ C.length ≤ m := by
  obtain ⟨k, -, rfl⟩ := List.mem_map.mp hC
  obtain ⟨hpos, hdvd, hfit, -⟩ := nFull_spec hm
  have hle : nFull m ≤ Config.NPIX := Nat.le_of_dvd (by decide) (Nat.dvd_of_mod_eq_zero hdvd)
  rw [List.length_map, List.length_range']
  exact ⟨Nat.div_pos (hle.trans (by decide)) hpos, hfit⟩

/-- The full-frame send is the window of the whole frame and then its chunks (R116, R119, R120). -/
theorem sendFull_eq {s : State} (hm : 4 ≤ s.cfg.maxXfer) :
    sendFull s = runActs (windowActs s.cfg 0 0 240 320 ++ chunkActs (fullChunks s (nFull s.cfg.maxXfer))) s := by
  refine windowPair_sendChunks_eq s hm (fun _ => fbRun_busOnly) fullPlan (fullPlan_chunks s _) fun C hC => ?_
  exact fullChunk_size (by omega) hC

/-- Settles O44: the parameters pass their checks, and the whole frame as a rectangle is SEND_ALL. -/
theorem sendAllSendsWindowThenChunks : Obligations.SendAllSendsWindowThenChunks := by
  intro s hm hx hy
  refine ⟨?_, execSendRegion_full s⟩
  rw [← sendFull_eq hm]
  exact execSendAll_eq (by omega) ((offsetsOk_iff s.cfg).mpr ⟨hx, hy⟩)

/-! ## The sub-region send -/

/-- The state after the allocator's draw, which is taken with ALLOC_DRAW only (R114). -/
def State.takeAlloc (s : State) : State :=
  { s with draws := if s.cfg.allocDraw then (drawAlloc s.draws).2 else s.draws }

@[simp] theorem State.takeAlloc_cfg (s : State) : s.takeAlloc.cfg = s.cfg := rfl

section
variable {size : Nat} {s : State}

/-- The scratch is obtained when the size fits and the allocator does not fail (R114). -/
theorem acquireScratch_granted (hcap : size ≤ s.cfg.scratchCap)
    (halloc : s.cfg.allocDraw = false ∨ (drawAlloc s.draws).1 = false) :
    acquireScratch size s = (none, s.takeAlloc.withScratch s.scr true) := by
  rw [acquireScratch, if_neg (by omega)]
  cases hdraw : s.cfg.allocDraw with
  | false => simp [State.takeAlloc, State.withScratch, hdraw]
  | true =>
    have hok : (drawAlloc s.draws).1 = false := halloc.resolve_left (by simp [hdraw])
    simp [State.takeAlloc, State.withScratch, hdraw, hok]

/-- A size over the capacity is refused before the allocator is asked (R114). -/
theorem acquireScratch_tooLarge (hcap : s.cfg.scratchCap < size) :
    acquireScratch size s = (some (errResource size), s) := by
  rw [acquireScratch, if_pos hcap]

/-- With ALLOC_DRAW the allocator may fail (R114). -/
theorem acquireScratch_failed (hcap : size ≤ s.cfg.scratchCap) (hdraw : s.cfg.allocDraw = true)
    (hfail : (drawAlloc s.draws).1 = true) :
    acquireScratch size s = (some (errResource size), { s with draws := (drawAlloc s.draws).2 }) := by
  rw [acquireScratch, if_neg (by omega), if_pos hdraw]
  exact if_pos hfail

end

/-- The bus does not change what a read of the scratch returns. -/
theorem scrRun_busOnly {s t : State} (h : BusOnly s t) : scrRun t = scrRun s := by rw [h]; rfl

/-- The slices of the sub-region plan, read from a scratch that the packed list was laid into, are the greedy cut of that
list (R115, R117). -/
theorem subPlan_chunks {u : State} {L : List Byte} {old : Mem} {m p : Nat} (hm : 3 ≤ m) (hL : L.length = 2 * p)
    (hscr : u.scr = Memory.overlay (cellsFrom 0 L) old) :
    (subPlan m p).map (fun c => scrRun u c.1 c.2) = greedyChunks L (2 * pMax m) := by
  have hq : 0 < pMax m := by rw [pMax]; omega
  rw [subPlan, greedyChunks, hL, ceilDiv_two_mul hq, List.map_map]
  refine List.map_congr_left fun k hk => ?_
  have hstart : k * pMax m < p := (lt_ceilDiv_iff hq).mp (List.mem_range.mp hk)
  have hend : 2 * min ((k + 1) * pMax m) p = 2 * min (k * pMax m + pMax m) p := by rw [Nat.succ_mul k]
  have hread : scrRun u (2 * k * pMax m) (2 * min ((k + 1) * pMax m) p - 2 * k * pMax m) =
      (L.drop (2 * k * pMax m)).take (2 * min ((k + 1) * pMax m) p - 2 * k * pMax m) := by
    rw [scrRun, hscr, run_slice _ _ _ _ _ (by rw [hL, hend, Nat.mul_assoc]; omega)]
  refine hread.trans ?_
  rw [Nat.mul_left_comm, ← Nat.mul_assoc, List.take_eq_take_iff, List.length_drop, hL, hend, Nat.mul_assoc]
  omega

/-- A chunk of the greedy cut is not empty and is at most the size of the cut. -/
theorem greedyChunk_size {L C : List Byte} {size : Nat} (h : 0 < size) (hC : C ∈ greedyChunks L size) :
    1 ≤ C.length ∧ C.length ≤ size := by
  obtain ⟨k, hk, hlen⟩ := mem_greedyChunks h hC
  omega

/-- `s` after the allocator's draw, with the packed rectangle laid into the scratch (R114, R115). -/
def packedState (s : State) (x1 y1 x2 y2 : Nat) : State :=
  s.takeAlloc.withScratch (Memory.overlay (cellsFrom 0 (packedBytes s x1 y1 x2 y2)) s.scr) true

@[simp] theorem packedState_cfg (s : State) (x1 y1 x2 y2 : Nat) : (packedState s x1 y1 x2 y2).cfg = s.cfg := rfl

section
variable {x1 y1 x2 y2 : Nat} {s : State} (hcap : 2 * ((x2 - x1) * (y2 - y1)) ≤ s.cfg.scratchCap)
  (halloc : s.cfg.allocDraw = false ∨ (drawAlloc s.draws).1 = false)
include hcap halloc

/-- With its scratch obtained, the send is the window pair and the chunks from the packed state (R119). -/
theorem sendSub_granted : sendSub x1 y1 x2 y2 s =
    (windowPair x1 y1 x2 y2 (packedState s x1 y1 x2 y2)).andThen fun u =>
      sendChunks scrRun (subPlan u.cfg.maxXfer ((x2 - x1) * (y2 - y1))) u := by
  simp only [sendSub, acquireScratch_granted hcap halloc, Ran.andThen_none, packed_eq]
  rfl

/-- The sub-region send is the window of the rectangle and then the packed bytes in greedy chunks (R117, R119). -/
theorem sendSub_eq (hm : 4 ≤ s.cfg.maxXfer) : sendSub x1 y1 x2 y2 s =
    runActs (windowActs s.cfg x1 y1 x2 y2 ++ chunkActs (greedyChunks (packedBytes s x1 y1 x2 y2) (2 * pMax s.cfg.maxXfer)))
      (packedState s x1 y1 x2 y2) := by
  rw [sendSub_granted hcap halloc]
  refine windowPair_sendChunks_eq (packedState s x1 y1 x2 y2) hm (fun _ => scrRun_busOnly)
    (fun m => subPlan m ((x2 - x1) * (y2 - y1))) (subPlan_chunks (Nat.le_of_succ_le hm) (packedBytes_length s x1 y1 x2 y2) rfl)
    fun C hC => ?_
  obtain ⟨hpos, hle⟩ := greedyChunk_size (by rw [pMax]; omega) hC
  exact ⟨hpos, hle.trans (by rw [packedState_cfg, pMax]; omega)⟩

end

/-- The end of an operation releases and empties the scratch (R150; log 7). -/
theorem endWith_withScratch (r : Ran) (m : Mem) (held : Bool) : endWith (r.1, r.2.withScratch m held) = endWith r := by
  obtain ⟨_ | e, t⟩ := r <;> rfl

/-- Settles O45: the checks pass, and the end of the operation forgets the scratch. -/
theorem sendRegionSendsPackedChunks : Obligations.SendRegionSendsPackedChunks := by
  intro x1 y1 x2 y2 s hx hy hW hH hstrict hm hox hoy halloc hcap
  have hsend := execSendRegion_sub (checkSendRect_inside hx hy hW hH) (by omega) ((offsetsOk_iff s.cfg).mpr ⟨hox, hoy⟩)
    (fun h => hstrict ((isFullFrame_iff _ _ _ _).mp h))
  rw [sendSub_eq hcap halloc hm, packedState, runActs_withScratch, endWith_withScratch] at hsend
  exact hsend

/-! ## The errors -/

/-- At a ceiling under four bytes the window pair ends the send after its first command (R76, R99; log 11). -/
theorem endWith_windowPair_short {x1 y1 x2 y2 : Nat} (s : State) {k : State → Ran} (hm : s.cfg.maxXfer < 4) :
    endWith ((windowPair x1 y1 x2 y2 s).andThen k) = windowCut s := by
  rw [windowPair_short _ _ _ _ s hm, Ran.andThen_some, endWith_some, windowCut]
  split <;> rfl

/-- Settles O46: one check fails in each clause, and at a ceiling of 3 the window pair. -/
theorem sendRegionErrors : Obligations.SendRegionErrors := by
  intro x1 y1 x2 y2 s
  refine ⟨fun h => ?inverted, fun hx hy h => ?outOfBounds, fun hx hy hW hH h => ?empty,
    fun hx hy hW hH hstrict hm hox hoy => ?scratch, fun hx hy hW hH => ?parameters, execSendAll_ceilingTooSmall,
    fun hm ho => ?offsets, fun hm hox hoy => ?ceiling3⟩
  case inverted => exact execSendRegion_error (checkSendRect_inverted h)
  case outOfBounds => exact execSendRegion_error (checkSendRect_outOfBounds hx hy h)
  case empty => exact execSendRegion_error (checkSendRect_empty hx hy hW hH h)
  case scratch =>
    have hsend : exec (.sendRegion x1 y1 x2 y2) s = _ := execSendRegion_sub (checkSendRect_inside hx hy hW hH) hm
      ((offsetsOk_iff s.cfg).mpr ⟨hox, hoy⟩) (fun h => hstrict ((isFullFrame_iff _ _ _ _).mp h))
    refine ⟨fun hcap => ?_, fun hcap hdraw hfail => ?_, fun hcap halloc hm => ?_⟩
    · rw [hsend, sendSub, acquireScratch_tooLarge hcap]; rfl
    · rw [hsend, sendSub, acquireScratch_failed hcap hdraw hfail]; rfl
    · have hshort : s.cfg.maxXfer < 4 := by omega
      rw [hsend, sendSub_granted hcap halloc, endWith_windowPair_short (packedState s _ _ _ _) hshort]; rfl
  case parameters =>
    have hcheck := checkSendRect_inside hx hy hW hH
    exact ⟨execSendRegion_ceilingTooSmall hcheck, fun hm ho => execSendRegion_offsetTooLarge hcheck hm
      (by rw [offsetsOk_iff]; omega)⟩
  case offsets => exact execSendAll_offsetTooLarge hm (by rw [offsetsOk_iff]; omega)
  case ceiling3 =>
    have hsend : execSendAll s = .next (windowCut s) := by
      rw [execSendAll_eq (by omega) ((offsetsOk_iff s.cfg).mpr ⟨hox, hoy⟩), sendFull,
        endWith_windowPair_short s (by omega)]
    exact ⟨hsend, (execSendRegion_full s).trans hsend⟩

end Sys2Proof.Machine
end

section
/-! The bytes of a send that ends OK: what such a send has passed and sent, and that its chunks are the packed rectangle.
Settles O47. -/

namespace Sys2Proof.Machine

/-! ## The events of a run that ends OK -/

/-- The event that an act puts into the trace when the bus answers it OK (R29). -/
def Act.done : Act → Event
  | .txn dc L => .txn dc L true
  | .mark e => e

/-- A run without an error has put every act into the trace, in order (R72, R79). -/
theorem runActs_trace_of_ok (acts : List Act) : ∀ s : State, (runActs acts s).1 = none →
    (runActs acts s).2.trace = s.trace ++ acts.map Act.done := by
  induction acts with
  | nil => exact fun s _ => (List.append_nil _).symm
  | cons x acts ih =>
    intro s h
    rw [List.map_cons, List.append_cons]
    cases x with
    | mark e => exact ih _ h
    | txn dc L =>
      by_cases hok : s.nextOk = true
      · simp only [runActs, hok, if_true] at h ⊢
        rw [ih _ h, State.afterTxn, hok]
        rfl
      · simp [runActs, hok] at h

/-- A host operation over the bus that ends with `CODE_OK` has issued all its acts. -/
theorem endWith_trace_of_ok {acts : List Act} {s : State} (h : (endWith (runActs acts s)).code = CODE_OK) :
    (endWith (runActs acts s)).trace = s.trace ++ acts.map Act.done := by
  have hnone : (runActs acts s).1 = none := by
    refine (runActs_error acts s).resolve_right fun he => ?_
    generalize runActs acts s = r at h he
    obtain ⟨e, t⟩ := r
    cases he
    exact absurd h (show errBusFail.code ≠ CODE_OK by decide)
  rw [endWith_trace, runActs_trace_of_ok acts s hnone]

/-- The window pair is five transactions, WRITE_RAM last (R99). -/
theorem windowActs_done (p : Params) (x1 y1 x2 y2 : Nat) :
    ((windowActs p x1 y1 x2 y2).map Act.done).length = 5 ∧
    ((windowActs p x1 y1 x2 y2).map Act.done).getLast? = some (.txn false [0x2C#8] true) := ⟨rfl, rfl⟩

/-! ## The chunks of a send -/

/-- The chunks of a send of a rectangle: they join to its packed bytes, each fits the ceiling, and each is under it on the
sub-region path (R121). -/
structure CutsRectangle (s : State) (x1 y1 x2 y2 : Nat) (chunks : List (List Byte)) : Prop where
  flatten : chunks.flatten = packedBytes s x1 y1 x2 y2
  fits : ∀ C ∈ chunks, C.length ≤ s.cfg.maxXfer
  strict : ¬ (x1 = 0 ∧ y1 = 0 ∧ x2 = 240 ∧ y2 = 320) → ∀ C ∈ chunks, C.length < s.cfg.maxXfer

/-- Consecutive blocks of `c` addresses are all addresses in order. -/
theorem flatMap_blocks {β : Type} (f : Nat → β) (c n : Nat) :
    ((List.range n).flatMap fun k => (List.range' (k * c) c).map f) = (List.range (n * c)).map f := by
  induction n with
  | zero => simp
  | succ n ih =>
    rw [List.range_succ, List.flatMap_append, ih, List.flatMap_singleton, ← List.map_append, List.range_eq_range',
      Nat.succ_mul, List.range_eq_range', ← List.range'_append_1, Nat.zero_add]

/-- The packed whole frame is the framebuffer (R113). -/
theorem packedBytes_full (s : State) :
    packedBytes s 0 0 Config.W Config.H = (List.range Config.FB_BYTES).map (fbByte s) := by
  have hpair : ∀ i, [fbByte s (2 * i), fbByte s (2 * i + 1)] = (List.range' (i * 2) 2).map (fbByte s) :=
    fun i => by rw [Nat.mul_comm]; rfl
  simp only [packedBytes, pix_full, hpair]
  exact flatMap_blocks (fbByte s) 2 Config.NPIX

/-- The chunks of the full-frame plan (R116). -/
theorem fullChunks_cut {s : State} (hm : 2 ≤ s.cfg.maxXfer) :
    CutsRectangle s 0 0 240 320 (fullChunks s (nFull s.cfg.maxXfer)) where
  flatten := by
    obtain ⟨-, hdvd, -⟩ := nFull_spec hm
    have hframe : nFull s.cfg.maxXfer * (Config.FB_BYTES / nFull s.cfg.maxXfer) = Config.FB_BYTES :=
      Nat.mul_div_cancel' ((Nat.dvd_of_mod_eq_zero hdvd).trans (by decide))
    rw [fullChunks, ← List.flatMap_def, flatMap_blocks, hframe]
    exact (packedBytes_full s).symm
  fits C hC := (fullChunk_size hm hC).2
  strict h := absurd ⟨rfl, rfl, rfl, rfl⟩ h

/-- The greedy cut at `PMAX` pixels (R117). -/
theorem greedyChunks_cut {s : State} (hm : 3 ≤ s.cfg.maxXfer) (x1 y1 x2 y2 : Nat) :
    CutsRectangle s x1 y1 x2 y2 (greedyChunks (packedBytes s x1 y1 x2 y2) (2 * ((s.cfg.maxXfer - 1) / 2))) := by
  have hsize : 0 < 2 * ((s.cfg.maxXfer - 1) / 2) := by omega
  have hunder : ∀ C ∈ greedyChunks (packedBytes s x1 y1 x2 y2) (2 * ((s.cfg.maxXfer - 1) / 2)),
      C.length < s.cfg.maxXfer := fun C hC => by
    have := (greedyChunk_size hsize hC).2
    omega
  exact ⟨greedyChunks_flatten _ hsize, fun C hC => (hunder C hC).le, fun _ => hunder⟩

/-! ## What a send that ends OK has done -/

section
variable {x1 y1 x2 y2 : Half} {s t : State} (h : exec (.sendRegion x1 y1 x2 y2) s = .next t) (hcode : t.code = CODE_OK)
include h hcode

/-- A send that ends OK is none of those that end with another status. -/
theorem sendRegion_ok_code {u : State} {c sub : Byte} {w : Word}
    (he : exec (.sendRegion x1 y1 x2 y2) s = .next (u.endOp c sub w)) : c = CODE_OK := by
  cases he.symm.trans h
  exact hcode

/-- Its rectangle passed the check (R110). -/
theorem sendRegion_ok_rect : x1.toNat < x2.toNat ∧ y1.toNat < y2.toNat ∧ x2.toNat ≤ 240 ∧ y2.toNat ≤ 320 := by
  obtain ⟨hinverted, houtside, hempty, -⟩ := sendRegionErrors x1 y1 x2 y2 s
  have hordered : x1.toNat ≤ x2.toNat ∧ y1.toNat ≤ y2.toNat := by
    by_contra hc
    exact absurd (sendRegion_ok_code h hcode (hinverted (by omega))) (by decide)
  obtain ⟨hx, hy⟩ := hordered
  have hinside : x2.toNat ≤ 240 ∧ y2.toNat ≤ 320 := by
    by_contra hc
    exact absurd (sendRegion_ok_code h hcode (houtside hx hy (by omega))) (by decide)
  obtain ⟨hW, hH⟩ := hinside
  by_contra hc
  exact absurd (sendRegion_ok_code h hcode (hempty hx hy hW hH (by omega))) (by decide)

/-- It was not refused for its parameters (R70, R117). -/
theorem sendRegion_ok_parameters : 3 ≤ s.cfg.maxXfer ∧ s.cfg.xOff + 240 ≤ 65536 ∧ s.cfg.yOff + 320 ≤ 65536 := by
  obtain ⟨hx, hy, hW, hH⟩ := sendRegion_ok_rect h hcode
  obtain ⟨-, -, -, -, hparameters, -⟩ := sendRegionErrors x1 y1 x2 y2 s
  obtain ⟨hceiling, hoffsets⟩ := hparameters hx hy hW hH
  have hm : 3 ≤ s.cfg.maxXfer := by
    by_contra hc
    cases (hceiling (by omega)).symm.trans h
  refine ⟨hm, ?_⟩
  by_contra hc
  cases (hoffsets hm (by omega)).symm.trans h

/-- On the sub-region path it obtained its scratch, and the window payload fitted the ceiling (R76, R114). -/
theorem sendRegion_ok_strict (hstrict : ¬ (x1.toNat = 0 ∧ y1.toNat = 0 ∧ x2.toNat = 240 ∧ y2.toNat = 320)) :
    4 ≤ s.cfg.maxXfer ∧ (s.cfg.allocDraw = false ∨ (drawAlloc s.draws).1 = false) ∧
    2 * ((x2.toNat - x1.toNat) * (y2.toNat - y1.toNat)) ≤ s.cfg.scratchCap := by
  obtain ⟨hx, hy, hW, hH⟩ := sendRegion_ok_rect h hcode
  obtain ⟨hm, hxOff, hyOff⟩ := sendRegion_ok_parameters h hcode
  obtain ⟨-, -, -, hscratch, -⟩ := sendRegionErrors x1 y1 x2 y2 s
  obtain ⟨htooLarge, hfailed, hshort⟩ := hscratch hx hy hW hH hstrict hm hxOff hyOff
  have hcap := Nat.not_lt.mp fun hc => absurd (sendRegion_ok_code h hcode (htooLarge hc)) (by decide)
  have halloc : s.cfg.allocDraw = false ∨ (drawAlloc s.draws).1 = false := by
    by_contra hc
    obtain ⟨hdraw, hfail⟩ := not_or.mp hc
    exact absurd (sendRegion_ok_code h hcode (hfailed hcap (eq_true_of_ne_false hdraw) (eq_true_of_ne_false hfail)))
      (by decide)
  have hne : s.cfg.maxXfer ≠ 3 := fun hc => absurd (sendRegion_ok_code h hcode (hshort hcap halloc hc)) (by decide)
  exact ⟨by omega, halloc, hcap⟩

/-- It was the window pair of its rectangle and then chunks of the packed bytes, after the allocator's draw where one was
taken (R119). -/
theorem sendRegion_ok_acts : ∃ d chunks, CutsRectangle s x1.toNat y1.toNat x2.toNat y2.toNat chunks ∧
    t = endWith (runActs (windowActs s.cfg x1.toNat y1.toNat x2.toNat y2.toNat ++ chunkActs chunks)
      { s with draws := d }) := by
  obtain ⟨hm, hxOff, hyOff⟩ := sendRegion_ok_parameters h hcode
  by_cases hfull : x1.toNat = 0 ∧ y1.toNat = 0 ∧ x2.toNat = 240 ∧ y2.toNat = 320
  · obtain ⟨hx1, hy1, hx2, hy2⟩ := hfull
    obtain rfl : x1 = 0#16 := BitVec.eq_of_toNat_eq hx1
    obtain rfl : y1 = 0#16 := BitVec.eq_of_toNat_eq hy1
    obtain rfl : x2 = 240#16 := BitVec.eq_of_toNat_eq hx2
    obtain rfl : y2 = 320#16 := BitVec.eq_of_toNat_eq hy2
    obtain ⟨-, -, -, -, -, -, -, hthree⟩ := sendRegionErrors 0#16 0#16 240#16 320#16 s
    have hne : s.cfg.maxXfer ≠ 3 := fun hc => absurd (sendRegion_ok_code h hcode (hthree hc hxOff hyOff).2) (by decide)
    obtain ⟨hsend, hsame⟩ := sendAllSendsWindowThenChunks s (by omega) hxOff hyOff
    exact ⟨s.draws, _, fullChunks_cut (by omega), Host.Outcome.next.inj (h.symm.trans (hsame.trans hsend))⟩
  · obtain ⟨hx, hy, hW, hH⟩ := sendRegion_ok_rect h hcode
    obtain ⟨hfour, halloc, hcap⟩ := sendRegion_ok_strict h hcode hfull
    have hsend := sendRegionSendsPackedChunks x1 y1 x2 y2 s hx hy hW hH hfull hfour hxOff hyOff halloc hcap
    exact ⟨_, _, greedyChunks_cut hm _ _ _ _, Host.Outcome.next.inj (h.symm.trans hsend)⟩

end

/-- Settles O47: SEND_ALL is SEND_REGION of the whole frame, and a send that ends OK has issued all its acts. -/
theorem sendAccountsForEveryByte : Obligations.SendAccountsForEveryByte := by
  intro x1 y1 x2 y2 s t h hcode
  have hregion : exec (.sendRegion x1 y1 x2 y2) s = .next t := by
    rcases h with h | ⟨h, rfl, rfl, rfl, rfl⟩
    · exact h
    · exact (execSendRegion_full s).trans h
  obtain ⟨d, chunks, hcut, rfl⟩ := sendRegion_ok_acts hregion hcode
  obtain ⟨hfive, hlast⟩ := windowActs_done s.cfg x1.toNat y1.toNat x2.toNat y2.toNat
  refine ⟨_, chunks, ?trace, hfive, hlast, hcut.flatten, ?count, hcut.fits, hcut.strict⟩
  case trace =>
    rw [endWith_trace_of_ok hcode, List.map_append, ← List.append_assoc, chunkActs, List.map_map]
    rfl
  case count => rw [← List.length_flatten, hcut.flatten, packedBytes_length, Nat.mul_comm]

end Sys2Proof.Machine
end

section
/-! BLIT: the image pixel of each place of its box, the native words of the image in host memory, and the two ways it does
not complete. Settles O40 and O41. -/

namespace Sys2Proof.Machine

/-! ## The image in host memory -/

/-- `MemRead` has at distance `k` the host byte there (R39). -/
theorem memRead_getD (s : State) (addr : Nat) {k n : Nat} (h : k < n) :
    (memRead s addr n).getD k 0 = hostByte s (addr + k) := by
  simp [memRead_eq_map, h]

/-- Image pixel `k` is host bytes `2k` and `2k+1`, little-endian (R39, R123). -/
theorem pairsLE_memRead_getElem? (s : State) (src : Nat) {k n : Nat} (h : 2 * k + 1 < n) :
    (pairsLE (memRead s src n))[k]? = some (joinHalf (hostByte s (src + 2 * k + 1)) (hostByte s (src + 2 * k))) := by
  rw [pairsLE_getElem? _ k (by rwa [memRead, Memory.run_length]), memRead_getD s src h,
    memRead_getD s src (Nat.lt_of_succ_lt h), Nat.add_assoc]

/-- The place of a pixel in the row-major order of its rectangle is below the pixel count (R104). -/
theorem rowMajor_lt {i j w h : Nat} (hi : i < w) (hj : j < h) : j * w + i < w * h :=
  calc j * w + i < j * w + w := Nat.add_lt_add_left hi _
    _ = (j + 1) * w := (Nat.succ_mul j w).symm
    _ ≤ h * w := Nat.mul_le_mul_right w hj
    _ = w * h := Nat.mul_comm h w

/-! ## The pixels BLIT stores -/

section
variable {x y iw ih src : Nat} {s : State}

/-- The place of column `i`, row `j` of the box holds image pixel `(i, j)` (R123, R124). -/
theorem get?_blitPixels (hx : x + iw ≤ Config.W) {i j : Nat} (hi : i < iw) (hj : j < ih) :
    Memory.get? (blitPixels s x y iw ih src) ((y + j) * Config.W + (x + i)) =
      some (joinHalf (hostByte s (src + 2 * (j * iw + i) + 1)) (hostByte s (src + 2 * (j * iw + i)))) := by
  have hplace : (pix x y (x + iw) (y + ih))[j * iw + i]? = some ((y + j) * Config.W + (x + i)) := by
    have := pix_getElem? (x1 := x) (y1 := y) (x2 := x + iw) (y2 := y + ih) (i := i) (j := j) (by omega) (by omega)
    rwa [Nat.add_sub_cancel_left] at this
  have himage := pairsLE_memRead_getElem? s src (k := j * iw + i) (n := 2 * iw * ih)
    (by have := rowMajor_lt hi hj; rw [Nat.mul_assoc]; omega)
  refine Memory.get?_of_mem (pix_zip_wf hx _) (List.mem_of_getElem? (i := j * iw + i) ?_)
  exact List.getElem?_zip_eq_some.mpr ⟨hplace, himage⟩

/-- No place outside the box is stored (R125). -/
theorem get?_blitPixels_outside {q : Nat} (hq : q ∉ pix x y (x + iw) (y + ih)) :
    Memory.get? (blitPixels s x y iw ih src) q = none :=
  Memory.get?_eq_none fun _ hb => hq (List.of_mem_zip hb).1

end

/-! ## The checks -/

section
variable {x y iw ih : Half} {src : Word} {s : State}

/-- A box that leaves the framebuffer ends the operation before any write (R123). -/
theorem execBlit_outside (h : Config.W < x.toNat + iw.toNat ∨ Config.H < y.toNat + ih.toNat) :
    execBlit x y iw ih src s = .next (s.raiseErr errOutOfBounds) := by
  rw [execBlit, if_pos h]

/-- With its box inside, BLIT stores the image, or is refused where the image passes the end of host memory (R123, R39;
log 27). -/
theorem execBlit_of_box (hx : x.toNat + iw.toNat ≤ Config.W) (hy : y.toNat + ih.toNat ≤ Config.H) :
    execBlit x y iw ih src s =
      if hostRangeOk src.toNat (2 * iw.toNat * ih.toNat) then
        .next (s.storePixels (blitPixels s x.toNat y.toNat iw.toNat ih.toNat src.toNat)).finishOk
      else .refused (.hostRange src.toNat (2 * iw.toNat * ih.toNat)) := by
  rw [execBlit, if_neg (by omega)]

end

/-- Settles O40: both checks pass, and the stored pixels rise, with image pixel `(i, j)` at its place of the box. -/
theorem blitIsLocal : Obligations.BlitIsLocal := by
  intro x y iw ih src s hx hy hrange
  have hexec := (execBlit_of_box (src := src) (s := s) hx hy).trans (if_pos ((hostRangeOk_iff _ _).mpr hrange))
  have hwf : Memory.wf (blitPixels s x.toNat y.toNat iw.toNat ih.toNat src.toNat) = true := pix_zip_wf hx _
  refine ⟨_, hexec, fun i j hi hj => ?inside, fun q hq => ?outside⟩
  case inside =>
    have hload := loadPixel_storePixels hwf s ((y.toNat + j) * Config.W + (x.toNat + i))
    rw [get?_blitPixels hx hi hj, Option.getD_some] at hload
    exact ⟨hload, (nativePixel_eq_conv _ _).trans (congrArg conv hload)⟩
  case outside =>
    have hbytes := fbByte_storePixels hwf s q
    rwa [get?_blitPixels_outside hq] at hbytes

/-- Settles O41: one check fails in each clause, the box check first. -/
theorem blitErrors : Obligations.BlitErrors := by
  refine fun x y iw ih src s => ⟨execBlit_outside, fun hx hy hrange => ?_⟩
  have hout : ¬ hostRangeOk src.toNat (2 * iw.toNat * ih.toNat) = true := by
    rw [hostRangeOk_iff]; exact Nat.not_le.mpr hrange
  exact (execBlit_of_box hx hy).trans (if_neg hout)

end Sys2Proof.Machine
end

section
/-! The glyph rasterizer: the combiner channel by channel, `Scale` as a masked product, and the ends of DRAW_TEXT in the
order of its checks. Settles O48 to O52. -/

namespace Sys2Proof.Machine

/-! ## Scaling -/

/-- A weight of at most 255 does not raise a channel (R131). -/
theorem scale_le (ch : Nat) {k : Nat} (hk : k ≤ 255) : scale ch k ≤ ch :=
  Nat.div_le_of_le_mul (Nat.mul_comm 255 ch ▸ Nat.mul_le_mul_left ch hk)

/-- Masking with a field of `n` bits at position `p` cuts out that field. -/
theorem and_field_mask (x n p : Nat) : x &&& ((2 ^ n - 1) * 2 ^ p) = x / 2 ^ p % 2 ^ n * 2 ^ p := by
  apply Nat.eq_of_testBit_eq
  intro i
  simp only [Nat.testBit_and, Nat.testBit_mul_two_pow, Nat.testBit_two_pow_sub_one, Nat.testBit_mod_two_pow,
    Nat.testBit_div_two_pow]
  by_cases hi : p ≤ i
  · simp [hi, Bool.and_comm]
  · simp [hi]

/-- A channel scaled in place has its scaled value in its field, whatever stands below (R131). -/
theorem scaled_in_place_div (ch k p : Nat) : ch * 2 ^ p * k / 255 / 2 ^ p = scale ch k := by
  rw [Nat.div_right_comm, Nat.mul_right_comm, Nat.mul_div_cancel _ (Nat.two_pow_pos p), scale]

/-- Settles O49: the mask keeps the field at `p`, and the scaled channel, at most the channel, fits it. -/
theorem scaleEqualsMaskedProduct : Obligations.ScaleEqualsMaskedProduct := by
  intro ch k p n hch hk
  have hle : scale ch k ≤ ch := scale_le ch hk
  refine ⟨Nat.mul_div_le _ _, Nat.lt_mul_div_succ _ (by decide), hle, ?_⟩
  rw [and_field_mask, scaled_in_place_div, Nat.mod_eq_of_lt (Nat.lt_of_le_of_lt hle hch)]

/-! ## The combiner -/

/-- Channels that fit their fields are read back from the packed colour (R129). -/
theorem channels_pack565 {r g b : Nat} (hr : r < 32) (hg : g < 64) (hb : b < 32) :
    rch (pack565 r g b) = r ∧ gch (pack565 r g b) = g ∧ bch (pack565 r g b) = b := by
  simp only [rch, gch, bch, pack565, BitVec.extractLsb'_toNat, BitVec.toNat_ofNat, Nat.shiftRight_eq_div_pow]
  omega

/-- Scaling a colour scales each of its channels (R131, R132). -/
theorem channels_scaleColor (base : Half) {k : Nat} (hk : k ≤ 255) :
    rch (scaleColor base k) = scale (rch base) k ∧ gch (scaleColor base k) = scale (gch base) k ∧
      bch (scaleColor base k) = scale (bch base) k :=
  channels_pack565 (Nat.lt_of_le_of_lt (scale_le _ hk) (BitVec.isLt _))
    (Nat.lt_of_le_of_lt (scale_le _ hk) (BitVec.isLt _)) (Nat.lt_of_le_of_lt (scale_le _ hk) (BitVec.isLt _))

section
variable {shade : Byte} (h0 : shade ≠ 0#8) (h1 : shade ≠ 255#8)
include h0 h1

/-- A shade between the ends blends dark text from white (R132). -/
theorem combine_dark : combine shade Config.DARK_REF = some (scaleColor Config.LIGHT_REF (255 - shade.toNat)) := by
  rw [combine, if_neg h0, if_neg h1, if_pos rfl]

/-- A shade between the ends blends any other text colour from black (R132). -/
theorem combine_bright {tc : Half} (htc : tc ≠ Config.DARK_REF) : combine shade tc = some (scaleColor tc shade.toNat) := by
  rw [combine, if_neg h0, if_neg h1, if_neg htc]

end

/-- Settles O48: the examples are evaluated, and each case of the combiner gives its colour's channels. -/
theorem combinerBlendsChannels : Obligations.CombinerBlendsChannels := by
  refine ⟨by decide, by decide, by decide, by decide, by decide, fun shade tc => ⟨?keep, ?solid, fun h0 h1 => ?blend⟩⟩
  case keep => rintro rfl; rfl
  case solid => rintro rfl; rfl
  case blend =>
    by_cases htc : tc = Config.DARK_REF
    · subst htc
      exact ⟨_, combine_dark h0 h1, fun _ => channels_scaleColor Config.LIGHT_REF (Nat.sub_le ..), fun h => absurd rfl h⟩
    · exact ⟨_, combine_bright h0 h1 htc, fun h => absurd h htc,
        fun _ => channels_scaleColor tc (Nat.le_of_lt_succ shade.isLt)⟩

/-! ## DRAW_TEXT up to the load step -/

/-- The state with the font in use: its flag up, and the load's draw taken where the flag was down (R140). -/
def State.fontLoaded (s : State) : State :=
  { s with fontReady := true, draws := if s.fontReady then s.draws else (drawLoad s.draws).2 }

/-- DRAW_TEXT once its string has been read: a layout is drawn, a string without one has an unknown code (R138, R141). -/
def drawFormed (xc y sp : Nat) (color : Half) (s : State) : Option (List CharInfo) → State
  | none => s.raiseErr errUnknownChar
  | some ci => drawChars xc y sp color { s with ci := ci }

/-- A load that fails takes its draw and leaves the flag down (R140). -/
theorem loadFont_failed {s : State} (hr : s.fontReady = false) (hl : (drawLoad s.draws).1 = false) :
    loadFont s = (false, { s with draws := (drawLoad s.draws).2 }) := by
  rw [loadFont, hr, if_neg Bool.false_ne_true]
  dsimp only
  rw [hl, ← hr]

section
variable {xc y : Half} {str : Word} {n : Half} {sp : Byte} {norm : Bool} {color : Half} {s : State}

theorem execDrawText_capacity (h : s.cfg.maxChars < n.toNat) :
    execDrawText xc y str n sp norm color s = .next (s.raiseErr errTextCapacity) := by
  rw [execDrawText, if_pos h]

theorem execDrawText_empty (h : n.toNat = 0) : execDrawText xc y str n sp norm color s = .next s.finishOk := by
  rw [execDrawText, if_neg (by omega), if_pos h]

section
variable (h0 : 1 ≤ n.toNat) (h1 : n.toNat ≤ s.cfg.maxChars)
include h0 h1

theorem execDrawText_loadFailed (hr : s.fontReady = false) (hl : (drawLoad s.draws).1 = false) :
    execDrawText xc y str n sp norm color s =
      .next ({ s with draws := (drawLoad s.draws).2 }.raiseErr errFont) := by
  rw [execDrawText, if_neg (Nat.not_lt.mpr h1), if_neg (Nat.one_le_iff_ne_zero.mp h0), loadFont_failed hr hl]
  rfl

variable (hload : s.fontReady = true ∨ (drawLoad s.draws).1 = true)
include hload

/-- With the font loaded, before the call or by it, the font is checked, then the string is read and laid out, or the call
is refused where the string passes the end of host memory (R126, R141, R39; log 23, log 27). -/
theorem execDrawText_loaded :
    execDrawText xc y str n sp norm color s =
      if fontWf s.cfg.font = false then .refused .fontIllFormed
      else if hostRangeOk str.toNat n.toNat then
        .next (drawFormed xc.toNat y.toNat sp.toNat color s.fontLoaded
          (charInfos s.cfg.font norm (memRead s str.toNat n.toNat)))
      else .refused (.hostRange str.toNat n.toNat) := by
  rw [execDrawText, if_neg (Nat.not_lt.mpr h1), if_neg (Nat.one_le_iff_ne_zero.mp h0), loadFont_loaded s hload]
  rfl

theorem execDrawText_illFormed (hwf : fontWf s.cfg.font = false) :
    execDrawText xc y str n sp norm color s = .refused .fontIllFormed := by
  rw [execDrawText_loaded h0 h1 hload, if_pos hwf]

variable (hwf : fontWf s.cfg.font = true)
include hwf

theorem execDrawText_pastMemory (hpast : 4294967296 < str.toNat + n.toNat) :
    execDrawText xc y str n sp norm color s = .refused (.hostRange str.toNat n.toNat) := by
  have hout : ¬ hostRangeOk str.toNat n.toNat = true := by rw [hostRangeOk_iff]; exact Nat.not_le.mpr hpast
  rw [execDrawText_loaded h0 h1 hload, if_neg (ne_false_of_eq_true hwf), if_neg hout]

/-- The codes of a string inside host memory are its bytes, and the layout decides (R138, R141). -/
theorem execDrawText_codes (hrange : str.toNat + n.toNat ≤ 4294967296) {formed : Option (List CharInfo)}
    (hformed : charInfos s.cfg.font norm ((List.range' str.toNat n.toNat).map (hostByte s)) = formed) :
    execDrawText xc y str n sp norm color s =
      .next (drawFormed xc.toNat y.toNat sp.toNat color s.fontLoaded formed) := by
  rw [execDrawText_loaded h0 h1 hload, if_neg (ne_false_of_eq_true hwf), if_pos ((hostRangeOk_iff _ _).mpr hrange),
    memRead_eq_map, hformed]

end

end

/-- Settles O50: the capacity check comes first, then the empty string, then the load. -/
theorem drawTextEarlyEnds : Obligations.DrawTextEarlyEnds :=
  fun _ _ _ _ _ _ _ _ => ⟨execDrawText_capacity, execDrawText_empty, execDrawText_loadFailed⟩

/-! ## The text box -/

/-- The three bounds of the text box (R136). -/
theorem textBoxOk_iff (x0 : Int) (tw y fh : Nat) :
    textBoxOk x0 tw y fh = true ↔ 0 ≤ x0 ∧ x0 + tw ≤ 240 ∧ y + fh ≤ 320 := by
  simp only [textBoxOk, Bool.and_eq_true, decide_eq_true_eq, Config.W, Config.H]
  omega

section
variable {xc y sp : Nat} {color : Half} {s : State}

/-- A text box that leaves the framebuffer on any side ends the operation before the paint loop (R136). -/
theorem drawChars_outside (h : textStart xc (textWidth s.ci sp) < 0 ∨
      240 < textStart xc (textWidth s.ci sp) + textWidth s.ci sp ∨ 320 < y + s.cfg.font.fh) :
    drawChars xc y sp color s = s.raiseErr errOutOfBounds := by
  have hout : ¬ textBoxOk (textStart xc (textWidth s.ci sp)) (textWidth s.ci sp) y s.cfg.font.fh = true := by
    rw [textBoxOk_iff]
    omega
  exact if_neg hout

/-- With its text box inside, DRAW_TEXT paints from the box's first column and changes the framebuffer only (R135, R139). -/
theorem drawChars_inside (hleft : textWidth s.ci sp / 2 ≤ xc)
    (hright : xc - textWidth s.ci sp / 2 + textWidth s.ci sp ≤ 240) (hlow : y + s.cfg.font.fh ≤ 320) :
    drawChars xc y sp color s =
      { s with fbb := (paintChars color y sp s.ci (xc - textWidth s.ci sp / 2) s).fbb }.finishOk := by
  have hbox : textBoxOk (textStart xc (textWidth s.ci sp)) (textWidth s.ci sp) y s.cfg.font.fh = true := by
    rw [textBoxOk_iff, textStart]
    omega
  have hstart : (textStart xc (textWidth s.ci sp)).toNat = xc - textWidth s.ci sp / 2 := by
    rw [textStart]
    omega
  refine (if_pos hbox).trans ?_
  rw [hstart, paintChars_frame]

end

/-- Settles O51: one check after the load fails in each clause, in the order font, host range, codes, text box. -/
theorem drawTextBoundsErrors : Obligations.DrawTextBoundsErrors := by
  intro xc y str n sp norm color s h0 h1 hload
  refine ⟨execDrawText_illFormed h0 h1 hload, execDrawText_pastMemory h0 h1 hload, fun hwf hrange => ⟨?unknown, ?outside⟩⟩
  case unknown =>
    rintro ⟨k, hk, hcode⟩
    have hmem : hostByte s (str.toNat + k) ∈ (List.range' str.toNat n.toNat).map (hostByte s) :=
      List.mem_map_of_mem (List.mem_range'_1.mpr ⟨Nat.le_add_right .., Nat.add_lt_add_left hk _⟩)
    exact execDrawText_codes h0 h1 hload hwf hrange (charInfos_eq_none.mpr ⟨_, hmem, hcode⟩)
  case outside =>
    intro ci hci hbox
    exact (execDrawText_codes h0 h1 hload hwf hrange hci).trans (congrArg _ (drawChars_outside hbox))

/-! ## What DRAW_TEXT paints -/

/-- A string laid out with a well-formed font has each glyph inside its cell (R126, R134). -/
theorem charInfos_fit {f : Font} (hf : fontWf f = true) {norm : Bool} {L : List Byte} {ci : List CharInfo}
    (h : charInfos f norm L = some ci) : ∀ c ∈ ci, c.xoff + c.w ≤ c.adv := by
  intro c hc
  obtain ⟨g, hg, rfl⟩ := charInfos_mem h c hc
  exact charInfoOf_fits hf hg norm

/-- The painted pixels are those of the painted framebuffer in the state before. -/
theorem loadPixel_paintChars_frame (color : Half) (y sp : Nat) (ci : List CharInfo) (x : Nat) (s : State) :
    loadPixel (paintChars color y sp ci x s) = loadPixel { s with fbb := (paintChars color y sp ci x s).fbb } := by
  rw [paintChars_frame]

/-- A pixel that reads the same has the same two bytes (R40). -/
theorem fbByte_eq_of_loadPixel_eq {s t : State} {q : Nat} (h : loadPixel t q = loadPixel s q) :
    fbByte t (2 * q) = fbByte s (2 * q) ∧ fbByte t (2 * q + 1) = fbByte s (2 * q + 1) :=
  ⟨by simpa [loadPixel] using congrArg hi8 h, by simpa [loadPixel] using congrArg lo8 h⟩

/-- Settles O52: every check passes, so the paint loop runs from the box's first column, and its cells end inside the line. -/
theorem drawTextPaintsItsGlyphs : Obligations.DrawTextPaintsItsGlyphs := by
  intro xc y str n sp norm color s ci h0 h1 hload hwf hrange hci hleft hright hlow
  have hexec := (execDrawText_codes (color := color) h0 h1 hload hwf hrange hci).trans
    (congrArg _ (drawChars_inside (s := { s.fontLoaded with ci := ci }) hleft hright hlow))
  obtain ⟨hglyph, hother⟩ := loadPixel_paintChars color y.toNat sp.toNat ci (xc.toNat - textWidth ci sp.toNat / 2)
    { s.fontLoaded with ci := ci } (charInfos_fit hwf hci) (by rw [cellsEnd_eq]; exact hright)
  rw [loadPixel_paintChars_frame] at hglyph hother
  exact ⟨_, hexec, hglyph, fun q hq => fbByte_eq_of_loadPixel_eq (hother q hq)⟩

end Sys2Proof.Machine
end

section
/-! How a host operation ends, by its ending (`exec_cases`): the block is closed and idle, and an error other than PROTOCOL was
raised before a framebuffer write or a bus event. Settles O53 and O54. -/

namespace Sys2Proof.Machine

/-! ## The status of a completed operation -/

theorem endInit_busy (r : Ran) : (endInit r).busy = false := by
  obtain ⟨_ | e, t⟩ := r <;> rfl

/-- A host operation that completes leaves the block closed and idle, whatever it held before (R28, R143, R150). -/
theorem exec_hostOp_closed {i : Instr} {s t : State} (hi : isHostOp i = true) (h : exec i s = .next t) :
    t.closed ∧ t.busy = false := by
  cases exec_cases h with
  | early e f d _ _ he _ _ ht => exact ht ▸ ⟨raiseErr_closed he.toListed _, rfl⟩
  | painted m f d _ _ _ _ ht => exact ht ▸ ⟨finishOk_closed _, rfl⟩
  | bus r _ _ _ hr ht => exact ht ▸ ⟨hr.endWith_closed, endWith_busy r⟩
  | init _ _ ht => exact ht ▸ ⟨(emitAll_issues _ _).endInit_closed, endInit_busy _⟩
  | panel r hp => exact absurd hi (by simp [hp])

/-- BINDING is in no listed pair (R145). -/
theorem binding_not_listed : CODE_BINDING ∉ statusPairs.map Prod.fst := by decide

/-- Settles O54: a completed operation leaves the block closed and idle, and BINDING is not listed. -/
theorem operationsEndWithListedStatus : Obligations.OperationsEndWithListedStatus := by
  intro i s t hi h
  obtain ⟨⟨hreleased, hpair, hinfo⟩, hbusy⟩ := exec_hostOp_closed hi h
  exact ⟨hpair, fun hc => binding_not_listed (List.mem_map.mpr ⟨_, hpair, hc⟩), hinfo, hbusy, hreleased⟩

/-! ## What an error leaves -/

/-- From `s` to `t` no framebuffer byte was written and the bus was not used; FONT_READY is as before where the status is
FONT (R144). -/
structure Untouched (s t : State) : Prop where
  fbb : t.fbb = s.fbb
  trace : t.trace = s.trace
  panel : t.panel = s.panel
  font : t.code = CODE_FONT → t.fontReady = s.fontReady

/-- An operation that ends as its last procedure over the bus returned ends OK or with PROTOCOL (R76, R143). -/
theorem Issues.code_cases {fin : Ran → State} {s : State} {r : Ran} (h : Issues s r) (hfin : RaisesError fin)
    (hok : ∀ u, (fin (none, u)).code = CODE_OK) : (fin r).code = CODE_OK ∨ (fin r).code = CODE_PROTOCOL := by
  obtain ⟨_ | e, u⟩ := r
  · exact .inl (hok u)
  · refine .inr ((hfin.error e u).1.trans ?_)
    rcases h.errors e rfl with rfl | rfl | rfl <;> rfl

/-- A host operation that completes ends OK, or with PROTOCOL and the framebuffer as before, or it raised its error before
it wrote or sent anything (R144). -/
theorem exec_status_cases {i : Instr} {s t : State} (hi : isHostOp i = true) (h : exec i s = .next t) :
    t.code = CODE_OK ∨ (t.code = CODE_PROTOCOL ∧ t.fbb = s.fbb) ∨ Untouched s t := by
  cases exec_cases h with
  | early e f d _ _ _ _ hfont ht => subst ht; exact .inr (.inr ⟨rfl, rfl, rfl, hfont⟩)
  | painted m f d _ _ _ _ ht => exact .inl (ht ▸ rfl)
  | bus r _ _ _ hr ht =>
    subst ht
    exact (hr.code_cases endWith_raisesError fun _ => rfl).imp_right fun hc =>
      .inl ⟨hc, (hr.unpainted.trans (endWith_unpainted r)).fbb⟩
  | init _ _ ht =>
    subst ht
    exact ((emitAll_issues _ _).code_cases endInit_raisesError fun _ => rfl).imp_right fun hc =>
      .inl ⟨hc, (init_unpainted s _).fbb⟩
  | panel r hp => exact absurd hi (by simp [hp])

/-- Settles O53: BOUNDS, RESOURCE, FONT and ILLEGAL_OP are neither OK nor PROTOCOL, and a send paints nothing. -/
theorem errorsLeaveTheFramebuffer : Obligations.ErrorsLeaveTheFramebuffer := by
  refine ⟨fun i s t hi h => ?errors, fun x1 y1 x2 y2 s t h => ?sends⟩
  case errors =>
    rcases exec_status_cases hi h with hok | ⟨hprotocol, hfbb⟩ | hu
    · rw [hok]
      exact ⟨fun hc => absurd hc (by decide), fun hc => absurd hc (by decide), fun hc => absurd hc (by decide)⟩
    · rw [hprotocol]
      exact ⟨fun hc => absurd hc (by decide), fun hc => absurd hc (by decide), fun _ => hfbb⟩
    · exact ⟨fun _ => ⟨hu.fbb, hu.trace, hu.panel⟩, hu.font, fun _ => hu.fbb⟩
  case sends =>
    rcases h with h | h <;> exact (exec_fbb h).resolve_right (by simp [Paints])

end Sys2Proof.Machine
end

section
/-! What a send that ends OK leaves in the observer's memory: the run of its chunks is one run of pixels, and that run fills the
window of the rectangle. Settles O58. -/

namespace Sys2Proof.Machine

/-! ## One overlay after another -/

/-- A cell below every new key stays in front of them. -/
theorem Memory.overlay_cons_of_from {β : Type} {new : Memory β} {x : Nat} (h : Memory.From (x + 1) new) (b : β)
    (m : Memory β) : Memory.overlay new ((x, b) :: m) = (x, b) :: Memory.overlay new m := by
  cases new with
  | nil => rfl
  | cons d new =>
    have hlt : x < d.1 := h d (List.mem_cons_self ..)
    simp only [Memory.overlay, Memory.put, hlt, if_true]

/-- A continuation that leaves cells up to key `a` in front acts after the put at `a`. -/
theorem Memory.put_comp {β : Type} {a : Nat} {k' : Memory β → Memory β}
    (hk : ∀ x b m, x ≤ a → k' ((x, b) :: m) = (x, b) :: k' m) (b : β) (k : Memory β → Memory β) (m : Memory β) :
    Memory.put a b (fun m => k' (k m)) m = k' (Memory.put a b k m) := by
  induction m with
  | nil => exact (hk a b _ le_rfl).symm
  | cons c m ih =>
    simp only [Memory.put]
    split
    · next hlt => rw [ih, hk _ _ _ hlt.le]
    · split <;> exact (hk a b _ le_rfl).symm

/-- Cells in rising order may be written in two parts. -/
theorem Memory.overlay_append {β : Type} {new new' : Memory β} (h : Memory.wf (new ++ new') = true) :
    Memory.overlay (new ++ new') = fun m => Memory.overlay new' (Memory.overlay new m) := by
  induction new with
  | nil => rfl
  | cons c new ih =>
    funext m
    have hfrom : Memory.From (c.1 + 1) new' := fun d hd => Memory.wf_cons_from h d (List.mem_append_right _ hd)
    rw [List.cons_append, Memory.overlay, ih (Memory.wf_tail h)]
    exact Memory.put_comp (fun x b m hx => Memory.overlay_cons_of_from (hfrom.mono (Nat.succ_le_succ hx)) b m) _ _ m

/-! ## One pixel run after another -/

section
variable {sc ec ep cx cy : Nat} {d : Byte} {L : List Byte}

theorem pixelRun_past {held : Option Byte} (h : ep < cy) :
    pixelRun sc ec ep (d :: L) cx cy held = ⟨[], cx, cy, held, true⟩ := by
  rw [pixelRun.eq_def]
  exact if_pos h

theorem pixelRun_hold (h : cy ≤ ep) :
    pixelRun sc ec ep (d :: L) cx cy none = pixelRun sc ec ep L cx cy (some d) := by
  rw [pixelRun.eq_def]
  exact if_neg (Nat.not_lt.mpr h)

/-- The run `r` after the pixel `px` stored at the cursor `(cx, cy)`. -/
def PixelRun.after (r : PixelRun) (cx cy : Nat) (px : Half) : PixelRun :=
  { r with writes := (gramKey cx cy, px) :: r.writes }

theorem pixelRun_store {hi : Byte} (h : cy ≤ ep) :
    pixelRun sc ec ep (d :: L) cx cy (some hi) =
      (pixelRun sc ec ep L (cursorNext sc ec cx cy).1 (cursorNext sc ec cx cy).2 none).after cx cy (joinHalf hi d) := by
  rw [pixelRun.eq_def]
  exact if_neg (Nat.not_lt.mpr h)

end

/-- The run that goes on with `L` where `r` left off. -/
def PixelRun.resume (sc ec ep : Nat) (r : PixelRun) (L : List Byte) : PixelRun :=
  let q := pixelRun sc ec ep L r.cx r.cy r.held
  { q with writes := r.writes ++ q.writes }

/-- A run of pixel bytes that stays inside the window may be cut anywhere, within a pixel too (R163). -/
theorem pixelRun_append {sc ec ep : Nat} (A B : List Byte) : ∀ cx cy held,
    (pixelRun sc ec ep (A ++ B) cx cy held).past = false →
      (pixelRun sc ec ep A cx cy held).past = false ∧
      pixelRun sc ec ep (A ++ B) cx cy held = (pixelRun sc ec ep A cx cy held).resume sc ec ep B := by
  induction A with
  | nil => exact fun _ _ _ _ => ⟨rfl, rfl⟩
  | cons d A ih =>
    intro cx cy held h
    rw [List.cons_append] at h ⊢
    by_cases hin : cy ≤ ep
    · cases held with
      | none =>
        rw [pixelRun_hold hin] at h
        rw [pixelRun_hold hin, pixelRun_hold hin]
        exact ih cx cy (some d) h
      | some hi =>
        rw [pixelRun_store hin] at h
        obtain ⟨hpast, heq⟩ := ih _ _ none h
        rw [pixelRun_store hin, pixelRun_store hin, heq]
        exact ⟨hpast, rfl⟩
    · rw [pixelRun_past (Nat.lt_of_not_le hin)] at h
      cases h

/-- The run of the bytes `L` in the panel's RAM write (R163). -/
def Panel.ramRun (p : Panel) (L : List Byte) : PixelRun :=
  pixelRun p.sc.toNat p.ec.toNat p.ep.toNat L p.cx p.cy p.held

/-- The bytes `L` stay inside the window. -/
def Panel.Fits (p : Panel) (L : List Byte) : Prop := (p.ramRun L).past = false

theorem Panel.pixels_of_fits {p : Panel} {L : List Byte} (h : p.Fits L) :
    p.pixels L =
      { p with
        cx := (p.ramRun L).cx, cy := (p.ramRun L).cy, held := (p.ramRun L).held,
        gram := Memory.overlay (p.ramRun L).writes p.gram } :=
  if_neg (ne_true_of_eq_false h)

theorem Panel.ramRun_ok {p : Panel} (h : p.cx < 65536) (L : List Byte) :
    Memory.wf (p.ramRun L).writes = true ∧ (p.ramRun L).cx < 65536 := by
  obtain ⟨hwf, -, hcx⟩ := pixelRun_ok (ep := p.ep.toNat) p.sc.isLt p.ec.isLt L p.cx p.cy p.held h
  exact ⟨hwf, hcx⟩

/-- Pixel data inside the window may come in two transactions (R163). -/
theorem Panel.pixels_append {p : Panel} {A B : List Byte} (hcx : p.cx < 65536) (h : p.Fits (A ++ B)) :
    p.pixels (A ++ B) = (p.pixels A).pixels B ∧ (p.pixels A).Fits B ∧ (p.pixels A).cx < 65536 ∧
      (p.pixels A).cur = p.cur := by
  obtain ⟨hA, happend⟩ : p.Fits A ∧ p.ramRun (A ++ B) = (p.ramRun A).resume p.sc.toNat p.ec.toNat p.ep.toNat B :=
    pixelRun_append A B p.cx p.cy p.held h
  have hB : (p.pixels A).Fits B := by
    rw [Panel.Fits, happend] at h
    rw [Panel.pixels_of_fits hA]
    exact h
  obtain ⟨hwf, -⟩ := Panel.ramRun_ok hcx (A ++ B)
  obtain ⟨-, hlt⟩ := Panel.ramRun_ok hcx A
  refine ⟨?_, hB, by rw [Panel.pixels_of_fits hA]; exact hlt, by rw [Panel.pixels_of_fits hA]⟩
  rw [happend, PixelRun.resume] at hwf
  rw [Panel.pixels_of_fits h, Panel.pixels_of_fits hB, Panel.pixels_of_fits hA, happend, PixelRun.resume,
    Memory.overlay_append hwf]
  rfl

/-- Chunks of pixel data that stay inside the window act on the panel as their bytes in one transaction. -/
theorem Panel.foldl_receive_chunks (chunks : List (List Byte)) : ∀ p : Panel, p.cur = some 0x2C#8 → p.cx < 65536 →
    p.Fits chunks.flatten → chunks.foldl (fun p C => p.receive true C) p = p.receive true chunks.flatten := by
  have hreceive : ∀ (p : Panel) L, p.cur = some 0x2C#8 → p.receive true L = p.pixels L := fun p L hcur => by
    simp [Panel.receive, Panel.data, hcur]
  induction chunks with
  | nil => intro p hcur _ _; exact (hreceive p [] hcur).symm
  | cons C chunks ih =>
    intro p hcur hcx h
    obtain ⟨heq, hfits, hcx', hcur'⟩ := Panel.pixels_append hcx h
    rw [List.foldl_cons, hreceive p C hcur, ih _ (hcur'.trans hcur) hcx' hfits, hreceive _ _ (hcur'.trans hcur),
      hreceive _ _ hcur, List.flatten_cons, heq]

/-! ## The panel after a send -/

/-- What an act brings to the panel when the bus answers it OK (R163). -/
def Panel.take (p : Panel) : Act → Panel
  | .txn dc L => p.receive dc L
  | .mark _ => p

/-- After a run without an error the panel has received every transaction, in order. -/
theorem runActs_panel_of_ok (acts : List Act) : ∀ s : State, (runActs acts s).1 = none →
    (runActs acts s).2.panel = acts.foldl Panel.take s.panel := by
  induction acts with
  | nil => exact fun _ _ => rfl
  | cons x acts ih =>
    intro s h
    cases x with
    | mark e => exact ih _ h
    | txn dc L =>
      by_cases hok : s.nextOk = true
      · simp only [runActs, hok, if_true] at h ⊢
        rw [ih _ h, State.afterTxn_panel_of_ok hok]
        rfl
      · simp [runActs, hok] at h

theorem endWith_panel (r : Ran) : (endWith r).panel = r.2.panel := by
  obtain ⟨_ | e, t⟩ := r <;> rfl

/-- A run of acts whose operation ends with `CODE_OK` returned no error (R149). -/
theorem runActs_none_of_ok {acts : List Act} {s : State} (h : (endWith (runActs acts s)).code = CODE_OK) :
    (runActs acts s).1 = none := by
  refine (runActs_error acts s).resolve_right fun he => ?_
  rw [show runActs acts s = (some errBusFail, (runActs acts s).2) from Prod.ext he rfl] at h
  exact absurd h (show errBusFail.code ≠ CODE_OK by decide)

/-- The panel with a window set and the RAM write at its start (R163). -/
def Panel.opened (p : Panel) (sc ec sp ep : Half) : Panel :=
  { p with
    sc := sc, ec := ec, sp := sp, ep := ep, cur := some 0x2C#8, params := [], cx := sc.toNat, cy := sp.toNat, held := none }

/-- The window pair and WRITE_RAM open the window of the rectangle, whatever the panel held (R98, R99, R163). -/
theorem Panel.take_windowActs (p : Panel) (c : Params) (x1 y1 x2 y2 : Nat) :
    (windowActs c x1 y1 x2 y2).foldl Panel.take p =
      p.opened (BitVec.ofNat 16 (x1 + c.xOff)) (BitVec.ofNat 16 (x2 - 1 + c.xOff)) (BitVec.ofNat 16 (y1 + c.yOff))
        (BitVec.ofNat 16 (y2 - 1 + c.yOff)) := by
  show ((((p.receive false _).receive true (boundBytes _ _)).receive false _).receive true (boundBytes _ _)).receive
    false _ = _
  rw [Panel.receive_column, Panel.receive_page, Panel.receive_writeRam]
  simp only [joinHalf_hi8_lo8, Panel.opened]

/-- The chunks of a send bring the panel their bytes (R118). -/
theorem Panel.take_chunkActs (p : Panel) (chunks : List (List Byte)) :
    (chunkActs chunks).foldl Panel.take p = chunks.foldl (fun p C => p.receive true C) p := by
  rw [chunkActs, List.foldl_map]
  rfl

/-- The packed bytes of a rectangle are its pixels, high byte first (R40, R113). -/
theorem packedBytes_eq_pixelBytes (s : State) (x1 y1 x2 y2 : Nat) :
    packedBytes s x1 y1 x2 y2 = pixelBytes ((pix x1 y1 x2 y2).map (loadPixel s)) := by
  simp [packedBytes, pixelBytes, loadPixel, List.flatMap_map]

/-- As many pixels as an opened window holds stay inside it and are stored from its first place on (R163). -/
theorem Panel.opened_pixels (p : Panel) {sc ec sp ep : Half} (hx : sc.toNat ≤ ec.toNat) (hy : sp.toNat ≤ ep.toNat)
    {cs : List Half} (hlen : cs.length ≤ (ec.toNat - sc.toNat + 1) * (ep.toNat - sp.toNat + 1)) :
    (p.opened sc ec sp ep).Fits (pixelBytes cs) ∧
    ((p.opened sc ec sp ep).receive true (pixelBytes cs)).gram =
      Memory.overlay (windowCells sc.toNat sp.toNat (ec.toNat - sc.toNat + 1) 0 cs) p.gram ∧
    ((p.opened sc ec sp ep).receive true (pixelBytes cs)).epoch = p.epoch := by
  have hrun := pixelRun_pixels hx hy cs 0 (by rwa [Nat.zero_add])
  rw [Nat.zero_mod, Nat.zero_div] at hrun
  refine ⟨congrArg PixelRun.past hrun, ?_⟩
  rw [Panel.receive_pixels (p.opened sc ec sp ep) cs 0 rfl hx hy (by rwa [Nat.zero_add]) (by rw [Nat.zero_mod]; rfl)
    (by rw [Nat.zero_div]; rfl) rfl]
  exact ⟨rfl, rfl⟩

/-! ## The pixels of a filled window -/

theorem gramKey_inj {col page col' page' : Nat} (h : col < 65536) (h' : col' < 65536)
    (hk : gramKey col page = gramKey col' page') : col = col' ∧ page = page' := by
  simp only [gramKey] at hk
  omega

section
variable {p q : Panel} {sc sp w : Nat} {cs : List Half} (hw : 0 < w) (hsc : sc + w ≤ 65536)
  (hgram : q.gram = Memory.overlay (windowCells sc sp w 0 cs) p.gram)
include hw hsc hgram

/-- Column `i`, row `j` of the window holds the pixel at that place. -/
theorem Panel.pixel_in_window {i j : Nat} {c : Half} (hi : i < w) (h : cs[j * w + i]? = some c) :
    q.pixel (sc + i) (sp + j) = c := by
  obtain ⟨hwf, -⟩ := windowCells_wf (sp := sp) hw hsc cs 0
  have hmem : (gramKey (sc + i) (sp + j), c) ∈ windowCells sc sp w 0 cs := by
    refine mem_windowCells.mpr ⟨j * w + i, h, ?_⟩
    rw [Nat.zero_add, Nat.mul_comm, Nat.mul_add_mod, Nat.mod_eq_of_lt hi, Nat.mul_add_div hw, Nat.div_eq_of_lt hi,
      Nat.add_zero]
  rw [Panel.pixel, hgram, Memory.get?_overlay hwf, Memory.get?_of_mem hwf hmem]
  rfl

/-- A cell outside the window's `n` rows reads as before. -/
theorem Panel.pixel_off_window (hepoch : q.epoch = p.epoch) {n : Nat} (hlen : cs.length ≤ w * n) {col page : Nat}
    (hcol : col < 65536) (h : ∀ i j, i < w → j < n → ¬ (col = sc + i ∧ page = sp + j)) :
    q.pixel col page = p.pixel col page := by
  obtain ⟨hwf, -⟩ := windowCells_wf (sp := sp) hw hsc cs 0
  have hnone : Memory.get? (windowCells sc sp w 0 cs) (gramKey col page) = none := by
    refine Memory.get?_eq_none fun c hc => ?_
    obtain ⟨k, hk, hkey⟩ := mem_windowCells.mp hc
    rw [Nat.zero_add] at hkey
    obtain ⟨hlt, -⟩ := List.getElem?_eq_some_iff.mp hk
    have hmod := Nat.mod_lt k hw
    exact h _ _ hmod (Nat.div_lt_of_lt_mul (hlt.trans_le hlen)) (gramKey_inj hcol (by omega) hkey)
  rw [Panel.pixel, Panel.pixel, hgram, hepoch, Memory.get?_overlay hwf, hnone, Option.none_or]

end

/-! ## A send that ends OK -/

/-- A window bound that R70 admits is encoded without loss. -/
theorem toNat_ofNat_half {n : Nat} (h : n < 65536) : (BitVec.ofNat 16 n).toNat = n := by
  rw [BitVec.toNat_ofNat, Nat.mod_eq_of_lt h]

section
variable {x1 y1 x2 y2 : Half} {s t : State} (h : exec (.sendRegion x1 y1 x2 y2) s = .next t) (hcode : t.code = CODE_OK)
include h hcode

/-- After a send that ends OK the panel has opened the window of the rectangle and received its packed bytes (R163). -/
theorem sendRegion_ok_panel :
    t.panel.gram = Memory.overlay (windowCells (x1.toNat + s.cfg.xOff) (y1.toNat + s.cfg.yOff) (x2.toNat - x1.toNat) 0
      ((pix x1.toNat y1.toNat x2.toNat y2.toNat).map (loadPixel s))) s.panel.gram ∧
    t.panel.epoch = s.panel.epoch := by
  obtain ⟨hx, hy, hW, hH⟩ := sendRegion_ok_rect h hcode
  obtain ⟨-, hxOff, hyOff⟩ := sendRegion_ok_parameters h hcode
  obtain ⟨d, chunks, hcut, rfl⟩ := sendRegion_ok_acts h hcode
  have hsc := toNat_ofNat_half (show x1.toNat + s.cfg.xOff < 65536 by omega)
  have hec := toNat_ofNat_half (show x2.toNat - 1 + s.cfg.xOff < 65536 by omega)
  have hsp := toNat_ofNat_half (show y1.toNat + s.cfg.yOff < 65536 by omega)
  have hep := toNat_ofNat_half (show y2.toNat - 1 + s.cfg.yOff < 65536 by omega)
  have hcols : x2.toNat - 1 + s.cfg.xOff - (x1.toNat + s.cfg.xOff) + 1 = x2.toNat - x1.toNat := by omega
  have hrows : y2.toNat - 1 + s.cfg.yOff - (y1.toNat + s.cfg.yOff) + 1 = y2.toNat - y1.toNat := by omega
  obtain ⟨hfits, hgram, hepoch⟩ := Panel.opened_pixels s.panel
    (cs := (pix x1.toNat y1.toNat x2.toNat y2.toNat).map (loadPixel s))
    (hsc.trans_le (by rw [hec]; omega)) (hsp.trans_le (by rw [hep]; omega))
    (by rw [hsc, hec, hsp, hep, hcols, hrows, List.length_map, pix_length, Nat.mul_comm])
  rw [← packedBytes_eq_pixelBytes, ← hcut.flatten] at hfits hgram hepoch
  rw [endWith_panel, runActs_panel_of_ok _ _ (runActs_none_of_ok hcode), List.foldl_append, Panel.take_windowActs,
    Panel.take_chunkActs, Panel.foldl_receive_chunks chunks _ rfl (BitVec.isLt _) hfits]
  rw [hsc, hec, hsp, hcols] at hgram
  exact ⟨hgram, hepoch⟩

end

/-- Settles O58: the pixel `(x, y)` has its place in the window, and no other cell is one. -/
theorem sentPixelsReachThePanel : Obligations.SentPixelsReachThePanel := by
  intro x1 y1 x2 y2 s t h hcode
  obtain ⟨hx, hy, hW, hH⟩ := sendRegion_ok_rect h hcode
  obtain ⟨-, hxOff, -⟩ := sendRegion_ok_parameters h hcode
  obtain ⟨hgram, hepoch⟩ := sendRegion_ok_panel h hcode
  have hw : 0 < x2.toNat - x1.toNat := by omega
  have hsc : x1.toNat + s.cfg.xOff + (x2.toNat - x1.toNat) ≤ 65536 := by omega
  refine ⟨fun x y hx1 hx2 hy1 hy2 => ?sent, fun col page hcol hout => ?other⟩
  case sent =>
    obtain ⟨i, rfl⟩ := Nat.exists_eq_add_of_le hx1
    obtain ⟨j, rfl⟩ := Nat.exists_eq_add_of_le hy1
    have hi : i < x2.toNat - x1.toNat := by omega
    have hpix := pix_getElem? hi (show j < y2.toNat - y1.toNat by omega)
    have hpixel := Panel.pixel_in_window hw hsc hgram hi (by rw [List.getElem?_map, hpix]; rfl)
    rwa [Nat.add_right_comm, Nat.add_right_comm (y1.toNat)] at hpixel
  case other =>
    refine Panel.pixel_off_window hw hsc hgram hepoch (by rw [List.length_map, pix_length, Nat.mul_comm]) hcol
      fun i j hi hj hcell => hout (x1.toNat + i) (y1.toNat + j) ?_ ?_ ?_ ?_ ?_ <;> omega

end Sys2Proof.Machine
end

section
/-! The reset input asserted inside an operation, and a block that stays in reset: what the cut lets out, by the event the cut
falls on (`State.abandon_trace` has the trace), and what a host line can still do. Settles O59, and O19 for the idle block. -/

namespace Sys2Proof.Machine

/-- Settles O19: the host has the turn and no line to take. -/
theorem idleBlockDoesNothing : Obligations.IdleBlockDoesNothing := by
  intro s hb _ hh
  rw [step_idle hb, hostTurn, hh]

/-! ## The panel of an abandoned operation -/

section
variable {s t : State} {cut : Cut} {new : List Event} (ht : t.trace = s.trace ++ new)
include ht

/-- A cut past the last event comes after the whole operation (log 19). -/
theorem State.abandon_panel_past (hcut : new.length ≤ cut.events) : (s.abandon t cut).panel = t.panel := by
  simp only [State.abandon, ht, List.drop_left, List.drop_eq_nil_of_le hcut]

/-- A cut inside the operation delivers the events before it and a prefix of the event it falls on (R164, R166). -/
theorem State.abandon_panel_cut {e : Event} (he : new[cut.events]? = some e) :
    (s.abandon t cut).panel = (s.panel.takeEvents (new.take cut.events)).takeEvent e cut.bytes := by
  obtain ⟨hlt, rfl⟩ := List.getElem?_eq_some_iff.mp he
  simp only [State.abandon, ht, List.drop_left, List.drop_eq_getElem_cons hlt]

end

/-- An operation that runs to `t` is abandoned on its way there (R166). -/
theorem assertReset_running {s t : State} (hb : s.busy = true) (h0 : s.resetIn = false)
    (h : runSequencer { s with draws := (drawCut s.draws).2 } = .next t) :
    assertReset s = .next { s.abandon t (drawCut s.draws).1 with resetIn := true } := by
  rw [assertReset, if_pos ⟨hb, h0⟩, h]

/-- The host line that asserts the reset abandons the operation `CUR_OP` names (R55, R166). -/
theorem hostTurn_assertReset {i : Instr} {s t : State} {rest : List HostOp} (hb : s.busy = true) (h0 : s.resetIn = false)
    (hp : s.pending = []) (hh : s.host = .assertReset :: rest)
    (hd : decode (.hostCmd (s.curOp.setWidth 32) s.args) = .ok i)
    (h : exec i { s with host := rest, awaiting := false, draws := (drawCut s.draws).2 } = .next t) :
    hostTurn s = .next
      { ({ s with host := rest, awaiting := false } : State).abandon t (drawCut s.draws).1 with resetIn := true } := by
  rw [hostTurn, hh]
  refine assertReset_running (s := { s with host := rest, awaiting := false }) hb h0 ?_
  rw [← h]
  exact runSequencer_op hp hd

/-! ## A block in reset -/

/-- From `s` to `t` nothing reached the bus or the panel, and the reset input is asserted (R166). -/
def SilentInReset (s t : State) : Prop := t.trace = s.trace ∧ t.panel = s.panel ∧ t.resetIn = true

/-- In reset no host line but the release reaches the bus, the panel or the reset input (R166). -/
theorem hostAct_silentInReset {op : HostOp} {rest : List HostOp} {s t : State} (h0 : s.resetIn = true)
    (hop : op ≠ .releaseReset) (h : hostAct op rest s = .next t) : SilentInReset s t := by
  cases op with
  | write offset width v =>
    rcases hostWrite_cases h with rfl | ⟨n, hn, rfl⟩ | ⟨-, hout, -⟩
    · exact ⟨rfl, rfl, h0⟩
    · exact ⟨rfl, rfl, h0⟩
    · exact absurd (h0.symm.trans hout) (by decide)
  | read offset width => rw [hostRead_frame h]; exact ⟨rfl, rfl, h0⟩
  | poll => injection h with h; rw [← h, hostPoll_frame]; exact ⟨rfl, rfl, h0⟩
  | store addr b => rw [hostStore_frame h]; exact ⟨rfl, rfl, h0⟩
  | assertReset =>
    rcases assertReset_cases h with ⟨-, rfl⟩ | ⟨-, hout, -⟩
    · exact ⟨rfl, rfl, rfl⟩
    · exact absurd (h0.symm.trans hout) (by decide)
  | releaseReset => exact absurd rfl hop

/-- In reset a step is a host line or nothing (R166, R167). -/
theorem step_silentInReset {s t : State} (h0 : s.resetIn = true) (hh : s.host.head? ≠ some .releaseReset)
    (h : step s = .next t) : SilentInReset s t := by
  rw [step, nextTurn_reset h0] at h
  replace h : hostTurn s = .next t := h
  cases hs : s.host with
  | nil => rw [hostTurn, hs] at h; injection h with h; exact h ▸ ⟨rfl, rfl, h0⟩
  | cons op rest =>
    rw [hostTurn, hs] at h
    exact hostAct_silentInReset h0 (fun hop => hh (by rw [hs, hop]; rfl)) h

/-- Settles O59: the abandoned operation's trace and panel at the drawn cut, then the steps in reset. -/
theorem resetAbandonsTheOperation : Obligations.ResetAbandonsTheOperation := by
  refine ⟨fun i s t rest hb h0 hp hh hd h => ?cut, fun _ _ => step_silentInReset⟩
  case cut =>
    obtain ⟨new, ht, -⟩ := everyTransactionHasWireForm i _ t h
    replace ht : t.trace = ({ s with host := rest, awaiting := false } : State).trace ++ new := ht
    refine ⟨new, _, ht, hostTurn_assertReset hb h0 hp hh hd h, ?frame, State.abandon_panel_past ht,
      fun _ _ _ => State.abandon_panel_cut ht, fun _ => State.abandon_panel_cut ht,
      fun _ _ => State.abandon_panel_cut ht⟩
    case frame => rw [← State.abandon_trace _ ht, State.abandon_frame]

end Sys2Proof.Machine
end
